-- ==== Sys2Proof/Word.lean ====
section
/-! DEFINITION. The words of HUFFCORE: bus and register words, bytes, bus addresses. -/

namespace Sys2Proof

/-- A register or bus word (10_state.md R22, 20_memory.md R61). -/
abbrev Word := BitVec 32

/-- A byte of a byte memory, or a symbol of the alphabet (00_scope.md R8). -/
abbrev Byte := BitVec 8

/-- A block-relative bus address (20_memory.md R60). -/
abbrev Addr := BitVec 26

/-- A bit string, leftmost bit first (00_scope.md R11). -/
abbrev Bits := List Bool

end Sys2Proof
end

