-- ==== Sys2Proof/Config.lean ====
section
/-! DEFINITION. What an instance of HUFFCORE fixes (its three capacities) and the free values: what the
spec leaves unspecified. -/

namespace Sys2Proof

/-- A memory capacity: a byte count in 1..2^24 (00_scope.md R7). -/
structure Cap where
  val : Nat
  pos : 1 ≤ val
  le  : val ≤ 16777216
deriving DecidableEq, Repr

/-- The three parameters of an instance (00_scope.md R7). -/
structure Params where
  inCap  : Cap
  payCap : Cap
  outCap : Cap
deriving DecidableEq, Repr

/-- The capacity of the reference configuration, 65536 bytes (00_scope.md R7). -/
def Cap.reference : Cap := ⟨65536, by decide, by decide⟩

/-- The reference configuration (00_scope.md R7). -/
def Params.reference : Params := ⟨.reference, .reference, .reference⟩

/-- FREE VALUE: what the n-th free draw of a byte returns (20_memory.md R72, R69: an unspecified byte,
possibly different at every read). It has no body, so nothing can be proved of its values. Log 3. -/
opaque Config.freeByte : Nat → Byte

/-- FREE VALUE: what the n-th free draw of a word returns (20_memory.md R69: a read of a result register or
table entry while the engine is busy). It has no body. Log 4. -/
opaque Config.freeWord : Nat → Word

end Sys2Proof
end

