-- ==== Sys2Proof/Syntax.lean ====
section
/-! DEFINITION. The syntax of everything HUFFCORE is given: commands, bus transactions, register locations,
containers, and the host's assembler. -/

namespace Sys2Proof

/-- The nine commands (30_encoding.md R91). No command has an operand (R93). -/
inductive Instr where
  /-- CLEAR, 40_command_dispatch.md R115. -/
  | clear
  /-- COUNT, 41_frequency_counter.md R130. -/
  | count
  /-- BUILD, 42_tree_builder.md R140. -/
  | build
  /-- PACK, 43_bit_packer.md R170. -/
  | pack
  /-- SERIALIZE, 44_container_codec.md R192. -/
  | serialize
  /-- PARSE, 44_container_codec.md R193. -/
  | parse
  /-- UNPACK, 45_decoder.md R220. -/
  | unpack
  /-- ENCODE, 46_composite.md R240. -/
  | encode
  /-- DECODE, 46_composite.md R241. -/
  | decode
deriving DecidableEq, Repr

/-- Why a command word selects no operation (30_encoding.md R92). -/
inductive IllegalWord where
  /-- RSV (bits 31..4) is not 0, whatever OP is. -/
  | reservedBits
  /-- RSV is 0 and OP is 0x0 or 0xA..0xF. -/
  | reservedOp
deriving DecidableEq, Repr

/-- The size of a bus access: 1 or 4 bytes (20_memory.md R61). -/
inductive Size where
  | byte
  | word
deriving DecidableEq, Repr

/-- A host transaction (20_memory.md R61). A byte write uses bits 7..0 of its data (30_encoding.md R95). -/
inductive Txn where
  | read (a : Addr) (size : Size)
  | write (a : Addr) (size : Size) (data : Word)
deriving DecidableEq, Repr

/-- The request fields of Format BUS (30_encoding.md R95): SIZE 0 is one byte, WE 1 is a write. -/
structure BusFields where
  addr  : Addr
  size  : BitVec 1
  we    : BitVec 1
  wdata : Word
deriving DecidableEq, Repr

/-- A location of the register page (10_state.md R22). -/
inductive RegLoc where
  | id | cmd | status | irqEn | inLen | payLen | pad | outLen | nsym | treeValid | root | nnodes | errInfo
  | inCap | payCap | outCap
  | freq (b : Byte)
  | codeLen (b : Byte)
  | codeBits (b : Byte) (w : Fin 8)
  | node (n : Fin 511) (k : Fin 4)
  /-- An offset R22 does not name: reads 0 and ignores writes (R50). -/
  | reserved
deriving DecidableEq, Repr

/-- What a bus address reaches: a register location, or an offset in one of the three byte windows
(20_memory.md R60). -/
inductive Loc where
  | reg (r : RegLoc)
  | inWin (o : Nat)
  | outWin (o : Nat)
  | payWin (o : Nat)
deriving DecidableEq, Repr

/-- One entry of a container's frequency table (00_scope.md R17, 44_container_codec.md R190). -/
structure Entry where
  sym   : Byte
  count : Word
deriving DecidableEq, Repr

/-- A container (44_container_codec.md R190): its table, its pad byte and its payload. -/
structure Container where
  table   : List Entry
  pad     : Byte
  payload : List Byte
deriving DecidableEq, Repr

/-- A host scratch variable r0..r7 (30_encoding.md R96). -/
abbrev Scratch := Fin 8

/-- A statement of an assembled host program (30_encoding.md R96); a branch names the index of the statement
it goes to. -/
inductive HostStmt where
  | wr32 (a : Addr) (v : Word)
  | wr8 (a : Addr) (v : Byte)
  | rd32 (r : Scratch) (a : Addr)
  | rd8 (r : Scratch) (a : Addr)
  | bnz (r : Scratch) (mask : Word) (target : Nat)
  | bz (r : Scratch) (mask : Word) (target : Nat)
  | halt
deriving DecidableEq, Repr

/-- A line of a host assembler source (30_encoding.md R96 to R101). A label is named by a number (log 15). -/
inductive AsmLine where
  | label (l : Nat)
  | wr32 (a : Addr) (v : Word)
  | wr8 (a : Addr) (v : Byte)
  | rd32 (r : Scratch) (a : Addr)
  | rd8 (r : Scratch) (a : Addr)
  | bnz (r : Scratch) (mask : Word) (l : Nat)
  | bz (r : Scratch) (mask : Word) (l : Nat)
  | halt
  /-- A command mnemonic (R98). -/
  | command (i : Instr)
  /-- CMDW value (R98). -/
  | cmdw (w : Word)
  /-- WAIT (R99). -/
  | wait
  /-- LOADIN b0 .. (R100). -/
  | loadin (bs : List Byte)
  /-- LOADPAY b0 .. (R100). -/
  | loadpay (bs : List Byte)
  /-- ACK (R101). -/
  | ack
deriving DecidableEq, Repr

end Sys2Proof
end

