-- ==== Sys2Proof/WellFormed.lean ====
section
/-! DEFINITION. The checks a term of the syntax must pass. Each is a Bool or a decidable Prop. -/

namespace Sys2Proof

/-- Every command is well formed: none has an operand (30_encoding.md R93). -/
def Instr.wf : Instr → Bool
  | .clear | .count | .build | .pack | .serialize | .parse | .unpack | .encode | .decode => true

/-- A command word is legal when RSV is 0 and OP is in 1..9 (30_encoding.md R91, R92). -/
abbrev LegalWord (w : Word) : Prop := 1 ≤ w.toNat ∧ w.toNat ≤ 9

/-- A container table is well formed when its byte values strictly ascend and no count is 0
(44_container_codec.md R191). -/
abbrev TableWf (t : List Entry) : Prop :=
  t.Pairwise (fun x y => x.sym.toNat < y.sym.toNat) ∧ ∀ e ∈ t, e.count ≠ 0

/-- The pad and payload of a container agree with its table (44_container_codec.md R193): the pad is in 0..7,
an empty table has neither payload nor pad, and a pad needs a payload. -/
abbrev PayloadWf (c : Container) : Prop :=
  c.pad.toNat ≤ 7 ∧ (c.table = [] → c.payload = [] ∧ c.pad = 0) ∧ (c.payload = [] → c.pad = 0)

/-- A well-formed container (44_container_codec.md R191, R193). -/
abbrev Container.wf (c : Container) : Prop := TableWf c.table ∧ PayloadWf c

/-- The statement a branch goes to lies inside the program (30_encoding.md R96). -/
def HostStmt.wf (len : Nat) : HostStmt → Bool
  | .bnz _ _ t | .bz _ _ t => decide (t < len)
  | .wr32 _ _ | .wr8 _ _ | .rd32 _ _ | .rd8 _ _ | .halt => true

/-- An assembled host program is well formed when every branch stays inside it. -/
def HostProgWf (p : List HostStmt) : Bool := p.all (HostStmt.wf p.length)

/-- The labels a source defines, in order. -/
def definedLabels : List AsmLine → List Nat
  | [] => []
  | .label l :: rest => l :: definedLabels rest
  | _ :: rest => definedLabels rest

/-- The labels a source branches to, in order. -/
def usedLabels : List AsmLine → List Nat
  | [] => []
  | .bnz _ _ l :: rest => l :: usedLabels rest
  | .bz _ _ l :: rest => l :: usedLabels rest
  | _ :: rest => usedLabels rest

/-- A source is well formed when no label is defined twice and every label used is defined
(30_encoding.md R96). -/
abbrev AsmWf (p : List AsmLine) : Prop := (definedLabels p).Nodup ∧ ∀ l ∈ usedLabels p, l ∈ definedLabels p

end Sys2Proof
end

