-- ==== Sys2Proof/Decode.lean ====
section
/-! DEFINITION. Decoding and encoding: command words (30_encoding.md R90 to R92), bus transactions in Format
BUS (R95), and the address map (20_memory.md R60, 10_state.md R22). Every decoder is total. -/

namespace Sys2Proof

/-- Field RSV, bits 31..4 of a command word (30_encoding.md R90). -/
def fieldRsv (w : Word) : BitVec 28 := w.extractLsb' 4 28

/-- Field OP, bits 3..0 of a command word (30_encoding.md R90). -/
def fieldOp (w : Word) : BitVec 4 := w.extractLsb' 0 4

/-- The operation of an OP value (30_encoding.md R91), by name where there is none (R92). -/
def decodeOp (op : BitVec 4) : Except IllegalWord Instr :=
  match op.toNat with
  | 1 => .ok .clear
  | 2 => .ok .count
  | 3 => .ok .build
  | 4 => .ok .pack
  | 5 => .ok .serialize
  | 6 => .ok .parse
  | 7 => .ok .unpack
  | 8 => .ok .encode
  | 9 => .ok .decode
  | _ => .error .reservedOp

/-- The command a word selects, from all its 32 bits (30_encoding.md R91, R92, 40_command_dispatch.md R114). -/
def decodeWord (w : Word) : Except IllegalWord Instr :=
  if fieldRsv w ≠ 0 then .error .reservedBits else decodeOp (fieldOp w)

/-- The OP value of a command (30_encoding.md R91). -/
def encodeOp : Instr → BitVec 4
  | .clear => 0x1
  | .count => 0x2
  | .build => 0x3
  | .pack => 0x4
  | .serialize => 0x5
  | .parse => 0x6
  | .unpack => 0x7
  | .encode => 0x8
  | .decode => 0x9

/-- The command word of a command: RSV = 0, then OP (30_encoding.md R90, R91). -/
def encode (i : Instr) : Word := (0 : BitVec 28) ++ encodeOp i

/-- The instruction the decoder reads from a word numbered as spec/opcode_table.json numbers it: a command is the
one 32-bit word of a CMD write, so `nbits` is 32 and the bits above `nbits` are 0. -/
def decodeTableWord (nbits w : Nat) : Option Instr :=
  if w % 2 ^ nbits < 2 ^ 32 then
    match decodeWord (BitVec.ofNat 32 (w % 2 ^ nbits)) with
    | .ok i => some i
    | .error _ => none
  else none

/-! ## Bus transactions -/

/-- The transaction of a request in Format BUS (30_encoding.md R95). -/
def decodeBus (f : BusFields) : Txn :=
  let size : Size := if f.size = 0 then .byte else .word
  if f.we = 0 then .read f.addr size else .write f.addr size f.wdata

/-- The SIZE field of a size (30_encoding.md R95). -/
def encodeSize : Size → BitVec 1
  | .byte => 0
  | .word => 1

/-- The request fields of a transaction (30_encoding.md R95). DESIGN CHOICE, log 19: the WDATA field of a read is 0, as the
spec gives WDATA a meaning for writes only. No read depends on it: `decodeBus` drops it. -/
def encodeBus : Txn → BusFields
  | .read a size => ⟨a, encodeSize size, 0, 0⟩
  | .write a size d => ⟨a, encodeSize size, 1, d⟩

/-! ## The address map -/

/-- The register location at a word-aligned byte offset of the register window (10_state.md R22, R50). -/
def decodeReg (o : Nat) : RegLoc :=
  if o < 0x40 then
    match o / 4 with
    | 0 => .id
    | 1 => .cmd
    | 2 => .status
    | 3 => .irqEn
    | 4 => .inLen
    | 5 => .payLen
    | 6 => .pad
    | 7 => .outLen
    | 8 => .nsym
    | 9 => .treeValid
    | 10 => .root
    | 11 => .nnodes
    | 12 => .errInfo
    | 13 => .inCap
    | 14 => .payCap
    | _ => .outCap
  else if o < 0x400 then .reserved
  else if o < 0x800 then .freq (BitVec.ofNat 8 ((o - 0x400) / 4))
  else if o < 0xC00 then .codeLen (BitVec.ofNat 8 ((o - 0x800) / 4))
  else if o < 0x1000 then .reserved
  else if o < 0x3000 then
    .codeBits (BitVec.ofNat 8 ((o - 0x1000) / 32)) ⟨o % 32 / 4, by omega⟩
  else if o < 0x4000 then .reserved
  else if h : (o - 0x4000) / 16 < 511 then .node ⟨(o - 0x4000) / 16, h⟩ ⟨o % 16 / 4, by omega⟩
  else .reserved

/-- The byte offset of a register location (30_encoding.md R97); a reserved location is given the first
offset R22 does not name, 0x0040 (DESIGN CHOICE, log 20). -/
def RegLoc.offset : RegLoc → Nat
  | .id => 0x0000
  | .cmd => 0x0004
  | .status => 0x0008
  | .irqEn => 0x000C
  | .inLen => 0x0010
  | .payLen => 0x0014
  | .pad => 0x0018
  | .outLen => 0x001C
  | .nsym => 0x0020
  | .treeValid => 0x0024
  | .root => 0x0028
  | .nnodes => 0x002C
  | .errInfo => 0x0030
  | .inCap => 0x0034
  | .payCap => 0x0038
  | .outCap => 0x003C
  | .freq b => 0x0400 + 4 * b.toNat
  | .codeLen b => 0x0800 + 4 * b.toNat
  | .codeBits b w => 0x1000 + 32 * b.toNat + 4 * w.val
  | .node n k => 0x4000 + 16 * n.val + 4 * k.val
  | .reserved => 0x0040

/-- What a bus address reaches: address bits 25..24 select the window (20_memory.md R60). -/
def decodeAddr (a : Addr) : Loc :=
  let o := (a.extractLsb' 0 24).toNat
  match (a.extractLsb' 24 2).toNat with
  | 0 => .reg (decodeReg o)
  | 1 => .inWin o
  | 2 => .outWin o
  | _ => .payWin o

/-- The bus address of a location (20_memory.md R60, 30_encoding.md R97). DESIGN CHOICE, log 20: a sum past the 26-bit space
(PAY(o) with o at or above 2^24) wraps modulo 2^26, and RESERVED stands for its lowest offset, 0x0040. -/
def Loc.addr : Loc → Addr
  | .reg r => BitVec.ofNat 26 r.offset
  | .inWin o => BitVec.ofNat 26 (0x1000000 + o)
  | .outWin o => BitVec.ofNat 26 (0x2000000 + o)
  | .payWin o => BitVec.ofNat 26 (0x3000000 + o)

end Sys2Proof
end

