-- ==== Sys2Proof/Machine/State.lean ====
section
/-! DEFINITION. The state of HUFFCORE and of the two agents around it, its reset value, and how a command
ends. Plain data throughout. -/

namespace Sys2Proof.Machine

/-- Why a run stops with a fault: never. HUFFCORE has no machine fault; a failed command is a completion
reported in STATUS and ERR_INFO (60_exceptions.md R250, R258), a refused transaction is a bus response (R257). -/
inductive Fault where
deriving DecidableEq, Repr

/-- Why a step has no meaning. -/
inductive Refusal where
  /-- Raised by an arm of `exec` whose command has no meaning yet (safe). No arm is left that raises it. -/
  | notModelled (mnemonic : String)
deriving DecidableEq, Repr

/-- The eight command errors (60_exceptions.md R250); no error is the code NONE. -/
inductive Err where
  | malformedContainer
  | invalidPadding
  | truncatedBitstream
  | emptyInput
  | illegalCommand
  | capacity
  | uncodedSymbol
  | noTree
deriving DecidableEq, Repr

/-- ENGINE and PENDING (10_state.md R47). The pending word exists only while BUSY. Log 7. -/
inductive Engine where
  | idle
  | busy (pending : Word)
deriving DecidableEq, Repr

/-- The fields of STATUS that are storage (10_state.md R25); BUSY is a view of ENGINE (R47). -/
structure Status where
  /-- ERRCODE, bits 11..8; `none` is the code 0, NONE. -/
  errcode : Option Err
  /-- LAST_OP, bits 7..4. -/
  lastOp  : BitVec 4
  /-- OVR, bit 3. -/
  ovr     : Bool
  /-- ERR, bit 2. -/
  err     : Bool
  /-- DONE, bit 1. -/
  done    : Bool
deriving DecidableEq, Repr

/-- A record of the NODE arena (10_state.md R42). -/
structure Node where
  leaf   : Bool
  used   : Bool
  sym    : Byte
  left   : BitVec 9
  right  : BitVec 9
  weight : BitVec 40
deriving DecidableEq, Repr

/-- The all-zero record (10_state.md R42). -/
def Node.zero : Node := ⟨false, false, 0, 0, 0, 0⟩

/-- A byte memory: the bytes written since reset, as (offset, byte) pairs with offsets strictly rising. An
unlisted offset is never-written and has no value (20_memory.md R72). Log 3. -/
abbrev Memory := List Host.Cell

/-- The canonical form of a byte memory. No listed byte can equal what an unlisted one reads as, since an
unlisted one has no value. -/
abbrev Memory.wf (m : Memory) : Prop := m.Pairwise (fun x y => x.1 < y.1)

/-- Every listed offset is below the capacity. -/
abbrev Memory.below (m : Memory) (cap : Nat) : Prop := ∀ c ∈ m, c.1 < cap

/-- The response to a transaction: RDATA, which only a read returns, and ERR (30_encoding.md R95, 20_memory.md R61).
Log 10. -/
structure Response where
  rdata : Option Word
  err   : Bool
deriving DecidableEq, Repr

/-- The host running a program (30_encoding.md R96): its statements, the index of the next one, and its
scratch variables r0..r7. -/
structure HostState where
  prog : List HostStmt
  next : Nat
  regs : Vector Word 8
deriving DecidableEq, Repr

/-- What the environment makes happen next (00_scope.md R18, 20_memory.md R73, 70_reset_and_hazards.md R280). -/
inductive Event where
  /-- The host issues a transaction. -/
  | bus (t : Txn)
  /-- The host program runs its next statement. -/
  | hostTurn
  /-- The engine takes its step, where it has one enabled. -/
  | engineTurn
  /-- The platform asserts reset. -/
  | assertReset
  /-- The platform releases reset. -/
  | releaseReset
deriving DecidableEq, Repr

/-- The state of the block (10_state.md), of its lines, and of the host. ID, CMD, STATUS.BUSY, NSYM and irq have
no storage of their own (R23, R24, R47, R32, R49). -/
structure State where
  /-- IN_CAP, PAY_CAP and OUT_CAP (R37). -/
  params    : Params
  /-- ENGINE and PENDING (R47). -/
  engine    : Engine
  /-- STATUS (R25). -/
  status    : Status
  /-- IRQ_EN.DONE_IE (R27). -/
  irqEn     : Bool
  /-- IN_LEN (R28). -/
  inLen     : Word
  /-- PAY_LEN (R29). -/
  payLen    : Word
  /-- PAD (R30). -/
  pad       : Byte
  /-- OUT_LEN (R31). -/
  outLen    : Word
  /-- TREE_VALID.VALID (R33). -/
  treeValid : Bool
  /-- ROOT (R34). -/
  root      : BitVec 9
  /-- NNODES (R35). -/
  nnodes    : BitVec 10
  /-- ERR_INFO (R36). -/
  errInfo   : Word
  /-- FREQ (R38). -/
  freq      : Vector Word 256
  /-- CODE_LEN (R40). -/
  codeLen   : Vector Byte 256
  /-- CODE_BITS (R41). -/
  codeBits  : Vector (Vector Word 8) 256
  /-- NODE (R42). -/
  node      : Vector Node 511
  /-- IN_MEM (R44). -/
  inMem     : Memory
  /-- PAY_MEM (R45). -/
  payMem    : Memory
  /-- OUT_MEM (R46). -/
  outMem    : Memory
  /-- Reset is asserted (70_reset_and_hazards.md R280). Log 9. -/
  rst       : Bool
  /-- The response to the last transaction, if it got one (20_memory.md R61). Log 10. -/
  resp      : Option Response
  /-- The host program (30_encoding.md R96). Log 11. -/
  host      : HostState
  /-- MODEL's own: the events the environment still has to produce. Log 1. -/
  script    : List Event
  /-- MODEL's own: how many free draws have been made. Log 3. -/
  draws     : Nat
deriving DecidableEq, Repr

/-- STATUS at reset (10_state.md R25). -/
def Status.zero : Status := ⟨none, 0, false, false, false⟩

/-- The host before it is given a program. DESIGN CHOICE, log 11. -/
def HostState.empty : HostState := ⟨[], 0, Vector.replicate 8 0⟩

/-- An instance with the given parameters right after reset (70_reset_and_hazards.md R280, R281, R283). -/
def State.resetOf (p : Params) : State where
  params    := p
  engine    := .idle
  status    := .zero
  irqEn     := false
  inLen     := 0
  payLen    := 0
  pad       := 0
  outLen    := 0
  treeValid := false
  root      := 0
  nnodes    := 0
  errInfo   := 0
  freq      := Vector.replicate 256 0
  codeLen   := Vector.replicate 256 0
  codeBits  := Vector.replicate 256 (Vector.replicate 8 0)
  node      := Vector.replicate 511 .zero
  inMem     := []
  payMem    := []
  outMem    := []
  rst       := false
  resp      := none
  host      := .empty
  script    := []
  draws     := 0

/-- The reference instance right after reset (70_reset_and_hazards.md R280, 00_scope.md R7). Log 8. -/
def State.reset : State := State.resetOf .reference

/-- How a command's rule ends (00_scope.md R14, 40_command_dispatch.md R113): with its effects applied, or with
a raised error, its information value, and the state the error leaves. -/
inductive CmdResult where
  | ok (s : State)
  | raised (e : Err) (info : Word) (s : State)
deriving DecidableEq, Repr

/-- The tables BUILD writes (42_tree_builder.md R140). -/
structure TreeTables where
  node     : Vector Node 511
  root     : BitVec 9
  nnodes   : BitVec 10
  codeLen  : Vector Byte 256
  codeBits : Vector (Vector Word 8) 256
deriving DecidableEq, Repr

/-- The states of the Decoder State Machine (45_decoder.md R221). -/
inductive DecoderState where
  | atRoot
  | descending
deriving DecidableEq, Repr

end Sys2Proof.Machine
end

