-- ==== Sys2Proof/Machine/Ops.lean ====
section
/-! DEFINITION. The shared operations: byte order and bit order, the byte memories and free draws, accepting a
command, raising an error and completing, acknowledging, and reset. -/

namespace Sys2Proof.Machine

/-! ## Byte order and bit order -/

/-- The four bytes of a word, little-endian: `le32` (00_scope.md R13, 20_memory.md R64). -/
def le32 (w : Word) : List Byte :=
  [w.extractLsb' 0 8, w.extractLsb' 8 8, w.extractLsb' 16 8, w.extractLsb' 24 8]

/-- The word of four bytes, little-endian (00_scope.md R13). -/
def wordLE (b0 b1 b2 b3 : Byte) : Word := b3 ++ b2 ++ b1 ++ b0

/-- The number a bit string spells, first bit most significant (43_bit_packer.md R171). -/
def natOfBits : Bits → Nat
  | [] => 0
  | b :: bs => b.toNat * 2 ^ bs.length + natOfBits bs

/-- The bits of a byte, most significant first (20_memory.md R65, 43_bit_packer.md R172). -/
def bitsOfByte (b : Byte) : Bits := (List.range 8).map (fun t => b.getLsbD (7 - t))

/-- The byte whose bits are positions 8k .. 8k+7 of a bit string, first bit most significant, positions past the
end being pad zeros (43_bit_packer.md R171). -/
def byteOfBits (p : Bits) (k : Nat) : Byte :=
  BitVec.ofNat 8 (natOfBits ((List.range 8).map (fun t => p.getD (8 * k + t) false)))

/-- The word whose bits are positions 32w .. 32w+31 of a bit string, first bit in bit 31, positions past the end
being 0 (10_state.md R41). -/
def wordOfBits (p : Bits) (w : Nat) : Word :=
  BitVec.ofNat 32 (natOfBits ((List.range 32).map (fun t => p.getD (32 * w + t) false)))

/-! ## Byte memories and free draws -/

/-- The written byte at an offset, if that byte was written since reset. -/
def Memory.read : Memory → Nat → Option Byte
  | [], _ => none
  | (k, v) :: m, a => if k = a then some v else Memory.read m a

/-- Writing one byte; the offsets stay strictly rising. -/
def Memory.write : Memory → Nat → Byte → Memory
  | [], a, v => [(a, v)]
  | (k, w) :: m, a, v =>
    if a < k then (a, v) :: (k, w) :: m
    else if a = k then (a, v) :: m
    else (k, w) :: Memory.write m a v

/-- Writing consecutive bytes from an offset (00_scope.md R13). -/
def Memory.writeBytes : Memory → Nat → List Byte → Memory
  | m, _, [] => m
  | m, a, b :: bs => Memory.writeBytes (m.write a b) (a + 1) bs

/-- Reading one byte after `n` free draws: the written byte, or a free draw where nothing has been written since
reset (20_memory.md R72). The second part is the number of draws made by then. -/
def readByte (m : Memory) (a n : Nat) : Byte × Nat :=
  match m.read a with
  | some v => (v, n)
  | none => (Config.freeByte n, n + 1)

/-- Reading `len` consecutive bytes from an offset, lowest first, each once (log 6). -/
def readBytes (m : Memory) : (a len n : Nat) → List Byte × Nat
  | _, 0, n => ([], n)
  | a, len + 1, n =>
    let b := readByte m a n
    let rest := readBytes m (a + 1) len b.2
    (b.1 :: rest.1, rest.2)

/-- Every byte of a range has been written since reset. -/
def Memory.written (m : Memory) (a len : Nat) : Bool :=
  (List.range len).all (fun i => (m.read (a + i)).isSome)

/-! ## The life of a command -/

/-- Acceptance of a command word (40_command_dispatch.md R110). -/
def accept (w : Word) (s : State) : State :=
  { s with
    engine := .busy w
    status := { errcode := none, lastOp := fieldOp w, ovr := false, err := false, done := false } }

/-- Raising an error: the one way a command fails (00_scope.md R14). The state is what the error leaves
(60_exceptions.md R252). -/
def raise (e : Err) (info : Nat) (s : State) : CmdResult := .raised e (BitVec.ofNat 32 info) s

/-- Completion, the entry an error or a success takes (40_command_dispatch.md R113, 60_exceptions.md R258):
ERR_INFO, ERR and ERRCODE are written, DONE is set and the engine is IDLE; LAST_OP and OVR are kept. -/
def complete : CmdResult → State
  | .ok s =>
    { s with
      engine := .idle
      errInfo := 0
      status := { s.status with errcode := none, err := false, done := true } }
  | .raised e info s =>
    { s with
      engine := .idle
      errInfo := info
      status := { s.status with errcode := some e, err := true, done := true } }

/-- Acknowledging a completion, the return from it (60_exceptions.md R259): DONE is cleared (10_state.md R26). -/
def acknowledge (s : State) : State := { s with status := { s.status with done := false } }

/-- The next sub-command of a composite: it runs on the state the one before left, and not at all after an error
(46_composite.md, 60_exceptions.md R255). -/
def CmdResult.andThen (r : CmdResult) (next : State → CmdResult) : CmdResult :=
  match r with
  | .ok s => next s
  | .raised e info s => .raised e info s

/-! ## Reset -/

/-- Assertion of reset: the line alone (70_reset_and_hazards.md R280). Log 9. -/
def assertReset (s : State) : State := { s with rst := true }

/-- Release of reset: every register and table takes its reset value, a running command is abandoned and every
memory byte is never-written again (70_reset_and_hazards.md R280 to R282). The parameters, the host, the script
and the count of draws are no part of the block's reset. Without an assertion before it there is nothing to
release. -/
def releaseReset (s : State) : State :=
  if s.rst then
    { State.resetOf s.params with
      host := s.host
      script := s.script
      draws := s.draws }
  else s

end Sys2Proof.Machine
end

