-- ==== Sys2Proof/Machine/Operands.lean ====
section
/-! DEFINITION. The operands of the commands: the input bytes, the payload bytes and bits, the frequency table, the
code of a symbol, and the node arena (30_encoding.md R93). -/

namespace Sys2Proof.Machine

/-- The 256 byte values in ascending order (00_scope.md R8). -/
def allBytes : List Byte := (List.range 256).map (BitVec.ofNat 8)

/-- Entry b of a table of 256 entries. -/
def tableAt {α : Type} (t : Vector α 256) (b : Byte) : α := t[b.toNat]'(b.isLt)

/-- The table whose entry b is `f b`. -/
def tableOf {α : Type} (f : Byte → α) : Vector α 256 := ⟨(allBytes.map f).toArray, by simp [allBytes]⟩

/-- A table with entry b replaced. -/
def tableSet {α : Type} (t : Vector α 256) (b : Byte) (v : α) : Vector α 256 := t.set b.toNat v (b.isLt)

/-- The present symbols of a frequency table, in ascending order (00_scope.md R17): of the byte values, each beside its
entry, those whose entry is not 0. -/
def presentSymbols (freq : Vector Word 256) : List Byte :=
  ((allBytes.zip freq.toList).filter (fun p => p.2 ≠ 0)).map (·.1)

/-- NSYM, the number of present symbols (10_state.md R32). -/
def nsym (freq : Vector Word 256) : Nat := (presentSymbols freq).length

/-- The bytes IN_MEM[0..IN_LEN-1], as one command reads them (20_memory.md R71). -/
def inputBytes (s : State) : List Byte := (readBytes s.inMem 0 s.inLen.toNat s.draws).1

/-- The state after a command has read its input: only free draws have been counted. -/
def afterInput (s : State) : State := { s with draws := (readBytes s.inMem 0 s.inLen.toNat s.draws).2 }

/-- The bytes PAY_MEM[0..PAY_LEN-1], as one command reads them (20_memory.md R71). -/
def payloadBytes (s : State) : List Byte := (readBytes s.payMem 0 s.payLen.toNat s.draws).1

/-- The state after a command has read the payload: only free draws have been counted. -/
def afterPayload (s : State) : State := { s with draws := (readBytes s.payMem 0 s.payLen.toNat s.draws).2 }

/-- Every input byte has been written since reset (70_reset_and_hazards.md R284). -/
abbrev InputWritten (s : State) : Prop := s.inMem.written 0 s.inLen.toNat = true

/-- Every payload byte has been written since reset (70_reset_and_hazards.md R284). -/
abbrev PayloadWritten (s : State) : Prop := s.payMem.written 0 s.payLen.toNat = true

/-- The bit sequence of a payload: every byte expanded to 8 bits, most significant first (43_bit_packer.md R172). -/
def expandBits (bytes : List Byte) : Bits := bytes.flatMap bitsOfByte

/-- The unpadded bit sequence pbit(0) .. pbit(L-1), L = 8*PAY_LEN - PAD (43_bit_packer.md R173). -/
def unpaddedBits (bytes : List Byte) (pad : Nat) : Bits := (expandBits bytes).take (8 * bytes.length - pad)

/-- CODE_LEN[b] as a number (10_state.md R40). -/
def codeLenAt (codeLen : Vector Byte 256) (b : Byte) : Nat := (tableAt codeLen b).toNat

/-- Symbol i of the code of b: bit 31 - (i mod 32) of word CODE_BITS[b][i div 32] (10_state.md R41). -/
def codeBitAt (codeBits : Vector (Vector Word 8) 256) (b : Byte) (i : Nat) : Bool :=
  ((tableAt codeBits b)[i / 32]?.getD 0).getLsbD (31 - i % 32)

/-- code(b): the bit string of length CODE_LEN[b] stored in CODE_BITS[b] (43_bit_packer.md R170). -/
def codeOf (s : State) (b : Byte) : Bits :=
  (List.range (codeLenAt s.codeLen b)).map (codeBitAt s.codeBits b)

/-- NODE[n]; an index past the last record reads as the all-zero record (10_state.md R50). -/
def nodeAt (node : Vector Node 511) (n : BitVec 9) : Node := node[n.toNat]?.getD .zero

end Sys2Proof.Machine
end

