-- ==== Sys2Proof/Machine/Flags.lean ====
section
/-! DEFINITION. The status register and the interrupt output: the STATUS word, error codes, and the two flag
updates a bus write makes (10_state.md R25, R26, R49, 20_memory.md R68). -/

namespace Sys2Proof.Machine

/-- The number of an error (60_exceptions.md R250). -/
def Err.code : Err → BitVec 4
  | .malformedContainer => 1
  | .invalidPadding => 2
  | .truncatedBitstream => 3
  | .emptyInput => 4
  | .illegalCommand => 5
  | .capacity => 6
  | .uncodedSymbol => 7
  | .noTree => 8

/-- ERRCODE: 0 (NONE) or the number of the error (60_exceptions.md R250). -/
def errcodeField : Option Err → BitVec 4
  | none => 0
  | some e => e.code

/-- STATUS.BUSY (10_state.md R47). -/
def busy (s : State) : Bool :=
  match s.engine with
  | .idle => false
  | .busy _ => true

/-- The STATUS word (10_state.md R25): bits 31..12 reserved, ERRCODE, LAST_OP, OVR, ERR, DONE, BUSY. -/
def statusWord (s : State) : Word :=
  (0 : BitVec 20) ++ errcodeField s.status.errcode ++ s.status.lastOp
    ++ BitVec.ofBool s.status.ovr ++ BitVec.ofBool s.status.err ++ BitVec.ofBool s.status.done
    ++ BitVec.ofBool (busy s)

/-- The irq output: STATUS.DONE and IRQ_EN.DONE_IE (10_state.md R49, 60_exceptions.md R260). -/
def irq (s : State) : Bool := s.status.done && s.irqEn

/-- A dropped write sets OVR (20_memory.md R68). -/
def setOvr (s : State) : State := { s with status := { s.status with ovr := true } }

/-- A host write of v to STATUS clears DONE when v[1] is 1 and does nothing else (10_state.md R26). -/
def writeStatus (v : Word) (s : State) : State := if v.getLsbD 1 then acknowledge s else s

/-- A write that is performed while IDLE and dropped, setting OVR, while BUSY (20_memory.md R68). -/
def whenIdle (s : State) (perform : State → State) : State := if busy s then setOvr s else perform s

end Sys2Proof.Machine
end

