-- ==== Sys2Proof/Machine/Bus.lean ====
section
/-! DEFINITION. Host transactions: the register page and the three windows (20_memory.md R60 to R69, 10_state.md
R22 to R50). -/

namespace Sys2Proof.Machine

/-! ## Register reads -/

/-- Word k of a NODE record (10_state.md R42). -/
def nodeWord (n : Node) (k : Fin 4) : Word :=
  match k with
  | 0 => BitVec.ofBool n.leaf ++ BitVec.ofBool n.used ++ (0 : BitVec 22) ++ n.sym
  | 1 => (0 : BitVec 7) ++ n.right ++ (0 : BitVec 7) ++ n.left
  | 2 => n.weight.extractLsb' 0 32
  | 3 => (0 : BitVec 24) ++ n.weight.extractLsb' 32 8

/-- The ID word (10_state.md R23). -/
def idWord : Word := 0x48554646

/-- What a register location holds, unnamed bits reading 0 (10_state.md R22 to R42, R50). CMD reads 0 (R24). -/
def regValue (s : State) : RegLoc → Word
  | .id => idWord
  | .cmd => 0
  | .status => statusWord s
  | .irqEn => (BitVec.ofBool s.irqEn).setWidth 32
  | .inLen => s.inLen
  | .payLen => s.payLen
  | .pad => s.pad.setWidth 32
  | .outLen => s.outLen
  | .nsym => BitVec.ofNat 32 (nsym s.freq)
  | .treeValid => (BitVec.ofBool s.treeValid).setWidth 32
  | .root => s.root.setWidth 32
  | .nnodes => s.nnodes.setWidth 32
  | .errInfo => s.errInfo
  | .inCap => BitVec.ofNat 32 s.params.inCap.val
  | .payCap => BitVec.ofNat 32 s.params.payCap.val
  | .outCap => BitVec.ofNat 32 s.params.outCap.val
  | .freq b => tableAt s.freq b
  | .codeLen b => (tableAt s.codeLen b).setWidth 32
  | .codeBits b w => (tableAt s.codeBits b)[w.val]
  | .node n k => nodeWord s.node[n.val] k
  | .reserved => 0

/-- The locations a read returns the normal value of even while BUSY (20_memory.md R69). -/
def stableWhileBusy : RegLoc → Bool
  | .id | .cmd | .status | .irqEn | .inCap | .payCap | .outCap | .reserved => true
  | .inLen | .payLen | .pad | .outLen | .nsym | .treeValid | .root | .nnodes | .errInfo => false
  | .freq _ | .codeLen _ | .codeBits _ _ | .node _ _ => false

/-- A read of a register location (20_memory.md R66, R69): its value, or a free draw while BUSY. The second part is
the number of draws made by then. -/
def readReg (s : State) (r : RegLoc) : Word × Nat :=
  if busy s && !stableWhileBusy r then (Config.freeWord s.draws, s.draws + 1) else (regValue s r, s.draws)

/-! ## Register writes -/

/-- A write of v to a register location (10_state.md R24 to R39, R50, 20_memory.md R66 to R68). -/
def writeReg (s : State) (r : RegLoc) (v : Word) : State :=
  match r with
  | .cmd => whenIdle s (accept v)
  | .status => writeStatus v s
  | .irqEn => { s with irqEn := v.getLsbD 0 }
  | .inLen => whenIdle s (fun s => { s with inLen := v })
  | .payLen => whenIdle s (fun s => { s with payLen := v })
  | .pad => whenIdle s (fun s => { s with pad := v.setWidth 8 })
  | .freq b => whenIdle s (fun s => { s with freq := tableSet s.freq b v, treeValid := false })
  | .id | .outLen | .nsym | .treeValid | .root | .nnodes | .errInfo | .inCap | .payCap | .outCap => s
  | .codeLen _ | .codeBits _ _ | .node _ _ | .reserved => s

/-! ## Window accesses -/

/-- A host read of one window byte after n draws: a free draw while BUSY (20_memory.md R69), 0 at or beyond the
capacity (R63), else the memory's byte (R72). Log 12: while BUSY a byte beyond the capacity is a free draw too. -/
def readWindowByte (isBusy : Bool) (m : Memory) (cap o n : Nat) : Byte × Nat :=
  if isBusy then (Config.freeByte n, n + 1)
  else if cap ≤ o then (0, n)
  else readByte m o n

/-- A host read of a window (20_memory.md R61, R63, R64): a byte in bits 7..0, or four bytes little-endian. -/
def readWindow (s : State) (m : Memory) (cap o : Nat) : Size → Word × Nat
  | .byte =>
    let b := readWindowByte (busy s) m cap o s.draws
    (b.1.setWidth 32, b.2)
  | .word =>
    let b0 := readWindowByte (busy s) m cap o s.draws
    let b1 := readWindowByte (busy s) m cap (o + 1) b0.2
    let b2 := readWindowByte (busy s) m cap (o + 2) b1.2
    let b3 := readWindowByte (busy s) m cap (o + 3) b2.2
    (wordLE b0.1 b1.1 b2.1 b3.1, b3.2)

/-- Writing the in-range bytes of a window access; the others are ignored (20_memory.md R63). -/
def Memory.writeInRange (cap : Nat) : Memory → Nat → List Byte → Memory
  | m, _, [] => m
  | m, o, b :: bs => Memory.writeInRange cap (if o < cap then m.write o b else m) (o + 1) bs

/-- The bytes a write carries: the low byte, or four bytes little-endian (20_memory.md R64, 30_encoding.md R95). -/
def writeData : Size → Word → List Byte
  | .byte, d => [d.extractLsb' 0 8]
  | .word, d => le32 d

/-! ## Transactions -/

/-- A transaction the bus refuses: a misaligned word, or a byte access to the register window (20_memory.md R62). -/
def refused (a : Addr) (size : Size) : Bool :=
  match size, decodeAddr a with
  | .word, _ => decide (a.toNat % 4 ≠ 0)
  | .byte, .reg _ => true
  | .byte, _ => false

/-- The data an accepted read returns, and the number of draws made by then (20_memory.md R60, R61). -/
def readLoc (s : State) (l : Loc) (size : Size) : Word × Nat :=
  match l with
  | .reg r => readReg s r
  | .inWin o => readWindow s s.inMem s.params.inCap.val o size
  | .outWin o => readWindow s s.outMem s.params.outCap.val o size
  | .payWin o => readWindow s s.payMem s.params.payCap.val o size

/-- The effect of an accepted write (20_memory.md R60, R64, R67, R68). Log 12. -/
def writeLoc (s : State) (l : Loc) (size : Size) (d : Word) : State :=
  match l with
  | .reg r => writeReg s r d
  | .inWin o => whenIdle s (fun s => { s with inMem := s.inMem.writeInRange s.params.inCap.val o (writeData size d) })
  | .outWin _ => s
  | .payWin o =>
    whenIdle s (fun s => { s with payMem := s.payMem.writeInRange s.params.payCap.val o (writeData size d) })

/-- One host transaction with its response (20_memory.md R61, R62). A write returns no data (log 10). While reset is asserted the block responds to
none (70_reset_and_hazards.md R280). -/
def transact (t : Txn) (s : State) : State :=
  if s.rst then { s with resp := none }
  else
    match t with
    | .read a size =>
      if refused a size then { s with resp := some ⟨some 0, true⟩ }
      else
        let r := readLoc s (decodeAddr a) size
        { s with draws := r.2, resp := some ⟨some r.1, false⟩ }
    | .write a size d =>
      if refused a size then { s with resp := some ⟨none, true⟩ }
      else { writeLoc s (decodeAddr a) size d with resp := some ⟨none, false⟩ }

end Sys2Proof.Machine
end

