-- ==== Sys2Proof/Machine/Clear.lean ====
section
/-! DEFINITION. CLEAR (40_command_dispatch.md R115). -/

namespace Sys2Proof.Machine

/-- CLEAR returns the datapath to its empty state (40_command_dispatch.md R115). IN_LEN, IRQ_EN and the memories
are kept. It cannot fail. -/
def cmdClear (s : State) : CmdResult :=
  .ok { s with
    freq := Vector.replicate 256 0
    codeLen := Vector.replicate 256 0
    codeBits := Vector.replicate 256 (Vector.replicate 8 0)
    node := Vector.replicate 511 .zero
    root := 0
    nnodes := 0
    treeValid := false
    outLen := 0
    payLen := 0
    pad := 0 }

/-- The CLEAR command: its rule, then completion (40_command_dispatch.md R115, R113). -/
def execClear (s : State) : Host.Outcome State Fault Refusal := .next (complete (cmdClear s))

end Sys2Proof.Machine
end

