-- ==== Sys2Proof/Machine/Container.lean ====
section
/-! DEFINITION. The Container Codec: SERIALIZE and PARSE (44_container_codec.md R190 to R194). -/

namespace Sys2Proof.Machine

/-! ## The container format -/

/-- The five bytes of an entry (44_container_codec.md R190). -/
def entryBytes (e : Entry) : List Byte := e.sym :: le32 e.count

/-- The bytes of a container (44_container_codec.md R190). -/
def containerBytes (c : Container) : List Byte :=
  le32 (BitVec.ofNat 32 c.table.length) ++ c.table.flatMap entryBytes ++ c.pad :: c.payload

/-- The byte value of an entry is not above that of the entry before it (44_container_codec.md R193). -/
def notAbove (b : Byte) : Option Byte → Bool
  | none => false
  | some prev => decide (b.toNat ≤ prev.toNat)

/-- The entries of a container table from offset `off` on, and the bytes after them (44_container_codec.md R193).
The last line is not reached: PARSE checks the length of the table first. -/
def parseEntries : (n off : Nat) → (prev : Option Byte) → List Byte → Except (Err × Nat) (List Entry × List Byte)
  | 0, _, _, bs => .ok ([], bs)
  | n + 1, off, prev, b :: c0 :: c1 :: c2 :: c3 :: rest =>
    if notAbove b prev then .error (.malformedContainer, off)
    else if wordLE c0 c1 c2 c3 = 0 then .error (.malformedContainer, off + 1)
    else
      match parseEntries n (off + 5) (some b) rest with
      | .ok (es, tail) => .ok (⟨b, wordLE c0 c1 c2 c3⟩ :: es, tail)
      | .error e => .error e
  | _ + 1, off, _, _ => .error (.malformedContainer, off)

/-- The pad byte and payload that follow a table of n entries, checked against it and against the payload
capacity; `poff` is the offset of the pad byte (44_container_codec.md R193). -/
def parsePayload (n poff payCap : Nat) (table : List Entry) (pad : Byte) (payload : List Byte) :
    Except (Err × Nat) Container :=
  if pad.toNat > 7 then .error (.invalidPadding, pad.toNat)
  else if n = 0 ∧ (payload.length ≠ 0 ∨ pad ≠ 0) then .error (.malformedContainer, poff)
  else if payload.length = 0 ∧ pad ≠ 0 then .error (.malformedContainer, poff)
  else if payload.length > payCap then .error (.capacity, payload.length)
  else .ok ⟨table, pad, payload⟩

/-- The checks of PARSE on a container's bytes, in the rule's order; an error carries its ERR_INFO
(44_container_codec.md R193, 60_exceptions.md R251). -/
def parseContainer (payCap : Nat) (bytes : List Byte) : Except (Err × Nat) Container :=
  match bytes with
  | b0 :: b1 :: b2 :: b3 :: rest =>
    let n := (wordLE b0 b1 b2 b3).toNat
    if n > 256 then .error (.malformedContainer, 0)
    else if bytes.length < 4 + 5 * n + 1 then .error (.malformedContainer, bytes.length)
    else
      match parseEntries n 4 none rest with
      | .error e => .error e
      | .ok (table, pad :: payload) => parsePayload n (4 + 5 * n) payCap table pad payload
      | .ok (_, []) => .error (.malformedContainer, bytes.length)
  | _ => .error (.malformedContainer, bytes.length)

/-- FREQ as a table of entries gives it: the count of the entry that names b, else 0 (44_container_codec.md
R193). -/
def freqOfTable (t : List Entry) : Vector Word 256 :=
  tableOf (fun b => ((t.find? (fun e => e.sym == b)).map (·.count)).getD 0)

/-- The table of entries of FREQ: the present symbols in ascending order (44_container_codec.md R191, R192). -/
def tableOfFreq (freq : Vector Word 256) : List Entry :=
  (presentSymbols freq).map (fun b => ⟨b, tableAt freq b⟩)

/-! ## SERIALIZE -/

/-- size: the bytes of the container of a state (44_container_codec.md R192). -/
def containerSize (s : State) : Nat := 4 + 5 * nsym s.freq + 1 + s.payLen.toNat

/-- The state SERIALIZE leaves once every check has passed (44_container_codec.md R192). -/
def serialized (s : State) : State :=
  { afterPayload s with
    outMem := s.outMem.writeBytes 0 (containerBytes ⟨tableOfFreq s.freq, s.pad, payloadBytes s⟩)
    outLen := BitVec.ofNat 32 (containerSize s) }

/-- SERIALIZE (44_container_codec.md R192). -/
def cmdSerialize (s : State) : CmdResult :=
  if s.pad.toNat > 7 then raise .invalidPadding s.pad.toNat s
  else if s.payLen.toNat > s.params.payCap.val then raise .capacity s.payLen.toNat s
  else if nsym s.freq = 0 ∧ (s.payLen ≠ 0 ∨ s.pad ≠ 0) then raise .malformedContainer 0 s
  else if s.payLen = 0 ∧ s.pad ≠ 0 then raise .malformedContainer 0 s
  else if containerSize s > s.params.outCap.val then raise .capacity (containerSize s) s
  else .ok (serialized s)

/-- The SERIALIZE command: its rule, then completion (44_container_codec.md R192, 40_command_dispatch.md R113). -/
def execSerialize (s : State) : Host.Outcome State Fault Refusal := .next (complete (cmdSerialize s))

/-! ## PARSE -/

/-- The commit of PARSE (44_container_codec.md R193). -/
def parsed (s : State) (c : Container) : State :=
  { s with
    freq := freqOfTable c.table
    treeValid := false
    pad := c.pad
    payMem := s.payMem.writeBytes 0 c.payload
    payLen := BitVec.ofNat 32 c.payload.length }

/-- PARSE (44_container_codec.md R193). -/
def cmdParse (s : State) : CmdResult :=
  if s.inLen.toNat > s.params.inCap.val then raise .capacity s.inLen.toNat s
  else
    match parseContainer s.params.payCap.val (inputBytes s) with
    | .error e => raise e.1 e.2 (afterInput s)
    | .ok c => .ok (parsed (afterInput s) c)

/-- The PARSE command: its rule, then completion (44_container_codec.md R193, 40_command_dispatch.md R113). -/
def execParse (s : State) : Host.Outcome State Fault Refusal := .next (complete (cmdParse s))

end Sys2Proof.Machine
end

