-- ==== Sys2Proof/Machine/Counter.lean ====
section
/-! DEFINITION. The Frequency Counter: COUNT (41_frequency_counter.md R130). -/

namespace Sys2Proof.Machine

/-- The frequency table of a byte sequence: FREQ[b] is the number of positions that hold b
(41_frequency_counter.md R130). -/
def countTable (bytes : List Byte) : Vector Word 256 := tableOf (fun b => BitVec.ofNat 32 (bytes.count b))

/-- COUNT (41_frequency_counter.md R130). -/
def cmdCount (s : State) : CmdResult :=
  if s.inLen.toNat > s.params.inCap.val then raise .capacity s.inLen.toNat s
  else .ok { afterInput s with freq := countTable (inputBytes s), treeValid := false }

/-- The COUNT command: its rule, then completion (41_frequency_counter.md R130, 40_command_dispatch.md R113). -/
def execCount (s : State) : Host.Outcome State Fault Refusal := .next (complete (cmdCount s))

end Sys2Proof.Machine
end

