-- ==== Sys2Proof/Machine/Decoder.lean ====
section
/-! DEFINITION. The Decoder State Machine: UNPACK (45_decoder.md R220 to R224). -/

namespace Sys2Proof.Machine

/-- WALK1, the machine of the single-leaf tree (45_decoder.md R222): `i` is the index of the next bit and `o` the
number of bytes emitted so far. The result is the bytes emitted from there on, or an error with its ERR_INFO. -/
def walk1 (sym : Byte) (outCap : Nat) : Bits → (i o : Nat) → Except (Err × Nat) (List Byte)
  | [], _, _ => .ok []
  | true :: _, i, _ => .error (.malformedContainer, i)
  | false :: bits, i, o =>
    if o = outCap then .error (.capacity, i)
    else
      match walk1 sym outCap bits (i + 1) (o + 1) with
      | .ok out => .ok (sym :: out)
      | .error e => .error e

/-- WALK, the Decoder State Machine (45_decoder.md R221, R223): state `st`, current node `cur`, index `start` of the
first bit of the codeword being read, index `i` of the next bit, and `o` bytes emitted so far. -/
def walk (node : Vector Node 511) (root : BitVec 9) (outCap : Nat) :
    Bits → (st : DecoderState) → (cur : BitVec 9) → (start i o : Nat) → Except (Err × Nat) (List Byte)
  | [], st, _, start, _, _ => if st = .descending then .error (.truncatedBitstream, start) else .ok []
  | b :: bits, st, cur, start, i, o =>
    let start := if st = .atRoot then i else start
    let cur := if b then (nodeAt node cur).right else (nodeAt node cur).left
    if (nodeAt node cur).leaf then
      if o = outCap then .error (.capacity, i)
      else
        match walk node root outCap bits .atRoot root start (i + 1) (o + 1) with
        | .ok out => .ok ((nodeAt node cur).sym :: out)
        | .error e => .error e
    else walk node root outCap bits .descending cur start (i + 1) o

/-- The machine UNPACK runs on the unpadded bits: WALK1 under a leaf root, else WALK (45_decoder.md R220). -/
def decodeBits (s : State) (bits : Bits) : Except (Err × Nat) (List Byte) :=
  if (nodeAt s.node s.root).leaf then walk1 (nodeAt s.node s.root).sym s.params.outCap.val bits 0 0
  else walk s.node s.root s.params.outCap.val bits .atRoot s.root 0 0 0

/-- OUT_MEM after an error in the walk: every byte unspecified, which is a memory nothing has written
(45_decoder.md R224). Log 5. -/
def afterWalkError (s : State) : State := { s with outMem := [] }

/-- The state UNPACK leaves after a walk that emitted `out` (45_decoder.md R220, R221). -/
def unpacked (s : State) (out : List Byte) : State :=
  { s with outMem := s.outMem.writeBytes 0 out, outLen := BitVec.ofNat 32 out.length }

/-- UNPACK (45_decoder.md R220). -/
def cmdUnpack (s : State) : CmdResult :=
  if s.pad.toNat > 7 then raise .invalidPadding s.pad.toNat s
  else if s.payLen.toNat > s.params.payCap.val then raise .capacity s.payLen.toNat s
  else if s.payLen = 0 ∧ s.pad ≠ 0 then raise .malformedContainer 0 s
  else if 8 * s.payLen.toNat - s.pad.toNat = 0 then .ok { s with outLen := 0 }
  else if s.treeValid = false then raise .noTree 0 s
  else
    match decodeBits s (unpaddedBits (payloadBytes s) s.pad.toNat) with
    | .error e => raise e.1 e.2 (afterWalkError (afterPayload s))
    | .ok out => .ok (unpacked (afterPayload s) out)

/-- The UNPACK command: its rule, then completion (45_decoder.md R220, 40_command_dispatch.md R113). -/
def execUnpack (s : State) : Host.Outcome State Fault Refusal := .next (complete (cmdUnpack s))

end Sys2Proof.Machine
end

