-- ==== Sys2Proof/Machine/Packer.lean ====
section
/-! DEFINITION. The Bit Packer: PACK (43_bit_packer.md R170, R171). -/

namespace Sys2Proof.Machine

/-- The smallest offset whose byte has no code, if there is one (43_bit_packer.md R170). -/
def firstUncoded (codeLen : Vector Byte 256) (bytes : List Byte) : Option Nat :=
  bytes.findIdx? (fun b => codeLenAt codeLen b == 0)

/-- total: the number of code bits of a byte sequence (43_bit_packer.md R170). -/
def totalBits (codeLen : Vector Byte 256) (bytes : List Byte) : Nat := (bytes.map (codeLenAt codeLen)).sum

/-- nbytes: the payload bytes a number of bits needs (43_bit_packer.md R170). -/
def bytesFor (total : Nat) : Nat := (total + 7) / 8

/-- PACKBITS: the bytes of a bit string padded with zeros (43_bit_packer.md R171). -/
def packBits (p : Bits) (nbytes : Nat) : List Byte := (List.range nbytes).map (byteOfBits p)

/-- s: the codes of a byte sequence, in order (43_bit_packer.md R170). -/
def codeBitsOf (s : State) (bytes : List Byte) : Bits := bytes.flatMap (codeOf s)

/-- The state PACK leaves once every check has passed (43_bit_packer.md R170). -/
def packed (s : State) (bytes : List Byte) : State :=
  let total := totalBits s.codeLen bytes
  let nbytes := bytesFor total
  { s with
    payMem := s.payMem.writeBytes 0 (packBits (codeBitsOf s bytes) nbytes)
    payLen := BitVec.ofNat 32 nbytes
    pad := BitVec.ofNat 8 (8 * nbytes - total) }

/-- PACK's checks on the bytes of a non-empty input, then its writes (43_bit_packer.md R170). -/
def packChecked (s : State) (bytes : List Byte) : CmdResult :=
  match firstUncoded s.codeLen bytes with
  | some j => raise .uncodedSymbol j s
  | none =>
    if bytesFor (totalBits s.codeLen bytes) > s.params.payCap.val then
      raise .capacity (bytesFor (totalBits s.codeLen bytes)) s
    else .ok (packed s bytes)

/-- PACK (43_bit_packer.md R170). -/
def cmdPack (s : State) : CmdResult :=
  if s.inLen.toNat > s.params.inCap.val then raise .capacity s.inLen.toNat s
  else if s.inLen = 0 then .ok { s with payLen := 0, pad := 0 }
  else if s.treeValid = false then raise .noTree 0 s
  else packChecked (afterInput s) (inputBytes s)

/-- The PACK command: its rule, then completion (43_bit_packer.md R170, 40_command_dispatch.md R113). -/
def execPack (s : State) : Host.Outcome State Fault Refusal := .next (complete (cmdPack s))

end Sys2Proof.Machine
end

