-- ==== Sys2Proof/Machine/Tree.lean ====
section
/-! DEFINITION. The Tree Builder: BUILD (42_tree_builder.md R140 to R147). The arena under construction is the list
of the records written so far, so that its length is the next index. -/

namespace Sys2Proof.Machine

/-- The leaf of a present symbol (42_tree_builder.md R141). -/
def leafNode (freq : Vector Word 256) (b : Byte) : Node :=
  { leaf := true, used := true, sym := b, left := 0, right := 0, weight := (tableAt freq b).setWidth 40 }

/-- SEED: one leaf per present symbol in ascending byte order, at indices from 0 (42_tree_builder.md R141). -/
def seed (freq : Vector Word 256) : List Node := (presentSymbols freq).map (leafNode freq)

/-- The weight of record i of an arena. -/
def weightAt (arena : List Node) (i : Nat) : BitVec 40 := (arena.getD i .zero).weight

/-- Record i comes before record j: smaller weight, then smaller index (42_tree_builder.md R142). -/
def keyBefore (arena : List Node) (i j : Nat) : Bool :=
  decide ((weightAt arena i).toNat < (weightAt arena j).toNat)
    || (decide ((weightAt arena i).toNat = (weightAt arena j).toNat) && decide (i < j))

/-- SELECT: the element of Q least by (weight, index) (42_tree_builder.md R142). Q is never empty where the rule
selects; an empty Q gives 0. -/
def select (arena : List Node) : List Nat → Nat
  | [] => 0
  | i :: q => q.foldl (fun best j => if keyBefore arena j best then j else best) i

/-- MERGE: the new internal node, whose first child is the node extracted first (42_tree_builder.md R143). -/
def mergeNode (arena : List Node) (a c : Nat) : Node :=
  { leaf := false, used := true, sym := 0, left := BitVec.ofNat 9 a, right := BitVec.ofNat 9 c,
    weight := weightAt arena a + weightAt arena c }

/-- The loop of BUILD: while |Q| >= 2, extract two and merge (42_tree_builder.md R140). It runs exactly NSYM - 1
times, which is the bound it is given. -/
def mergeLoop : Nat → List Node → List Nat → List Node × List Nat
  | 0, arena, q => (arena, q)
  | k + 1, arena, q =>
    if 2 ≤ q.length then
      let a := select arena q
      let q1 := q.erase a
      let c := select arena q1
      let q2 := q1.erase c
      mergeLoop k (arena ++ [mergeNode arena a c]) (q2 ++ [arena.length])
    else (arena, q)

/-- The finished arena and the set Q that remains (42_tree_builder.md R140, R144). -/
def builtArena (freq : Vector Word 256) : List Node × List Nat :=
  mergeLoop (nsym freq - 1) (seed freq) (List.range (nsym freq))

/-- CODES, general case: the codes of the leaves below record m, whose code is `path`: "0" to the first child, "1" to
the second (42_tree_builder.md R145). The bound is the number of records, more than any depth. -/
def pathCodes (arena : List Node) : Nat → Nat → Bits → List (Byte × Bits)
  | 0, _, _ => []
  | k + 1, m, path =>
    let nd := arena.getD m .zero
    if nd.leaf then [(nd.sym, path)]
    else pathCodes arena k nd.left.toNat (path ++ [false]) ++ pathCodes arena k nd.right.toNat (path ++ [true])

/-- The single element of Q when the loop has ended: the root (42_tree_builder.md R144). -/
def rootOf (q : List Nat) : Nat := q.headD 0

/-- CODES: the code of every present symbol (42_tree_builder.md R145), with the one-bit code "0" for a single
symbol (R146). -/
def codeList (freq : Vector Word 256) : List (Byte × Bits) :=
  let built := builtArena freq
  if nsym freq = 1 then [((built.1.getD 0 .zero).sym, [false])]
  else pathCodes built.1 built.1.length (rootOf built.2) []

/-- The code a list of codes gives a byte value, if it has one. -/
def lookupCode (codes : List (Byte × Bits)) (b : Byte) : Option Bits :=
  (codes.find? (fun e => e.1 == b)).map (·.2)

/-- The eight words of a code (10_state.md R41). -/
def packCode (c : Bits) : Vector Word 8 := ⟨((List.range 8).map (wordOfBits c)).toArray, by simp⟩

/-- The CODE_LEN entry of a byte value (42_tree_builder.md R147): 0 means no code. -/
def codeLenEntry (codes : List (Byte × Bits)) (b : Byte) : Byte :=
  match lookupCode codes b with
  | some c => BitVec.ofNat 8 c.length
  | none => 0

/-- The CODE_BITS entry of a byte value (42_tree_builder.md R147). -/
def codeBitsEntry (codes : List (Byte × Bits)) (b : Byte) : Vector Word 8 :=
  match lookupCode codes b with
  | some c => packCode c
  | none => Vector.replicate 8 0

/-- Everything BUILD derives from a frequency table with a present symbol (42_tree_builder.md R140 to R147). -/
def buildTree (freq : Vector Word 256) : TreeTables :=
  let built := builtArena freq
  let codes := codeList freq
  { node := ⟨((List.range 511).map (fun n => built.1.getD n .zero)).toArray, by simp⟩
    root := BitVec.ofNat 9 (rootOf built.2)
    nnodes := BitVec.ofNat 10 built.1.length
    codeLen := tableOf (codeLenEntry codes)
    codeBits := tableOf (codeBitsEntry codes) }

/-- The state with a tree installed (42_tree_builder.md R140, last line, and R144, R147). -/
def installTree (s : State) (t : TreeTables) : State :=
  { s with
    node := t.node
    root := t.root
    nnodes := t.nnodes
    codeLen := t.codeLen
    codeBits := t.codeBits
    treeValid := true }

/-- BUILD (42_tree_builder.md R140). -/
def cmdBuild (s : State) : CmdResult :=
  if nsym s.freq = 0 then raise .emptyInput 0 s else .ok (installTree s (buildTree s.freq))

/-- The BUILD command: its rule, then completion (42_tree_builder.md R140, 40_command_dispatch.md R113). -/
def execBuild (s : State) : Host.Outcome State Fault Refusal := .next (complete (cmdBuild s))

end Sys2Proof.Machine
end

