-- ==== Sys2Proof/Machine/Composite.lean ====
section
/-! DEFINITION. The composite commands: ENCODE and DECODE (46_composite.md R240, R241, 60_exceptions.md R255). -/

namespace Sys2Proof.Machine

/-- BUILD as a sub-command: skipped when there is no present symbol (46_composite.md R240, R241). -/
def buildIfAny (s : State) : CmdResult := if nsym s.freq ≠ 0 then cmdBuild s else .ok s

/-- ENCODE: COUNT, BUILD, PACK, SERIALIZE (46_composite.md R240). -/
def cmdEncode (s : State) : CmdResult :=
  (((cmdCount s).andThen buildIfAny).andThen cmdPack).andThen cmdSerialize

/-- The ENCODE command: its rule, then completion (46_composite.md R240, 40_command_dispatch.md R113). -/
def execEncode (s : State) : Host.Outcome State Fault Refusal := .next (complete (cmdEncode s))

/-- DECODE: PARSE, BUILD, UNPACK (46_composite.md R241). -/
def cmdDecode (s : State) : CmdResult := ((cmdParse s).andThen buildIfAny).andThen cmdUnpack

/-- The DECODE command: its rule, then completion (46_composite.md R241, 40_command_dispatch.md R113). -/
def execDecode (s : State) : Host.Outcome State Fault Refusal := .next (complete (cmdDecode s))

end Sys2Proof.Machine
end

