-- ==== Sys2Proof/Machine/Agents.lean ====
section
/-! DEFINITION. The two agents and the reset line (00_scope.md R18, 40_command_dispatch.md R112,
30_encoding.md R96, 70_reset_and_hazards.md R280). -/

namespace Sys2Proof.Machine

/-! ## The engine -/

/-- An illegal command word completes with ILLEGAL_COMMAND and the word as ERR_INFO, before any other state is read
or written (40_command_dispatch.md R114, 30_encoding.md R92). -/
def illegalWord (w : Word) (s : State) : State := complete (raise .illegalCommand w.toNat s)

/-- The engine's step: while BUSY it decodes PENDING and executes the command to its completion
(40_command_dispatch.md R112, R114). While IDLE, or while reset is asserted, it has no step. -/
def engineStep (s : State) : Host.Outcome State Fault Refusal :=
  if s.rst then .next s
  else
    match s.engine with
    | .idle => .next s
    | .busy w =>
      match decodeWord w with
      | .ok i => exec i s
      | .error _ => .next (illegalWord w s)

/-! ## The host program -/

/-- The host goes on to its next statement. -/
def HostState.advance (h : HostState) : HostState := { h with next := h.next + 1 }

/-- A scratch variable (30_encoding.md R96). -/
def HostState.reg (h : HostState) (r : Scratch) : Word := h.regs[r.val]

/-- A host read statement: the transaction, then rX takes the data it returned (30_encoding.md R96). -/
def hostRead (r : Scratch) (t : Txn) (s : State) : State :=
  let s1 := transact t s
  let data := (s1.resp.bind (·.rdata)).getD 0
  { s1 with host := { s1.host.advance with regs := s1.host.regs.set r.val data } }

/-- A host write statement. -/
def hostWrite (t : Txn) (s : State) : State :=
  let s1 := transact t s
  { s1 with host := s1.host.advance }

/-- A host branch: to `target` when the condition holds, else to the next statement (30_encoding.md R96). -/
def hostBranch (taken : Bool) (target : Nat) (s : State) : State :=
  { s with host := if taken then { s.host with next := target } else s.host.advance }

/-- One statement of the host (30_encoding.md R96). -/
def runStmt : HostStmt → State → State
  | .wr32 a v, s => hostWrite (.write a .word v) s
  | .wr8 a v, s => hostWrite (.write a .byte (v.setWidth 32)) s
  | .rd32 r a, s => hostRead r (.read a .word) s
  | .rd8 r a, s => hostRead r (.read a .byte) s
  | .bnz r m t, s => hostBranch (decide (s.host.reg r &&& m ≠ 0)) t s
  | .bz r m t, s => hostBranch (decide (s.host.reg r &&& m = 0)) t s
  | .halt, s => s

/-- The host program's turn: it runs its next statement. It has nothing to do at HALT, past its end (log 13), or
while reset is asserted, when it must not issue a transaction (70_reset_and_hazards.md R280). -/
def hostStep (s : State) : State :=
  if s.rst then s
  else
    match s.host.prog[s.host.next]? with
    | some stmt => runStmt stmt s
    | none => s

/-! ## Events -/

/-- One event of the environment. -/
def eventStep (e : Event) (s : State) : Host.Outcome State Fault Refusal :=
  match e with
  | .bus t => .next (transact t s)
  | .hostTurn => .next (hostStep s)
  | .engineTurn => engineStep s
  | .assertReset => .next (assertReset s)
  | .releaseReset => .next (releaseReset s)

/-- What happens when the environment's script is empty: the engine completes a pending command (weak fairness,
70_reset_and_hazards.md R292), else the host program goes on. Log 2. -/
def defaultStep (s : State) : Host.Outcome State Fault Refusal :=
  if busy s then engineStep s else .next (hostStep s)

/-- The word placed where the engine takes its next command: reset is not asserted, the word is accepted, and the
very next event is the engine's. Log 14. -/
def placeCommand (w : Word) (s : State) : State :=
  { accept w s with rst := false, script := .engineTurn :: s.script }

end Sys2Proof.Machine
end

