-- ==== Sys2Proof/Machine/Step.lean ====
section
/-! DEFINITION. One step of the machine: the next event of the script, or, when the script is empty, what goes on by
itself (20_memory.md R73, 40_command_dispatch.md R112). -/

namespace Sys2Proof.Machine

/-- One step. -/
def step (s : State) : Host.Outcome State Fault Refusal :=
  match s.script with
  | e :: rest => eventStep e { s with script := rest }
  | [] => defaultStep s

/-- The state with a command word accepted and about to be executed. The command word of a table row is the low 32
bits of its number. Log 14. -/
def State.withFetchWord (s : State) (nbits w : Nat) : State :=
  placeCommand (BitVec.ofNat 32 (w % 2 ^ nbits)) s

end Sys2Proof.Machine
end

