-- ==== Sys2Proof/Machine/Assembler.lean ====
section
/-! DEFINITION. The host assembler: pseudo-instructions and label resolution (30_encoding.md R96 to R101). -/

namespace Sys2Proof.Machine

/-- Symbolic addresses (30_encoding.md R97). -/
def symCmd : Addr := (Loc.reg .cmd).addr
def symStatus : Addr := (Loc.reg .status).addr
def symInLen : Addr := (Loc.reg .inLen).addr
def symPayLen : Addr := (Loc.reg .payLen).addr
def symIn (o : Nat) : Addr := (Loc.inWin o).addr
def symPay (o : Nat) : Addr := (Loc.payWin o).addr

/-- The status mask BUSY (30_encoding.md R97). -/
def maskBusy : Word := 0x1

/-- The status mask DONE (30_encoding.md R97). -/
def maskDone : Word := 0x2

/-- The status mask ERR (30_encoding.md R97). -/
def maskErr : Word := 0x4

/-- The status mask OVR (30_encoding.md R97). -/
def maskOvr : Word := 0x8

/-- One byte write per byte, in ascending order from an offset (30_encoding.md R100). Log 15. For more than 2^24 bytes the
addresses leave the window (log 20). -/
def writesFrom (window : Nat → Addr) : Nat → List Byte → List HostStmt
  | _, [] => []
  | o, b :: bs => .wr8 (window o) b :: writesFrom window (o + 1) bs

/-- How many statements a line expands to. -/
def lineSize : AsmLine → Nat
  | .label _ => 0
  | .wait => 2
  | .loadin bs => bs.length + 1
  | .loadpay bs => bs.length + 1
  | .wr32 _ _ | .wr8 _ _ | .rd32 _ _ | .rd8 _ _ | .bnz _ _ _ | .bz _ _ _ | .halt => 1
  | .command _ | .cmdw _ | .ack => 1

/-- The statement index of a label in a source whose first line starts at statement `at_`. -/
def labelIndex (l : Nat) : Nat → List AsmLine → Option Nat
  | _, [] => none
  | at_, line :: rest => if line = .label l then some at_ else labelIndex l (at_ + lineSize line) rest

/-- The statements a line at statement `at_` expands to (30_encoding.md R96 to R101); none where it branches to a
label the source does not define. -/
def expandLine (source : List AsmLine) (at_ : Nat) : AsmLine → Option (List HostStmt)
  | .label _ => some []
  | .wr32 a v => some [.wr32 a v]
  | .wr8 a v => some [.wr8 a v]
  | .rd32 r a => some [.rd32 r a]
  | .rd8 r a => some [.rd8 r a]
  | .bnz r m l => (labelIndex l 0 source).map (fun t => [.bnz r m t])
  | .bz r m l => (labelIndex l 0 source).map (fun t => [.bz r m t])
  | .halt => some [.halt]
  | .command i => some [.wr32 symCmd (encode i)]
  | .cmdw w => some [.wr32 symCmd w]
  | .wait => some [.rd32 7 symStatus, .bnz 7 maskBusy at_]
  | .loadin bs => some (writesFrom symIn 0 bs ++ [.wr32 symInLen (BitVec.ofNat 32 bs.length)])
  | .loadpay bs => some (writesFrom symPay 0 bs ++ [.wr32 symPayLen (BitVec.ofNat 32 bs.length)])
  | .ack => some [.wr32 symStatus maskDone]

/-- The lines of a source from statement `at_` on, expanded. -/
def expandLines (source : List AsmLine) : Nat → List AsmLine → Option (List HostStmt)
  | _, [] => some []
  | at_, line :: rest =>
    match expandLine source at_ line, expandLines source (at_ + lineSize line) rest with
    | some a, some b => some (a ++ b)
    | _, _ => none

/-- The host program of a source (30_encoding.md R96); none where a label is not defined. -/
def assemble (source : List AsmLine) : Option (List HostStmt) := expandLines source 0 source

end Sys2Proof.Machine
end

