-- ==== Sys2Proof/Safety.lean ====
section
/-! DEFINITION. What counts as a safe run, the invariants of the machine, and the words the claims are stated in. -/

namespace Sys2Proof.Machine

/-! ## Safe runs -/

/-- A run that never stops: after any number of steps there is a state (40_command_dispatch.md R112: no command stalls;
60_exceptions.md R256: the block never terminates anything). -/
def SafeRun (s : State) : Prop := ∀ k, ∃ t, core.run k s = .next t

/-! ## Invariants -/

/-- The three byte memories are in canonical form and inside their capacities (10_state.md R44 to R46). -/
abbrev MemInv (s : State) : Prop :=
  (s.inMem.wf ∧ s.inMem.below s.params.inCap.val) ∧ (s.payMem.wf ∧ s.payMem.below s.params.payCap.val)
    ∧ s.outMem.wf ∧ s.outMem.below s.params.outCap.val

/-- OUT_LEN never exceeds OUT_CAP (10_state.md R31). -/
abbrev LenInv (s : State) : Prop := s.outLen.toNat ≤ s.params.outCap.val

/-- The status fields agree with each other and with ENGINE and ERR_INFO (10_state.md R25, R36,
40_command_dispatch.md R110, R113): ERR is 1 exactly when ERRCODE is not 0; an IDLE block that reports no error has
ERR_INFO 0; while BUSY neither DONE nor ERR is set and LAST_OP is bits 3..0 of PENDING. -/
abbrev StatusInv (s : State) : Prop :=
  (s.status.err = true ↔ s.status.errcode ≠ none)
    ∧ (s.engine = .idle → s.status.err = false → s.errInfo = 0)
    ∧ ∀ w, s.engine = .busy w → s.status.done = false ∧ s.status.err = false ∧ s.status.lastOp = fieldOp w

/-- The tree and code tables of a state. -/
def treeTables (s : State) : TreeTables := ⟨s.node, s.root, s.nnodes, s.codeLen, s.codeBits⟩

/-- While TREE_VALID is 1, the tables are the ones BUILD derives from the current FREQ (10_state.md R33). -/
abbrev TreeInv (s : State) : Prop := s.treeValid = true → nsym s.freq ≠ 0 ∧ treeTables s = buildTree s.freq

/-- The invariants together. -/
structure Inv (s : State) : Prop where
  mem    : MemInv s
  len    : LenInv s
  status : StatusInv s
  tree   : TreeInv s

/-! ## Completions -/

/-- The command started in s ended in t without an error: what completion writes (40_command_dispatch.md R113). -/
def Succeeded (s t : State) : Prop :=
  t.engine = .idle ∧ t.errInfo = 0
    ∧ t.status = { errcode := none, lastOp := s.status.lastOp, ovr := s.status.ovr, err := false, done := true }

/-- The command started in s ended in t with error e and information value info (40_command_dispatch.md R113). -/
def FailedWith (e : Err) (info : Nat) (s t : State) : Prop :=
  t.engine = .idle ∧ t.errInfo.toNat = info
    ∧ t.status = { errcode := some e, lastOp := s.status.lastOp, ovr := s.status.ovr, err := true, done := true }

/-- t differs from s at most in STATUS, ENGINE and ERR_INFO, and in the model's count of free draws
(60_exceptions.md R252). -/
def OnlyStatusChanged (s t : State) : Prop :=
  t = { s with engine := t.engine, status := t.status, errInfo := t.errInfo, draws := t.draws }

/-- The command i, started in s, fails with e and info and changes nothing but STATUS and ERR_INFO
(60_exceptions.md R252). -/
def FailsCleanly (i : Instr) (e : Err) (info : Nat) (s : State) : Prop :=
  ∃ t, exec i s = .next t ∧ FailedWith e info s t ∧ OnlyStatusChanged s t

/-- The bytes `bytes` stand written at the start of a memory. -/
def Holds (m : Memory) (bytes : List Byte) : Prop := ∀ k (h : k < bytes.length), m.read k = some bytes[k]

/-- A memory reads as before from offset n on. -/
def SameFrom (n : Nat) (m m' : Memory) : Prop := ∀ a, n ≤ a → m'.read a = m.read a

/-- The transaction of this size at this address is one the bus refuses: a misaligned word, or a byte access to the
register window, which is the lowest 2^24 addresses (20_memory.md R60, R62). -/
def Refusable (a : Addr) (size : Size) : Prop :=
  size = .word ∧ a.toNat % 4 ≠ 0 ∨ size = .byte ∧ a.toNat < 0x1000000

/-- A transaction ended in t, answered ok (`err` false) or err, and t is u but for the response. Whatever RDATA the
response holds is left free: a write returns no data (20_memory.md R61, log 10). -/
def Answered (err : Bool) (t u : State) : Prop := ∃ v, t = { u with resp := some ⟨v, err⟩ }

/-! ## A container in the input -/

/-- The byte at an offset of a container (0 past its end). -/
def byteAt (bytes : List Byte) (k : Nat) : Byte := bytes.getD k 0

/-- The little-endian word at an offset of a container (44_container_codec.md R190). -/
def wordAt (bytes : List Byte) (k : Nat) : Word :=
  wordLE (byteAt bytes k) (byteAt bytes (k + 1)) (byteAt bytes (k + 2)) (byteAt bytes (k + 3))

/-- The byte value of entry e is not above the one before it (44_container_codec.md R193). -/
def EntryNotAbove (bytes : List Byte) (e : Nat) : Prop :=
  0 < e ∧ (byteAt bytes (4 + 5 * e)).toNat ≤ (byteAt bytes (4 + 5 * (e - 1))).toNat

/-- The count of entry e is 0 (44_container_codec.md R193). -/
def EntryZero (bytes : List Byte) (e : Nat) : Prop := wordAt bytes (4 + 5 * e + 1) = 0

/-- Every entry before entry e passes PARSE's checks (44_container_codec.md R193). -/
def EntriesPass (bytes : List Byte) (e : Nat) : Prop :=
  ∀ d, d < e → ¬EntryNotAbove bytes d ∧ ¬EntryZero bytes d

/-! ## The tree as the rules speak of it -/

/-- The child a bit leads to: 0 to the first child, 1 to the second (42_tree_builder.md R145, 45_decoder.md R221). -/
def child (node : Vector Node 511) (n : BitVec 9) (b : Bool) : BitVec 9 :=
  if b then (nodeAt node n).right else (nodeAt node n).left

/-- The node a path leads to. -/
def follow (node : Vector Node 511) (n : BitVec 9) (path : Bits) : BitVec 9 := path.foldl (child node) n

/-- Record n of the arena, by number; past the last record, the all-zero record. -/
def recordAt (node : Vector Node 511) (n : Nat) : Node := node[n]?.getD .zero

/-- Record i is live when record m is about to be written: it is there, and no record before m has it as a child
(42_tree_builder.md R140, the set Q). -/
def Live (node : Vector Node 511) (m i : Nat) : Prop :=
  i < m ∧ ∀ j, j < m → (recordAt node j).leaf = false →
    (recordAt node j).left.toNat ≠ i ∧ (recordAt node j).right.toNat ≠ i

/-- Record i comes before record j in the order of SELECT (42_tree_builder.md R142). -/
def Before (node : Vector Node 511) (i j : Nat) : Prop :=
  (recordAt node i).weight.toNat < (recordAt node j).weight.toNat
    ∨ (recordAt node i).weight.toNat = (recordAt node j).weight.toNat ∧ i < j

end Sys2Proof.Machine
end

