-- ==== Sys2Proof/Certificates/Slice0/Obligations.lean ====
section
/-! DEFINITION. The statements for the provers. Each docstring names the rules of spec/ it formalises. -/

open Sys2Proof Sys2Proof.Machine

/-! ## Encoding and the address map -/

/-- R91, R92: words of the opcode map decode to their commands, and words outside it are refused by name. -/
def Obligations.OpcodeMapWordsDecode : Prop :=
  decodeWord 0x00000001 = .ok .clear ∧ decodeWord 0x00000002 = .ok .count ∧ decodeWord 0x00000003 = .ok .build
    ∧ decodeWord 0x00000004 = .ok .pack ∧ decodeWord 0x00000005 = .ok .serialize
    ∧ decodeWord 0x00000006 = .ok .parse ∧ decodeWord 0x00000007 = .ok .unpack
    ∧ decodeWord 0x00000008 = .ok .encode ∧ decodeWord 0x00000009 = .ok .decode
    ∧ decodeWord 0x00000000 = .error .reservedOp ∧ decodeWord 0x0000000A = .error .reservedOp
    ∧ decodeWord 0x0000000F = .error .reservedOp ∧ decodeWord 0x00000012 = .error .reservedBits
    ∧ decodeWord 0xFFFFFFFF = .error .reservedBits

/-- R91, R90: decoding and encoding agree on all 2^32 words: a word selects a command exactly when it is that command's
word of the opcode map, and the words that select one are exactly those with RSV = 0 and OP in 1..9. -/
def Obligations.DecodeEncodeAgree : Prop :=
  (∀ (w : Word) (i : Instr), decodeWord w = .ok i ↔ w = encode i)
    ∧ (∀ w : Word, (∃ i, decodeWord w = .ok i) ↔ LegalWord w)
    ∧ encode .clear = 0x00000001 ∧ encode .count = 0x00000002 ∧ encode .build = 0x00000003
    ∧ encode .pack = 0x00000004 ∧ encode .serialize = 0x00000005 ∧ encode .parse = 0x00000006
    ∧ encode .unpack = 0x00000007 ∧ encode .encode = 0x00000008 ∧ encode .decode = 0x00000009

/-- R22, R60, R61, R95, R97: a transaction survives Format BUS, whose SIZE 0 is one byte and whose WE 1 is a write. The
registers and tables stand at the offsets of R22 and R97, every named location is word aligned, its symbolic address is its
offset in the register window, and that address decodes back to it; every offset of a byte window decodes back to it. -/
def Obligations.BusAndAddressFormatsRoundTrip : Prop :=
  ((∀ t : Txn, decodeBus (encodeBus t) = t)
    ∧ ∀ (a : Addr) (d : Word),
      decodeBus ⟨a, 0, 0, d⟩ = .read a .byte ∧ decodeBus ⟨a, 1, 0, d⟩ = .read a .word
        ∧ decodeBus ⟨a, 0, 1, d⟩ = .write a .byte d ∧ decodeBus ⟨a, 1, 1, d⟩ = .write a .word d)
    ∧ ([RegLoc.id, .cmd, .status, .irqEn, .inLen, .payLen, .pad, .outLen, .nsym, .treeValid, .root, .nnodes, .errInfo,
          .inCap, .payCap, .outCap].map RegLoc.offset
        = [0x0000, 0x0004, 0x0008, 0x000C, 0x0010, 0x0014, 0x0018, 0x001C, 0x0020, 0x0024, 0x0028, 0x002C, 0x0030,
          0x0034, 0x0038, 0x003C]
      ∧ (∀ b, (RegLoc.freq b).offset = 0x0400 + 4 * b.toNat ∧ (RegLoc.codeLen b).offset = 0x0800 + 4 * b.toNat)
      ∧ (∀ b w, (RegLoc.codeBits b w).offset = 0x1000 + 32 * b.toNat + 4 * w.val)
      ∧ ∀ n k, (RegLoc.node n k).offset = 0x4000 + 16 * n.val + 4 * k.val)
    ∧ (∀ r : RegLoc, r ≠ .reserved →
      r.offset % 4 = 0 ∧ r.offset < 0x10000 ∧ (Loc.reg r).addr.toNat = r.offset
        ∧ decodeAddr (Loc.reg r).addr = .reg r)
    ∧ ∀ o, o < 2 ^ 24 →
      (decodeAddr (Loc.inWin o).addr = .inWin o ∧ (Loc.inWin o).addr.toNat = 0x1000000 + o)
        ∧ (decodeAddr (Loc.outWin o).addr = .outWin o ∧ (Loc.outWin o).addr.toNat = 0x2000000 + o)
        ∧ (decodeAddr (Loc.payWin o).addr = .payWin o ∧ (Loc.payWin o).addr.toNat = 0x3000000 + o)

/-- R50: an aligned address of the register window that no named location has reads 0 and ignores writes, with
response ok and no effect on OVR, whether the engine is IDLE or BUSY. (Nothing is said of the RDATA of a write.) -/
def Obligations.ReservedOffsetsReadZeroIgnoreWrites : Prop :=
  ∀ (s : State) (a : Addr) (d : Word),
    s.rst = false → a.toNat < 0x1000000 → a.toNat % 4 = 0 → (∀ r : RegLoc, r ≠ .reserved → r.offset ≠ a.toNat) →
    transact (.read a .word) s = { s with resp := some ⟨some 0, false⟩ }
      ∧ Answered false (transact (.write a .word d) s) s

/-! ## Steps, progress, reset -/

/-- R112, R114: the engine's step runs the decoded pending command; a step adds only that the event is taken from the
script. A command placed by withFetchWord is run by the very next step. -/
def Obligations.StepRunsPendingCommand : Prop :=
  (∀ (s : State) (w : Word) (i : Instr) (rest : List Event),
    s.rst = false → s.engine = .busy w → decodeWord w = .ok i →
    (s.script = .engineTurn :: rest → step s = exec i { s with script := rest })
      ∧ (s.script = [] → step s = exec i s))
    ∧ ∀ (s : State) (i : Instr),
      step (s.withFetchWord 32 (encode i).toNat) = exec i { accept (encode i) s with rst := false }

/-- R92, R114: a pending word that is no command completes with ILLEGAL_COMMAND and the word as ERR_INFO, and changes
no other state. -/
def Obligations.IllegalWordCompletesWithError : Prop :=
  ∀ (s : State) (w : Word) (rest : List Event),
    s.rst = false → s.engine = .busy w → ¬LegalWord w → s.script = .engineTurn :: rest →
    ∃ t, step s = .next t ∧ FailedWith .illegalCommand w.toNat s t
      ∧ t = { s with engine := t.engine, status := t.status, errInfo := t.errInfo, script := rest }

/-- R112, R256: no step of any state stops, so every run goes on: the machine never faults and never refuses. -/
def Obligations.EveryRunIsSafe : Prop := ∀ s : State, SafeRun s

/-- R112, R292: unless reset intervenes, an accepted command completes: within as many steps as the script has events,
plus one, the engine is IDLE with DONE set. -/
def Obligations.AcceptedCommandCompletes : Prop :=
  ∀ (s : State) (w : Word),
    s.rst = false → s.engine = .busy w → .assertReset ∉ s.script →
    ∃ k t, k ≤ s.script.length + 1 ∧ core.run k s = .next t ∧ t.engine = .idle ∧ t.status.done = true

/-- R280, R281, R282: releasing reset, also while a command runs, gives every register, table and engine field its reset
value: the command is abandoned, DONE is 0, irq is 0, every memory byte is never-written. The capacities, the host and the
rest of the script are kept. -/
def Obligations.ReleaseOfResetGivesResetValues : Prop :=
  ∀ (s : State) (rest : List Event),
    s.rst = true → s.script = .releaseReset :: rest →
    ∃ t, step s = .next t ∧ t.rst = false ∧ t.engine = .idle ∧ statusWord t = 0 ∧ t.irqEn = false ∧ t.inLen = 0
      ∧ t.payLen = 0 ∧ t.pad = 0 ∧ t.outLen = 0 ∧ t.treeValid = false ∧ t.root = 0 ∧ t.nnodes = 0 ∧ t.errInfo = 0
      ∧ (∀ b, tableAt t.freq b = 0) ∧ nsym t.freq = 0 ∧ (∀ b, tableAt t.codeLen b = 0)
      ∧ (∀ b (w : Fin 8), (tableAt t.codeBits b)[w.val] = 0) ∧ (∀ n : Fin 511, t.node[n.val] = .zero)
      ∧ irq t = false ∧ (∀ a, t.inMem.read a = none ∧ t.payMem.read a = none ∧ t.outMem.read a = none)
      ∧ t.params = s.params ∧ t.host = s.host ∧ t.script = rest

/-- R280, R282: while reset is asserted no event but its release changes the block: every transaction gets no response, the
engine has no step, and the host program waits, also when the script is empty. That the registers keep their old values until
the release is the model's choice (log 9). -/
def Obligations.AssertedResetHoldsTheBlock : Prop :=
  (∀ (s : State) (e : Event) (rest : List Event),
    s.rst = true → e ≠ .releaseReset → s.script = e :: rest →
    ((∃ x, e = .bus x) → step s = .next { s with script := rest, resp := none })
      ∧ ((¬∃ x, e = .bus x) → step s = .next { s with script := rest }))
    ∧ ∀ s : State, s.rst = true → s.script = [] → step s = .next s

/-! ## Host transactions -/

/-- R62, R257: a refused transaction changes nothing and answers err, and a read then returns 0; every other transaction
answers ok. (Nothing is said of the RDATA of a write.) -/
def Obligations.RefusedTransactionsChangeNothing : Prop :=
  ∀ (s : State) (a : Addr) (size : Size) (d : Word),
    s.rst = false →
    (Refusable a size →
      transact (.read a size) s = { s with resp := some ⟨some 0, true⟩ }
        ∧ Answered true (transact (.write a size d) s) s)
      ∧ (¬Refusable a size →
        (∃ v, (transact (.read a size) s).resp = some ⟨some v, false⟩)
          ∧ ∃ v, (transact (.write a size d) s).resp = some ⟨v, false⟩)

/-- R110, R111: a CMD write while IDLE accepts the word, and irq falls to 0; a CMD write while BUSY is dropped and sets OVR,
the pending command staying what it is. (Nothing is said of the RDATA of a write.) -/
def Obligations.CmdWriteWhileIdleAccepts : Prop :=
  ∀ (s : State) (w : Word),
    s.rst = false →
    (s.engine = .idle →
      Answered false (transact (.write (Loc.reg .cmd).addr .word w) s)
          { s with
            engine := .busy w
            status := { errcode := none, lastOp := w.extractLsb' 0 4, ovr := false, err := false, done := false } }
        ∧ irq (transact (.write (Loc.reg .cmd).addr .word w) s) = false)
      ∧ ∀ p, s.engine = .busy p →
        Answered false (transact (.write (Loc.reg .cmd).addr .word w) s)
          { s with status := { s.status with ovr := true } }

/-- R68: while BUSY, a write to CMD, IN_LEN, PAY_LEN, PAD, a FREQ entry, the IN window or the PAY window is dropped and
sets OVR. For window bytes at or beyond the capacity this is the model's reading (log 12). (Nothing is said of the RDATA of
a write.) -/
def Obligations.BusyWritesAreDropped : Prop :=
  ∀ (s : State) (w : Word) (a : Addr) (size : Size) (d : Word),
    s.rst = false → s.engine = .busy w → ¬Refusable a size →
    ((∃ r, decodeAddr a = .reg r ∧ (r = .cmd ∨ r = .inLen ∨ r = .payLen ∨ r = .pad ∨ ∃ b, r = .freq b))
      ∨ (∃ o, decodeAddr a = .inWin o) ∨ ∃ o, decodeAddr a = .payWin o) →
    Answered false (transact (.write a size d) s) { s with status := { s.status with ovr := true } }

/-- R26, R27, R28, R29, R30, R39, R259: writes of the writable registers. STATUS and IRQ_EN writes are performed whether
the engine is IDLE or BUSY and never set OVR: bit 1 of a STATUS write clears DONE, bit 0 of an IRQ_EN write is stored. While
IDLE, IN_LEN and PAY_LEN store all 32 bits, PAD bits 7..0, and a FREQ write stores the entry and clears TREE_VALID. (Nothing
is said of the RDATA of a write.) -/
def Obligations.RegisterWritesStoreTheValue : Prop :=
  ∀ (s : State) (v : Word),
    s.rst = false →
    (Answered false (transact (.write (Loc.reg .status).addr .word v) s)
        { s with status := { s.status with done := if v.getLsbD 1 then false else s.status.done } }
      ∧ Answered false (transact (.write (Loc.reg .irqEn).addr .word v) s) { s with irqEn := v.getLsbD 0 })
      ∧ (s.engine = .idle →
        Answered false (transact (.write (Loc.reg .inLen).addr .word v) s) { s with inLen := v }
          ∧ Answered false (transact (.write (Loc.reg .payLen).addr .word v) s) { s with payLen := v }
          ∧ Answered false (transact (.write (Loc.reg .pad).addr .word v) s) { s with pad := v.extractLsb' 0 8 }
          ∧ ∀ b, ∃ f,
            Answered false (transact (.write (Loc.reg (.freq b)).addr .word v) s)
                { s with freq := f, treeValid := false }
              ∧ ∀ c, tableAt f c = if c = b then v else tableAt s.freq c)

/-- R67: writes to read-only registers and tables and to the OUT window are ignored, with response ok and no OVR, whether
the engine is IDLE or BUSY. (Nothing is said of the RDATA of a write.) -/
def Obligations.ReadOnlyWritesAreIgnored : Prop :=
  ∀ (s : State) (a : Addr) (size : Size) (d : Word),
    s.rst = false → ¬Refusable a size →
    ((∃ o, decodeAddr a = .outWin o)
      ∨ ∃ r, decodeAddr a = .reg r
        ∧ (r = .id ∨ r = .outLen ∨ r = .nsym ∨ r = .treeValid ∨ r = .root ∨ r = .nnodes ∨ r = .errInfo ∨ r = .inCap
          ∨ r = .payCap ∨ r = .outCap ∨ (∃ b, r = .codeLen b) ∨ (∃ b w, r = .codeBits b w) ∨ ∃ n k, r = .node n k)) →
    Answered false (transact (.write a size d) s) s

/-- R66, R69: a host read changes nothing but the response (and the model's count of free draws), whether the engine is
IDLE or BUSY. While BUSY a read of ID, CMD, STATUS, IRQ_EN, a CAP register or a reserved location returns its normal value.
(What a read of any other location returns then is a free value, log 4: nothing is stated of it.) -/
def Obligations.HostReadsHaveNoSideEffects : Prop :=
  (∀ (s : State) (a : Addr) (size : Size),
    ∃ r n, transact (.read a size) s = { s with resp := r, draws := n })
    ∧ ∀ (s : State) (w : Word) (r : RegLoc),
      s.rst = false → s.engine = .busy w →
      (r = .id ∨ r = .cmd ∨ r = .status ∨ r = .irqEn ∨ r = .inCap ∨ r = .payCap ∨ r = .outCap ∨ r = .reserved) →
      transact (.read (Loc.reg r).addr .word) s = { s with resp := some ⟨some (regValue s r), false⟩ }

/-- R25, R42, R250: the layouts of the STATUS word and of the four words of a NODE record, and the numbers of the error
codes that ERRCODE holds. -/
def Obligations.StatusAndNodeWordLayouts : Prop :=
  (errcodeField none = 0 ∧ errcodeField (some .malformedContainer) = 1 ∧ errcodeField (some .invalidPadding) = 2
    ∧ errcodeField (some .truncatedBitstream) = 3 ∧ errcodeField (some .emptyInput) = 4
    ∧ errcodeField (some .illegalCommand) = 5 ∧ errcodeField (some .capacity) = 6
    ∧ errcodeField (some .uncodedSymbol) = 7 ∧ errcodeField (some .noTree) = 8)
    ∧ (∀ s : State,
    (statusWord s).extractLsb' 12 20 = 0
      ∧ (statusWord s).extractLsb' 8 4 = errcodeField s.status.errcode
      ∧ (statusWord s).extractLsb' 4 4 = s.status.lastOp
      ∧ (statusWord s).getLsbD 3 = s.status.ovr ∧ (statusWord s).getLsbD 2 = s.status.err
      ∧ (statusWord s).getLsbD 1 = s.status.done
      ∧ ((statusWord s).getLsbD 0 = true ↔ s.engine ≠ .idle))
    ∧ ∀ n : Node,
      ((nodeWord n 0).getLsbD 31 = n.leaf ∧ (nodeWord n 0).getLsbD 30 = n.used
        ∧ (nodeWord n 0).extractLsb' 8 22 = 0 ∧ (nodeWord n 0).extractLsb' 0 8 = n.sym)
        ∧ ((nodeWord n 1).extractLsb' 25 7 = 0 ∧ (nodeWord n 1).extractLsb' 16 9 = n.right
          ∧ (nodeWord n 1).extractLsb' 9 7 = 0 ∧ (nodeWord n 1).extractLsb' 0 9 = n.left)
        ∧ (nodeWord n 3).extractLsb' 8 24 = 0
        ∧ n.weight.toNat = (nodeWord n 2).toNat + 2 ^ 32 * ((nodeWord n 3).extractLsb' 0 8).toNat

/-- R23 to R25, R27 to R38, R40 to R42, R50: what a word read of each location of the register page returns while IDLE, as
a number; NSYM is the number of present symbols (R32). The bits of the STATUS word and of the NODE words are laid out in
StatusAndNodeWordLayouts. -/
def Obligations.IdleReadsReturnTheRegister : Prop :=
  ∀ (s : State) (r : RegLoc) (v : Nat),
    s.rst = false → s.engine = .idle →
    (r = .id ∧ v = 0x48554646 ∨ r = .cmd ∧ v = 0 ∨ r = .irqEn ∧ v = s.irqEn.toNat ∨ r = .inLen ∧ v = s.inLen.toNat
      ∨ r = .payLen ∧ v = s.payLen.toNat ∨ r = .pad ∧ v = s.pad.toNat ∨ r = .outLen ∧ v = s.outLen.toNat
      ∨ r = .nsym ∧ v = (Finset.univ.filter (fun b : Fin 256 => s.freq[b.val] ≠ 0)).card
      ∨ r = .treeValid ∧ v = s.treeValid.toNat ∨ r = .root ∧ v = s.root.toNat ∨ r = .nnodes ∧ v = s.nnodes.toNat
      ∨ r = .errInfo ∧ v = s.errInfo.toNat ∨ r = .inCap ∧ v = s.params.inCap.val
      ∨ r = .payCap ∧ v = s.params.payCap.val ∨ r = .outCap ∧ v = s.params.outCap.val
      ∨ (∃ b, r = .freq b ∧ v = (tableAt s.freq b).toNat) ∨ (∃ b, r = .codeLen b ∧ v = (tableAt s.codeLen b).toNat)
      ∨ r = .status ∧ v = (statusWord s).toNat
      ∨ (∃ b w, r = .codeBits b w ∧ v = ((tableAt s.codeBits b)[w.val]).toNat)
      ∨ (∃ n k, r = .node n k ∧ v = (nodeWord s.node[n.val] k).toNat) ∨ r = .reserved ∧ v = 0) →
    ∃ d : Word, d.toNat = v ∧ transact (.read (Loc.reg r).addr .word) s = { s with resp := some ⟨some d, false⟩ }

/-- R63, R64: a write to the IN or PAY window while IDLE stores its in-range bytes, little-endian, and no other byte of
any memory changes. (Nothing is said of the RDATA of a write.) -/
def Obligations.WindowWriteStoresInRangeBytes : Prop :=
  ∀ (s : State) (o : Nat) (d : Word),
    s.rst = false → s.engine = .idle → o < 2 ^ 24 →
    (∃ m, Answered false (transact (.write (Loc.inWin o).addr .byte d) s) { s with inMem := m }
      ∧ ∀ k, m.read k = if k = o ∧ k < s.params.inCap.val then some (d.extractLsb' 0 8) else s.inMem.read k)
      ∧ (o % 4 = 0 → ∃ m, Answered false (transact (.write (Loc.inWin o).addr .word d) s) { s with inMem := m }
        ∧ ∀ k, m.read k
            = if o ≤ k ∧ k < o + 4 ∧ k < s.params.inCap.val then some (d.extractLsb' (8 * (k - o)) 8)
              else s.inMem.read k)
      ∧ (∃ m, Answered false (transact (.write (Loc.payWin o).addr .byte d) s) { s with payMem := m }
        ∧ ∀ k, m.read k = if k = o ∧ k < s.params.payCap.val then some (d.extractLsb' 0 8) else s.payMem.read k)
      ∧ (o % 4 = 0 → ∃ m, Answered false (transact (.write (Loc.payWin o).addr .word d) s) { s with payMem := m }
        ∧ ∀ k, m.read k
            = if o ≤ k ∧ k < o + 4 ∧ k < s.params.payCap.val then some (d.extractLsb' (8 * (k - o)) 8)
              else s.payMem.read k)

/-- R61, R63, R64: a read of a window while IDLE returns the written bytes, little-endian, and 0 for bytes at or beyond
the capacity; a byte read returns its byte in bits 7..0 and 0 above. -/
def Obligations.WindowReadReturnsWrittenBytes : Prop :=
  ∀ (s : State) (o n cap : Nat) (a : Addr) (m : Memory) (size : Size),
    s.rst = false → s.engine = .idle → o < 2 ^ 24 →
    (size = .byte ∧ n = 1 ∨ size = .word ∧ n = 4 ∧ o % 4 = 0) →
    (a = (Loc.inWin o).addr ∧ m = s.inMem ∧ cap = s.params.inCap.val
      ∨ a = (Loc.outWin o).addr ∧ m = s.outMem ∧ cap = s.params.outCap.val
      ∨ a = (Loc.payWin o).addr ∧ m = s.payMem ∧ cap = s.params.payCap.val) →
    (∀ k, k < n → o + k < cap → ∃ v, m.read (o + k) = some v) →
    ∃ d : Word, transact (.read a size) s = { s with resp := some ⟨some d, false⟩ }
      ∧ ∀ k, k < 4 →
        (if k < n ∧ o + k < cap then m.read (o + k) else some 0) = some (d.extractLsb' (8 * k) 8)

/-- R100: loading an aligned group of four bytes of the IN or the PAY window with four byte writes or with one little-endian
word write has the same effect on the block, and each is answered ok. (Nothing is said of the RDATA of a write.) -/
def Obligations.ByteLoadsEqualWordLoad : Prop :=
  ∀ (s : State) (win : Nat → Loc) (o : Nat) (b0 b1 b2 b3 : Byte),
    s.rst = false → s.engine = .idle → (win = .inWin ∨ win = .payWin) → o % 4 = 0 → o + 4 ≤ 2 ^ 24 →
    ∃ u, Answered false
        (transact (.write (win (o + 3)).addr .byte (b3.setWidth 32))
          (transact (.write (win (o + 2)).addr .byte (b2.setWidth 32))
            (transact (.write (win (o + 1)).addr .byte (b1.setWidth 32))
              (transact (.write (win o).addr .byte (b0.setWidth 32)) s)))) u
      ∧ Answered false (transact (.write (win o).addr .word (wordLE b0 b1 b2 b3)) s) u

/-- R96, R98, R99: a command mnemonic assembles to one write of its word to CMD (address 4), and running that statement
while IDLE accepts the command. WAIT reads STATUS into r7 and repeats while BUSY; on exit r7 holds the STATUS word with
BUSY 0. -/
def Obligations.MnemonicsAndWaitDriveTheBlock : Prop :=
  (∀ (i : Instr) (s : State),
    assemble [.command i] = some [.wr32 4 (encode i)]
      ∧ (s.rst = false → s.engine = .idle → s.host.prog[s.host.next]? = some (.wr32 4 (encode i)) →
        ∃ t, hostStep s = t ∧ t.engine = .busy (encode i) ∧ t.host.next = s.host.next + 1
          ∧ t = { s with engine := t.engine, status := t.status, resp := t.resp, host := t.host }))
    ∧ assemble [.wait] = some [.rd32 7 8, .bnz 7 1 0]
    ∧ ∀ s : State,
      s.rst = false → s.host.prog[s.host.next]? = some (.rd32 7 8) →
      s.host.prog[s.host.next + 1]? = some (.bnz 7 1 s.host.next) →
      ∃ t, hostStep (hostStep s) = t ∧ t.host.reg 7 = statusWord s
        ∧ t.host.next = (if s.engine = .idle then s.host.next + 2 else s.host.next)
        ∧ t = { s with resp := t.resp, host := t.host }

/-! ## Completion of every command -/

/-- R113, R28, R37, R71: every command answers a next state, with the engine IDLE, DONE set, LAST_OP and OVR kept, ERR set
exactly when ERRCODE is not NONE and ERR_INFO 0 on success; irq then equals DONE_IE. No command changes IRQ_EN, IN_LEN,
IN_MEM, the capacities, the reset line, the response or the host. -/
def Obligations.EveryCommandCompletes : Prop :=
  ∀ (i : Instr) (s : State), ∃ t, exec i s = .next t
    ∧ t.engine = .idle ∧ t.status.done = true ∧ t.status.lastOp = s.status.lastOp ∧ t.status.ovr = s.status.ovr
    ∧ (t.status.err = true ↔ t.status.errcode ≠ none) ∧ (t.status.err = false → t.errInfo = 0)
    ∧ irq t = s.irqEn ∧ t.irqEn = s.irqEn ∧ t.inLen = s.inLen ∧ t.inMem = s.inMem ∧ t.params = s.params
    ∧ t.rst = s.rst ∧ t.resp = s.resp ∧ t.host = s.host ∧ t.script = s.script

/-- R252, R255: a failed primitive command changes nothing but STATUS and ERR_INFO, except that UNPACK may leave OUT_MEM
unspecified. A composite ends as its sub-commands do, run one after the other and no further than the first that raises, with
that sub-command's error and ERR_INFO and with the effects of those before it: DECODE is PARSE, then BUILD if there is a
present symbol, then UNPACK; ENCODE is COUNT, then BUILD if there is a present symbol, then PACK, then SERIALIZE. -/
def Obligations.FailedCommandsChangeNothingElse : Prop :=
  (∀ (i : Instr) (s t : State),
    i ≠ .encode → i ≠ .decode → exec i s = .next t → t.status.err = true →
    t = { s with engine := t.engine, status := t.status, errInfo := t.errInfo, draws := t.draws, outMem := t.outMem }
      ∧ (i ≠ .unpack → t.outMem = s.outMem)
      ∧ (i = .unpack → t.outMem = s.outMem ∨ ∀ a, t.outMem.read a = none))
    ∧ (∀ s t : State, t.status.err = true →
      (exec .parse s = .next t → exec .decode s = .next t) ∧ (exec .count s = .next t → exec .encode s = .next t))
    ∧ (∀ s t1 t2 t : State,
      exec .parse s = .next t1 → t1.status.err = false → (nsym t1.freq = 0 → t2 = t1) →
      (nsym t1.freq ≠ 0 → exec .build t1 = .next t2) → exec .unpack t2 = .next t → exec .decode s = .next t)
    ∧ ∀ s t1 t2 t3 : State,
      exec .count s = .next t1 → t1.status.err = false → (nsym t1.freq = 0 → t2 = t1) →
      (nsym t1.freq ≠ 0 → exec .build t1 = .next t2) → exec .pack t2 = .next t3 →
      (t3.status.err = true → exec .encode s = .next t3)
        ∧ (t3.status.err = false → ∀ t, exec .serialize t3 = .next t → exec .encode s = .next t)

/-- R115: what CLEAR leaves. IN_LEN, IRQ_EN and the memories are unchanged; it cannot fail. -/
def Obligations.ClearEmptiesTheDatapath : Prop :=
  ∀ s : State, ∃ t, exec .clear s = .next t ∧ Succeeded s t
    ∧ (∀ b, tableAt t.freq b = 0 ∧ tableAt t.codeLen b = 0 ∧ tableAt t.codeBits b = Vector.replicate 8 0)
    ∧ (∀ n : Fin 511, t.node[n.val] = .zero) ∧ t.root = 0 ∧ t.nnodes = 0 ∧ t.treeValid = false ∧ t.outLen = 0
    ∧ t.payLen = 0 ∧ t.pad = 0 ∧ nsym t.freq = 0
    ∧ t = { s with
        engine := t.engine, status := t.status, errInfo := t.errInfo, freq := t.freq, codeLen := t.codeLen,
        codeBits := t.codeBits, node := t.node, root := t.root, nnodes := t.nnodes, treeValid := t.treeValid,
        outLen := t.outLen, payLen := t.payLen, pad := t.pad }

/-! ## COUNT -/

/-- R130, R71: COUNT counts the positions of the input that hold each byte value and clears TREE_VALID; with IN_LEN above
IN_CAP it fails with CAPACITY and changes nothing. Its input is IN_LEN bytes, each the byte of IN_MEM where one was
written. -/
def Obligations.CountCountsOccurrences : Prop :=
  ∀ s : State,
    (s.inLen.toNat ≤ s.params.inCap.val →
      ∃ t, exec .count s = .next t ∧ Succeeded s t ∧ t.treeValid = false
        ∧ (∀ b, (tableAt t.freq b).toNat
            = ((Finset.range s.inLen.toNat).filter (fun j => (inputBytes s)[j]? = some b)).card)
        ∧ t = { s with
            engine := t.engine, status := t.status, errInfo := t.errInfo, freq := t.freq, treeValid := false,
            draws := t.draws })
      ∧ (s.params.inCap.val < s.inLen.toNat → FailsCleanly .count .capacity s.inLen.toNat s)
      ∧ (inputBytes s).length = s.inLen.toNat
      ∧ ∀ j, j < s.inLen.toNat → ∀ v, s.inMem.read j = some v → (inputBytes s)[j]? = some v

/-- R131, R132: COUNT depends only on the multiset of the input bytes. After a successful COUNT the counts sum to IN_LEN,
and FREQ[b] is not 0 exactly for the bytes that occur. -/
def Obligations.CountsAreOfTheInputMultiset : Prop :=
  (∀ s s' t t' : State,
    s.inLen.toNat ≤ s.params.inCap.val → s'.inLen.toNat ≤ s'.params.inCap.val →
    (inputBytes s).Perm (inputBytes s') → exec .count s = .next t → exec .count s' = .next t' → t.freq = t'.freq)
    ∧ ∀ s t : State,
      exec .count s = .next t → t.status.err = false →
      ((allBytes.map (fun b => (tableAt t.freq b).toNat)).sum = s.inLen.toNat)
        ∧ ∀ b, tableAt t.freq b ≠ 0 ↔ b ∈ inputBytes s

/-! ## BUILD -/

/-- R140, R141, R144: with a present symbol BUILD succeeds: the leaves are the present symbols in ascending order, ROOT is
2*NSYM-2, NNODES is 2*NSYM-1, the other records are zero, TREE_VALID is 1, and nothing else changes. Without one it fails
with EMPTY_INPUT. -/
def Obligations.BuildSeedsAndFinishesTheArena : Prop :=
  ∀ s : State,
    (nsym s.freq ≠ 0 →
      ∃ t, exec .build s = .next t ∧ Succeeded s t ∧ t.treeValid = true
        ∧ t.root.toNat = 2 * nsym s.freq - 2 ∧ t.nnodes.toNat = 2 * nsym s.freq - 1
        ∧ (∀ i (h : i < nsym s.freq), recordAt t.node i
            = { leaf := true, used := true, sym := (presentSymbols s.freq)[i]'h, left := 0, right := 0,
                weight := (tableAt s.freq ((presentSymbols s.freq)[i]'h)).setWidth 40 })
        ∧ (∀ m, 2 * nsym s.freq - 1 ≤ m → recordAt t.node m = .zero)
        ∧ t = { s with
            engine := t.engine, status := t.status, errInfo := t.errInfo, treeValid := true, node := t.node,
            root := t.root, nnodes := t.nnodes, codeLen := t.codeLen, codeBits := t.codeBits })
      ∧ (nsym s.freq = 0 → FailsCleanly .build .emptyInput 0 s)

/-- R142, R143: every internal record BUILD writes has as first child the least live record by (weight, index), as second
child the least of the others, and as weight their exact sum. -/
def Obligations.BuildMergesTheTwoLeast : Prop :=
  ∀ s t : State,
    exec .build s = .next t → t.status.err = false →
    ∀ m, nsym s.freq ≤ m → m < 2 * nsym s.freq - 1 →
      (recordAt t.node m).leaf = false ∧ (recordAt t.node m).used = true ∧ (recordAt t.node m).sym = 0
        ∧ Live t.node m (recordAt t.node m).left.toNat ∧ Live t.node m (recordAt t.node m).right.toNat
        ∧ (recordAt t.node m).left ≠ (recordAt t.node m).right
        ∧ (∀ j, Live t.node m j → j ≠ (recordAt t.node m).left.toNat →
          Before t.node (recordAt t.node m).left.toNat j)
        ∧ (∀ j, Live t.node m j → j ≠ (recordAt t.node m).left.toNat → j ≠ (recordAt t.node m).right.toNat →
          Before t.node (recordAt t.node m).right.toNat j)
        ∧ (recordAt t.node m).weight.toNat
          = (recordAt t.node (recordAt t.node m).left.toNat).weight.toNat
            + (recordAt t.node (recordAt t.node m).right.toNat).weight.toNat

/-- R43: while TREE_VALID is 1 the arena is a tree: the records below NNODES are used, its leaves are the first NSYM
records with the present symbols in ascending order, internal records point below themselves, and every record but ROOT is
the child of exactly one internal record. TreeInv is the invariant StepKeepsTheCurrentTree. -/
def Obligations.ValidArenaIsATree : Prop :=
  ∀ s : State,
    TreeInv s → s.treeValid = true →
    1 ≤ s.nnodes.toNat ∧ s.root.toNat < s.nnodes.toNat
      ∧ (∀ m, m < s.nnodes.toNat →
        (recordAt s.node m).used = true ∧ ((recordAt s.node m).leaf = true ↔ m < nsym s.freq)
          ∧ ((recordAt s.node m).leaf = false →
            (recordAt s.node m).left.toNat < m ∧ (recordAt s.node m).right.toNat < m
              ∧ (recordAt s.node m).left ≠ (recordAt s.node m).right))
      ∧ (∀ i (h : i < nsym s.freq), (recordAt s.node i).sym = (presentSymbols s.freq)[i]'h)
      ∧ ∀ i, i < s.nnodes.toNat → i ≠ s.root.toNat →
        ∃! m, m < s.nnodes.toNat ∧ (recordAt s.node m).leaf = false
          ∧ ((recordAt s.node m).left.toNat = i ∨ (recordAt s.node m).right.toNat = i)

/-- R145, R146, R147, R41: after BUILD an absent byte has no code and zero words. For NSYM at least 2 the code of a present
byte is the path from ROOT to its leaf, through internal nodes only, of length 1 to NSYM-1. With one present symbol its code
is "0". The stored bits after a code are 0. -/
def Obligations.CodesAreTreePaths : Prop :=
  ∀ s t : State,
    exec .build s = .next t → t.status.err = false →
    (∀ b, tableAt s.freq b = 0 → codeLenAt t.codeLen b = 0 ∧ tableAt t.codeBits b = Vector.replicate 8 0)
      ∧ (2 ≤ nsym s.freq → ∀ b, tableAt s.freq b ≠ 0 →
        1 ≤ codeLenAt t.codeLen b ∧ codeLenAt t.codeLen b ≤ nsym s.freq - 1
          ∧ (nodeAt t.node (follow t.node t.root (codeOf t b))).leaf = true
          ∧ (nodeAt t.node (follow t.node t.root (codeOf t b))).sym = b
          ∧ ∀ k, k < codeLenAt t.codeLen b →
            (nodeAt t.node (follow t.node t.root ((codeOf t b).take k))).leaf = false)
      ∧ (nsym s.freq = 1 → ∀ b, tableAt s.freq b ≠ 0 → codeLenAt t.codeLen b = 1 ∧ codeOf t b = [false])
      ∧ ∀ b i, codeLenAt t.codeLen b ≤ i → i < 256 → codeBitAt t.codeBits b i = false

/-- R149: no code of the table is a prefix of another, and for NSYM at least 2 the Kraft sum of the code lengths is exactly
1 (here times 2^255). -/
def Obligations.CodesArePrefixFree : Prop :=
  ∀ s t : State,
    exec .build s = .next t → t.status.err = false →
    (∀ b c, tableAt s.freq b ≠ 0 → tableAt s.freq c ≠ 0 → b ≠ c → ¬codeOf t b <+: codeOf t c)
      ∧ (2 ≤ nsym s.freq →
        ((presentSymbols s.freq).map (fun b => 2 ^ (255 - codeLenAt t.codeLen b))).sum = 2 ^ 255)

/-- R150: for NSYM at least 2 no prefix code for the present symbols has a smaller weighted length than BUILD's. -/
def Obligations.CodesAreOptimal : Prop :=
  ∀ s t : State,
    exec .build s = .next t → t.status.err = false → 2 ≤ nsym s.freq →
    ∀ code : Byte → Bits,
      (∀ b c, tableAt s.freq b ≠ 0 → tableAt s.freq c ≠ 0 → b ≠ c → ¬code b <+: code c) →
      ((presentSymbols s.freq).map (fun b => (tableAt s.freq b).toNat * codeLenAt t.codeLen b)).sum
        ≤ ((presentSymbols s.freq).map (fun b => (tableAt s.freq b).toNat * (code b).length)).sum

/-! ## PACK -/

/-- R170, R171: PACK of a non-empty coded input that fits: PAY_LEN and PAD are as the rule says, bit 7 - (i mod 8) of
payload byte i div 8 is symbol i of the concatenated codes, then zeros; the other payload bytes and everything else are
unchanged. -/
def Obligations.PackWritesTheCodeBits : Prop :=
  ∀ s : State,
    s.inLen.toNat ≤ s.params.inCap.val → s.inLen ≠ 0 → s.treeValid = true →
    (∀ b ∈ inputBytes s, codeLenAt s.codeLen b ≠ 0) →
    (totalBits s.codeLen (inputBytes s) + 7) / 8 ≤ s.params.payCap.val →
    ∃ t, exec .pack s = .next t ∧ Succeeded s t
      ∧ t.payLen.toNat = (totalBits s.codeLen (inputBytes s) + 7) / 8
      ∧ t.pad.toNat = 8 * t.payLen.toNat - totalBits s.codeLen (inputBytes s)
      ∧ (∀ i, i < 8 * t.payLen.toNat →
        (t.payMem.read (i / 8)).map (fun v => v.getLsbD (7 - i % 8))
          = some (((inputBytes s).flatMap (codeOf s)).getD i false))
      ∧ SameFrom t.payLen.toNat s.payMem t.payMem
      ∧ t = { s with
          engine := t.engine, status := t.status, errInfo := t.errInfo, payMem := t.payMem, payLen := t.payLen,
          pad := t.pad, draws := t.draws }

/-- R170: PACK's errors in their order, and the empty input, which needs no tree. -/
def Obligations.PackErrorsAndEmptyInput : Prop :=
  ∀ s : State,
    (s.params.inCap.val < s.inLen.toNat → FailsCleanly .pack .capacity s.inLen.toNat s)
      ∧ (s.inLen = 0 → ∃ t, exec .pack s = .next t ∧ Succeeded s t ∧ t.payLen = 0 ∧ t.pad = 0
        ∧ t = { s with engine := t.engine, status := t.status, errInfo := t.errInfo, payLen := 0, pad := 0 })
      ∧ (s.inLen.toNat ≤ s.params.inCap.val → s.inLen ≠ 0 →
        (s.treeValid = false → FailsCleanly .pack .noTree 0 s)
          ∧ (s.treeValid = true →
            (∀ j (h : j < (inputBytes s).length), codeLenAt s.codeLen ((inputBytes s)[j]) = 0 →
              (∀ i (h' : i < j), codeLenAt s.codeLen ((inputBytes s)[i]) ≠ 0) →
              FailsCleanly .pack .uncodedSymbol j s)
              ∧ ((∀ b ∈ inputBytes s, codeLenAt s.codeLen b ≠ 0) →
                s.params.payCap.val < (totalBits s.codeLen (inputBytes s) + 7) / 8 →
                FailsCleanly .pack .capacity ((totalBits s.codeLen (inputBytes s) + 7) / 8) s)))

/-- R175, R172, R173: after a successful PACK, PAD is in 0..7, 8*PAY_LEN - PAD is the number of code bits,
and expanding and trimming the payload gives back the concatenated codes. -/
def Obligations.PackPaddingIsBoundedAndExact : Prop :=
  ∀ s t : State,
    exec .pack s = .next t → t.status.err = false →
    t.pad.toNat ≤ 7
      ∧ 8 * t.payLen.toNat - t.pad.toNat = ((inputBytes s).map (codeLenAt s.codeLen)).sum
      ∧ unpaddedBits (payloadBytes t) t.pad.toNat = (inputBytes s).flatMap (codeOf s)

/-! ## SERIALIZE and PARSE -/

/-- R190: where the fields of a container lie. -/
def Obligations.ContainerLayout : Prop :=
  ∀ c : Container, c.table.length < 2 ^ 32 →
    (containerBytes c).length = 5 + 5 * c.table.length + c.payload.length
      ∧ (wordAt (containerBytes c) 0).toNat = c.table.length
      ∧ (∀ e (h : e < c.table.length), byteAt (containerBytes c) (4 + 5 * e) = (c.table[e]).sym
        ∧ wordAt (containerBytes c) (4 + 5 * e + 1) = (c.table[e]).count)
      ∧ byteAt (containerBytes c) (4 + 5 * c.table.length) = c.pad
      ∧ ∀ i (h : i < c.payload.length), byteAt (containerBytes c) (4 + 5 * c.table.length + 1 + i) = c.payload[i]

/-- R192, R195, R191: SERIALIZE of a consistent state writes the container of FREQ, PAD and the payload, which is well
formed, and OUT_LEN = 5 + 5*NSYM + PAY_LEN; OUT_MEM beyond it and everything else are unchanged. -/
def Obligations.SerializeWritesTheContainer : Prop :=
  ∀ s : State,
    s.pad.toNat ≤ 7 → s.payLen.toNat ≤ s.params.payCap.val → (nsym s.freq = 0 → s.payLen = 0 ∧ s.pad = 0) →
    (s.payLen = 0 → s.pad = 0) → 5 + 5 * nsym s.freq + s.payLen.toNat ≤ s.params.outCap.val →
    ∃ t, exec .serialize s = .next t ∧ Succeeded s t
      ∧ t.outLen.toNat = 5 + 5 * nsym s.freq + s.payLen.toNat
      ∧ Holds t.outMem (containerBytes ⟨tableOfFreq s.freq, s.pad, payloadBytes s⟩)
      ∧ Container.wf ⟨tableOfFreq s.freq, s.pad, payloadBytes s⟩
      ∧ (containerBytes ⟨tableOfFreq s.freq, s.pad, payloadBytes s⟩).length = t.outLen.toNat
      ∧ SameFrom t.outLen.toNat s.outMem t.outMem
      ∧ t = { s with
          engine := t.engine, status := t.status, errInfo := t.errInfo, outMem := t.outMem, outLen := t.outLen,
          draws := t.draws }

/-- R192: SERIALIZE's errors, in their order. -/
def Obligations.SerializeErrorsInOrder : Prop :=
  ∀ s : State,
    (7 < s.pad.toNat → FailsCleanly .serialize .invalidPadding s.pad.toNat s)
      ∧ (s.pad.toNat ≤ 7 → s.params.payCap.val < s.payLen.toNat →
        FailsCleanly .serialize .capacity s.payLen.toNat s)
      ∧ (s.pad.toNat ≤ 7 → s.payLen.toNat ≤ s.params.payCap.val →
        (nsym s.freq = 0 ∧ (s.payLen ≠ 0 ∨ s.pad ≠ 0) ∨ s.payLen = 0 ∧ s.pad ≠ 0 →
          FailsCleanly .serialize .malformedContainer 0 s)
          ∧ ((nsym s.freq = 0 → s.payLen = 0 ∧ s.pad = 0) → (s.payLen = 0 → s.pad = 0) →
            s.params.outCap.val < 5 + 5 * nsym s.freq + s.payLen.toNat →
            FailsCleanly .serialize .capacity (5 + 5 * nsym s.freq + s.payLen.toNat) s))

/-- R193, R191, R194: PARSE accepts a byte sequence exactly when it is the bytes of a well-formed container whose payload
fits, and it then yields that container. -/
def Obligations.ParseAcceptsExactlyContainers : Prop :=
  ∀ (payCap : Nat) (bytes : List Byte) (c : Container),
    parseContainer payCap bytes = .ok c ↔ c.wf ∧ c.payload.length ≤ payCap ∧ bytes = containerBytes c

/-- R193: PARSE of a well-formed container that fits: FREQ, PAD, PAY_LEN, PAY_MEM and TREE_VALID, and nothing else. -/
def Obligations.ParseRestoresTheFields : Prop :=
  ∀ (s : State) (c : Container),
    s.inLen.toNat ≤ s.params.inCap.val → inputBytes s = containerBytes c → c.wf →
    c.payload.length ≤ s.params.payCap.val →
    ∃ t, exec .parse s = .next t ∧ Succeeded s t ∧ tableOfFreq t.freq = c.table ∧ nsym t.freq = c.table.length
      ∧ (∀ b, tableAt t.freq b ≠ 0 ↔ ∃ e ∈ c.table, e.sym = b)
      ∧ t.treeValid = false ∧ t.pad = c.pad ∧ t.payLen.toNat = c.payload.length ∧ Holds t.payMem c.payload
      ∧ SameFrom c.payload.length s.payMem t.payMem
      ∧ t = { s with
          engine := t.engine, status := t.status, errInfo := t.errInfo, freq := t.freq, treeValid := false,
          pad := t.pad, payMem := t.payMem, payLen := t.payLen, draws := t.draws }

/-- R193, R251, R254: PARSE's errors and their ERR_INFO, in the order of its checks. -/
def Obligations.ParseErrorsInOrder : Prop :=
  ∀ (s : State) (bytes : List Byte) (n : Nat),
    bytes = inputBytes s → n = (wordAt bytes 0).toNat →
    (s.params.inCap.val < s.inLen.toNat → FailsCleanly .parse .capacity s.inLen.toNat s)
      ∧ (s.inLen.toNat ≤ s.params.inCap.val →
        (s.inLen.toNat < 4 → FailsCleanly .parse .malformedContainer s.inLen.toNat s)
          ∧ (4 ≤ s.inLen.toNat → 256 < n → FailsCleanly .parse .malformedContainer 0 s)
          ∧ (4 ≤ s.inLen.toNat → n ≤ 256 → s.inLen.toNat < 4 + 5 * n + 1 →
            FailsCleanly .parse .malformedContainer s.inLen.toNat s)
          ∧ (n ≤ 256 → 4 + 5 * n + 1 ≤ s.inLen.toNat →
            (∀ e, e < n → EntriesPass bytes e → EntryNotAbove bytes e →
              FailsCleanly .parse .malformedContainer (4 + 5 * e) s)
              ∧ (∀ e, e < n → EntriesPass bytes e → ¬EntryNotAbove bytes e → EntryZero bytes e →
                FailsCleanly .parse .malformedContainer (4 + 5 * e + 1) s)
              ∧ (EntriesPass bytes n → 7 < (byteAt bytes (4 + 5 * n)).toNat →
                FailsCleanly .parse .invalidPadding (byteAt bytes (4 + 5 * n)).toNat s)
              ∧ (EntriesPass bytes n → (byteAt bytes (4 + 5 * n)).toNat ≤ 7 →
                (n = 0 ∧ (s.inLen.toNat ≠ 5 ∨ byteAt bytes 4 ≠ 0)
                    ∨ s.inLen.toNat = 4 + 5 * n + 1 ∧ byteAt bytes (4 + 5 * n) ≠ 0 →
                  FailsCleanly .parse .malformedContainer (4 + 5 * n) s)
                  ∧ ((n = 0 → s.inLen.toNat = 5) → s.inLen.toNat ≠ 4 + 5 * n + 1 →
                    s.params.payCap.val < s.inLen.toNat - (4 + 5 * n + 1) →
                    FailsCleanly .parse .capacity (s.inLen.toNat - (4 + 5 * n + 1)) s))))

/-- R196: PARSE of what SERIALIZE wrote from a written payload (R72) restores FREQ, PAD, PAY_LEN and the payload. -/
def Obligations.ParseInvertsSerialize : Prop :=
  ∀ s t u : State,
    PayloadWritten s → exec .serialize s = .next t → t.status.err = false →
    u.params = s.params → u.inLen = t.outLen → t.outLen.toNat ≤ u.params.inCap.val →
    (∀ k, k < t.outLen.toNat → u.inMem.read k = t.outMem.read k) →
    ∃ v, exec .parse u = .next v ∧ Succeeded u v ∧ v.freq = s.freq ∧ v.pad = s.pad ∧ v.payLen = s.payLen
      ∧ ∀ k, k < s.payLen.toNat → v.payMem.read k = s.payMem.read k

/-! ## UNPACK -/

/-- R220, R173: UNPACK's checks before the walk, in their order, and the payload of no bits, which needs no tree. -/
def Obligations.UnpackChecksBeforeTheWalk : Prop :=
  ∀ s : State,
    (7 < s.pad.toNat → FailsCleanly .unpack .invalidPadding s.pad.toNat s)
      ∧ (s.pad.toNat ≤ 7 → s.params.payCap.val < s.payLen.toNat →
        FailsCleanly .unpack .capacity s.payLen.toNat s)
      ∧ (s.pad.toNat ≤ 7 → s.payLen = 0 → s.pad ≠ 0 → FailsCleanly .unpack .malformedContainer 0 s)
      ∧ (s.payLen = 0 → s.pad = 0 → ∃ t, exec .unpack s = .next t ∧ Succeeded s t ∧ t.outLen = 0
        ∧ t = { s with engine := t.engine, status := t.status, errInfo := t.errInfo, outLen := 0 })
      ∧ (s.pad.toNat ≤ 7 → s.payLen ≠ 0 → s.payLen.toNat ≤ s.params.payCap.val → s.treeValid = false →
        FailsCleanly .unpack .noTree 0 s)

/-- R220, R221, R222, R226: under a valid tree, a payload whose bits are the codes of `out` decodes to `out`. This covers
the single-leaf tree, whose only code is "0". TreeInv is the invariant StepKeepsTheCurrentTree. -/
def Obligations.UnpackDecodesConcatenatedCodes : Prop :=
  ∀ (s : State) (out : List Byte),
    TreeInv s → s.treeValid = true → s.pad.toNat ≤ 7 → s.payLen ≠ 0 → s.payLen.toNat ≤ s.params.payCap.val →
    (∀ b ∈ out, tableAt s.freq b ≠ 0) → out.length ≤ s.params.outCap.val →
    unpaddedBits (payloadBytes s) s.pad.toNat = out.flatMap (codeOf s) →
    ∃ t, exec .unpack s = .next t ∧ Succeeded s t ∧ t.outLen.toNat = out.length ∧ Holds t.outMem out
      ∧ SameFrom out.length s.outMem t.outMem
      ∧ t = { s with
          engine := t.engine, status := t.status, errInfo := t.errInfo, outMem := t.outMem, outLen := t.outLen,
          draws := t.draws }

/-- R226: a payload that UNPACK consumes without error is a concatenation of codes in exactly one way, and OUT_MEM holds
exactly their bytes in order. -/
def Obligations.UnpackSucceedsOnlyOnCodes : Prop :=
  ∀ s t : State,
    TreeInv s → s.treeValid = true → exec .unpack s = .next t → t.status.err = false →
    ∃ out : List Byte, (∀ b ∈ out, tableAt s.freq b ≠ 0)
      ∧ unpaddedBits (payloadBytes s) s.pad.toNat = out.flatMap (codeOf s)
      ∧ t.outLen.toNat = out.length ∧ Holds t.outMem out
      ∧ ∀ out' : List Byte, (∀ b ∈ out', tableAt s.freq b ≠ 0) → out'.flatMap (codeOf s) = out.flatMap (codeOf s) →
        out' = out

/-- R221, R223: the walk's errors for NSYM at least 2: an unfinished codeword gives TRUNCATED_BITSTREAM at its first bit,
a codeword past a full OUT_MEM gives CAPACITY at its last bit. -/
def Obligations.UnpackWalkErrors : Prop :=
  ∀ (s : State) (out : List Byte) (b : Byte) (p : Bits),
    TreeInv s → s.treeValid = true → 2 ≤ nsym s.freq → s.pad.toNat ≤ 7 → s.payLen ≠ 0 →
    s.payLen.toNat ≤ s.params.payCap.val → (∀ c ∈ out, tableAt s.freq c ≠ 0) → tableAt s.freq b ≠ 0 →
    unpaddedBits (payloadBytes s) s.pad.toNat = out.flatMap (codeOf s) ++ p →
    (out.length ≤ s.params.outCap.val → p ≠ [] → p <+: codeOf s b → p ≠ codeOf s b →
      ∃ t, exec .unpack s = .next t ∧ FailedWith .truncatedBitstream (out.flatMap (codeOf s)).length s t)
      ∧ (out.length = s.params.outCap.val → codeOf s b <+: p →
        ∃ t, exec .unpack s = .next t
          ∧ FailedWith .capacity ((out.flatMap (codeOf s)).length + (codeOf s b).length - 1) s t)

/-- R222: under a single-leaf tree the first 1 bit gives MALFORMED_CONTAINER at its index, and a 0 bit past a full OUT_MEM
gives CAPACITY at its index. -/
def Obligations.UnpackSingleLeafErrors : Prop :=
  ∀ (s : State) (k : Nat) (rest : Bits),
    s.treeValid = true → (nodeAt s.node s.root).leaf = true → s.pad.toNat ≤ 7 → s.payLen ≠ 0 →
    s.payLen.toNat ≤ s.params.payCap.val →
    (k ≤ s.params.outCap.val →
      unpaddedBits (payloadBytes s) s.pad.toNat = List.replicate k false ++ true :: rest →
      ∃ t, exec .unpack s = .next t ∧ FailedWith .malformedContainer k s t)
      ∧ (k = s.params.outCap.val →
        unpaddedBits (payloadBytes s) s.pad.toNat = List.replicate k false ++ false :: rest →
        ∃ t, exec .unpack s = .next t ∧ FailedWith .capacity k s t)

/-- R224: after an error of the walk OUT_LEN keeps its value, every byte of OUT_MEM is unspecified (as if never written),
and everything else but STATUS and ERR_INFO is unchanged. -/
def Obligations.WalkErrorLeavesOutputUnspecified : Prop :=
  ∀ s t : State,
    s.pad.toNat ≤ 7 → s.payLen ≠ 0 → s.payLen.toNat ≤ s.params.payCap.val → s.treeValid = true →
    exec .unpack s = .next t → t.status.err = true →
    (∀ a, t.outMem.read a = none) ∧ t.outLen = s.outLen
      ∧ t = { s with
          engine := t.engine, status := t.status, errInfo := t.errInfo, draws := t.draws, outMem := t.outMem }

/-- R174: the values of the trimmed pad bits are ignored: payloads that agree on the other bits decode alike. -/
def Obligations.PadBitsAreIgnored : Prop :=
  ∀ (s : State) (m : Memory),
    PayloadWritten s → PayloadWritten { s with payMem := m } →
    unpaddedBits (payloadBytes s) s.pad.toNat = unpaddedBits (payloadBytes { s with payMem := m }) s.pad.toNat →
    ∃ t, exec .unpack s = .next t ∧ exec .unpack { s with payMem := m } = .next { t with payMem := m }

/-! ## ENCODE and DECODE -/

/-- R240: ENCODE of written input that fits: the container of the input's counts and of the payload its tree's codes give.
FREQ counts the input, TREE_VALID is 1 exactly when the input is not empty. -/
def Obligations.EncodeWritesTheContainerOfTheInput : Prop :=
  ∀ (s : State) (f : Vector Word 256) (total : Nat),
    s.inLen.toNat ≤ s.params.inCap.val → InputWritten s → f = countTable (inputBytes s) →
    total = totalBits (buildTree f).codeLen (inputBytes s) →
    (total + 7) / 8 ≤ s.params.payCap.val → 5 + 5 * nsym f + (total + 7) / 8 ≤ s.params.outCap.val →
    ∃ t, exec .encode s = .next t ∧ Succeeded s t ∧ t.freq = f
      ∧ (s.inLen ≠ 0 → t.treeValid = true ∧ treeTables t = buildTree f)
      ∧ unpaddedBits (payloadBytes t) t.pad.toNat = (inputBytes s).flatMap (codeOf t)
      ∧ (s.inLen ≠ 0 → t.payLen.toNat = (total + 7) / 8 ∧ t.pad.toNat = 8 * ((total + 7) / 8) - total)
      ∧ (s.inLen = 0 → t.treeValid = false ∧ t.payLen = 0 ∧ t.pad = 0)
      ∧ t.outLen.toNat = 5 + 5 * nsym f + t.payLen.toNat
      ∧ Holds t.outMem (containerBytes ⟨tableOfFreq f, t.pad, payloadBytes t⟩)
      ∧ SameFrom t.payLen.toNat s.payMem t.payMem ∧ SameFrom t.outLen.toNat s.outMem t.outMem
      ∧ t = { s with
          engine := t.engine, status := t.status, errInfo := t.errInfo, freq := t.freq, treeValid := t.treeValid,
          node := t.node, root := t.root, nnodes := t.nnodes, codeLen := t.codeLen, codeBits := t.codeBits,
          payMem := t.payMem, payLen := t.payLen, pad := t.pad, outMem := t.outMem, outLen := t.outLen,
          draws := t.draws }

/-- R240, R243: on written input ENCODE fails only with CAPACITY; and ENCODE of the same written input on instances of the
same capacities gives the same error, or byte-identical containers, whatever state preceded it. -/
def Obligations.EncodeIsDeterministic : Prop :=
  (∀ s t : State,
    InputWritten s → exec .encode s = .next t → t.status.errcode = none ∨ t.status.errcode = some .capacity)
    ∧ ∀ s s' t t' : State,
      InputWritten s → InputWritten s' → inputBytes s = inputBytes s' → s.params = s'.params →
      exec .encode s = .next t → exec .encode s' = .next t' →
      t.status.errcode = t'.status.errcode ∧ t.errInfo = t'.errInfo
        ∧ (t.status.err = false →
          t.outLen = t'.outLen ∧ ∀ k, k < t.outLen.toNat → t.outMem.read k = t'.outMem.read k)

/-- R241: DECODE of a well-formed container whose payload is the codes of `out` under the tree of its table: it succeeds
with `out` in OUT_MEM, the parsed FREQ, PAD and payload, and that tree. The tree is empty for an empty table. -/
def Obligations.DecodeRecoversTheBytes : Prop :=
  ∀ (s u : State) (c : Container) (out : List Byte),
    s.inLen.toNat ≤ s.params.inCap.val → inputBytes s = containerBytes c → c.wf →
    c.payload.length ≤ s.params.payCap.val → u = installTree s (buildTree (freqOfTable c.table)) →
    (∀ b ∈ out, ∃ e ∈ c.table, e.sym = b) → out.length ≤ s.params.outCap.val →
    unpaddedBits c.payload c.pad.toNat = out.flatMap (codeOf u) →
    ∃ t, exec .decode s = .next t ∧ Succeeded s t ∧ t.outLen.toNat = out.length ∧ Holds t.outMem out
      ∧ SameFrom out.length s.outMem t.outMem ∧ tableOfFreq t.freq = c.table ∧ t.pad = c.pad
      ∧ t.payLen.toNat = c.payload.length ∧ Holds t.payMem c.payload
      ∧ SameFrom c.payload.length s.payMem t.payMem
      ∧ (c.table ≠ [] → t.treeValid = true ∧ treeTables t = buildTree t.freq)
      ∧ (c.table = [] → t.treeValid = false)
      ∧ t = { s with
          engine := t.engine, status := t.status, errInfo := t.errInfo, freq := t.freq, treeValid := t.treeValid,
          node := t.node, root := t.root, nnodes := t.nnodes, codeLen := t.codeLen, codeBits := t.codeBits,
          payMem := t.payMem, payLen := t.payLen, pad := t.pad, outMem := t.outMem, outLen := t.outLen,
          draws := t.draws }

/-- R242: decoding an encoded input gives the input back: for every written input, empty and single-symbol included, whose
ENCODE succeeds with a container that fits IN_MEM, DECODE of the container succeeds with the input in OUT_MEM. -/
def Obligations.DecodeInvertsEncode : Prop :=
  ∀ s t u : State,
    InputWritten s → exec .encode s = .next t → t.status.err = false →
    u.params = s.params → u.inLen = t.outLen → t.outLen.toNat ≤ u.params.inCap.val →
    (∀ k, k < t.outLen.toNat → u.inMem.read k = t.outMem.read k) →
    (inputBytes s).length ≤ u.params.outCap.val →
    ∃ v, exec .decode u = .next v ∧ Succeeded u v ∧ v.outLen.toNat = (inputBytes s).length
      ∧ Holds v.outMem (inputBytes s)

/-! ## Invariants of the machine -/

/-- R44, R45, R46, R72: every step keeps the three byte memories in canonical form and inside their capacities. -/
def Obligations.StepKeepsTheMemoryForm : Prop :=
  ∀ s t : State, MemInv s → step s = .next t → MemInv t

/-- R33: every step keeps the invariant that, while TREE_VALID is 1, NODE, ROOT, NNODES, CODE_LEN and CODE_BITS are what
BUILD derives from the current FREQ. -/
def Obligations.StepKeepsTheCurrentTree : Prop :=
  ∀ s t : State, TreeInv s → step s = .next t → TreeInv t

/-- R25, R31, R36: every step keeps the agreement of the status fields with ENGINE and ERR_INFO, and OUT_LEN within
OUT_CAP. -/
def Obligations.StepKeepsStatusAndOutLen : Prop :=
  ∀ s t : State, StatusInv s → LenInv s → step s = .next t → StatusInv t ∧ LenInv t

/-- The invariants hold right after reset, for every configuration. -/
def Obligations.ResetMeetsTheInvariants : Prop := ∀ p : Params, Inv (State.resetOf p)

/-- R33, R28, R37, R71: TREE_VALID goes from 0 to 1 only in a step of the engine, outside reset, that completes a pending
BUILD, ENCODE or DECODE; no step changes the capacities; and a step of the engine that completes a command changes neither
IN_LEN nor IN_MEM. -/
def Obligations.OnlyBuildingCommandsValidateTheTree : Prop :=
  ∀ s t : State,
    step s = .next t →
    t.params = s.params
      ∧ (s.treeValid = false → t.treeValid = true →
        (s.engine = .busy (encode .build) ∨ s.engine = .busy (encode .encode) ∨ s.engine = .busy (encode .decode))
          ∧ s.rst = false ∧ t.engine = .idle ∧ t.status.done = true
          ∧ (s.script = [] ∨ ∃ rest, s.script = .engineTurn :: rest))
      ∧ ∀ w, s.engine = .busy w → s.rst = false → t.engine = .idle → t.inLen = s.inLen ∧ t.inMem = s.inMem
end

