-- ==== Sys2Proof/Laws/Bits.lean ====
section
/-! SUPPORT. The laws of byte order and bit order, and that expanding a packed bit string gives it back, padded. -/

namespace Sys2Proof.Machine

/-! ## Byte order -/

/-- A word is the little-endian word of its four bytes (00_scope.md R13). -/
theorem wordLE_le32 (w : Word) :
    wordLE (w.extractLsb' 0 8) (w.extractLsb' 8 8) (w.extractLsb' 16 8) (w.extractLsb' 24 8) = w := by
  apply BitVec.eq_of_getLsbD_eq
  intro i hi
  simp only [wordLE, BitVec.getLsbD_append, BitVec.getLsbD_extractLsb']
  split_ifs with h1 h2 h3
  · simp [h1]
  · simp [show i - 8 < 8 from h2, show 8 + (i - 8) = i by omega]
  · simp [show i - 8 - 8 < 8 from h3, show 16 + (i - 8 - 8) = i by omega]
  · simp [show i - 8 - 8 - 8 < 8 by omega, show 24 + (i - 8 - 8 - 8) = i by omega]

/-- The bytes of a little-endian word (00_scope.md R13). -/
theorem le32_wordLE (b0 b1 b2 b3 : Byte) : le32 (wordLE b0 b1 b2 b3) = [b0, b1, b2, b3] := by
  have h : ∀ k : Nat, k < 4 → ∀ i, i < 8 →
      ((wordLE b0 b1 b2 b3).extractLsb' (8 * k) 8).getLsbD i
        = ([b0, b1, b2, b3].getD k 0).getLsbD i := by
    intro k hk i hi
    simp only [wordLE, BitVec.getLsbD_append, BitVec.getLsbD_extractLsb', hi, decide_true, Bool.true_and]
    interval_cases k
    · simp [hi]
    · simp [show ¬(8 * 1 + i < 8) by omega, show 8 * 1 + i - 8 = i by omega, hi]
    · simp [show ¬(8 * 2 + i < 8) by omega, show ¬(8 * 2 + i - 8 < 8) by omega,
        show 8 * 2 + i - 8 - 8 = i by omega, hi]
    · simp [show ¬(8 * 3 + i < 8) by omega, show ¬(8 * 3 + i - 8 < 8) by omega,
        show ¬(8 * 3 + i - 8 - 8 < 8) by omega, show 8 * 3 + i - 8 - 8 - 8 = i by omega]
  simp only [le32, List.cons.injEq, and_true]
  exact ⟨BitVec.eq_of_getLsbD_eq (h 0 (by omega)), BitVec.eq_of_getLsbD_eq (h 1 (by omega)),
    BitVec.eq_of_getLsbD_eq (h 2 (by omega)), BitVec.eq_of_getLsbD_eq (h 3 (by omega))⟩

@[simp] theorem le32_length (w : Word) : (le32 w).length = 4 := rfl

/-! ## Bit order -/

theorem natOfBits_lt (p : Bits) : natOfBits p < 2 ^ p.length := by
  induction p with
  | nil => simp [natOfBits]
  | cons b p ih =>
    simp only [natOfBits, List.length_cons, pow_succ]
    cases b <;> simp <;> omega

/-- Bit i of the number a bit string spells is its symbol at distance i from the end. -/
theorem natOfBits_testBit (p : Bits) (i : Nat) :
    (natOfBits p).testBit i = (decide (i < p.length) && p.getD (p.length - 1 - i) false) := by
  induction p with
  | nil => simp [natOfBits]
  | cons b p ih =>
    have hlt := natOfBits_lt p
    simp only [natOfBits, List.length_cons]
    by_cases h : i < p.length
    · rw [Nat.mul_comm, Nat.testBit_two_pow_mul_add _ hlt, if_pos h, ih]
      have e : p.length + 1 - 1 - i = (p.length - 1 - i) + 1 := by omega
      rw [e, List.getD_cons_succ]
      simp [h, show i < p.length + 1 by omega]
    · rw [Nat.mul_comm, Nat.testBit_two_pow_mul_add _ hlt, if_neg h]
      by_cases h2 : i = p.length
      · subst h2
        cases b <;> simp
      · have : i - p.length ≠ 0 := by omega
        cases b
        · simp [show ¬ i < p.length + 1 by omega]
        · obtain ⟨k, hk⟩ := Nat.exists_eq_succ_of_ne_zero this
          simp [hk, show ¬ i < p.length + 1 by omega, Nat.testBit_succ]

/-- Bit 7 - t of a packed byte is symbol 8k + t of the bit string (43_bit_packer.md R171). -/
theorem byteOfBits_getLsbD (p : Bits) (k : Nat) {t : Nat} (ht : t < 8) :
    (byteOfBits p k).getLsbD (7 - t) = p.getD (8 * k + t) false := by
  have h7 : 7 - t < 8 := by omega
  rw [byteOfBits, BitVec.getLsbD_ofNat, natOfBits_testBit]
  simp [h7, show 7 - (7 - t) = t by omega, ht]

/-- Bit 31 - t of a code word is symbol 32w + t of the code (10_state.md R41). -/
theorem wordOfBits_getLsbD (p : Bits) (w : Nat) {t : Nat} (ht : t < 32) :
    (wordOfBits p w).getLsbD (31 - t) = p.getD (32 * w + t) false := by
  have h : 31 - t < 32 := by omega
  rw [wordOfBits, BitVec.getLsbD_ofNat, natOfBits_testBit]
  simp [h, show 31 - (31 - t) = t by omega, ht]

@[simp] theorem bitsOfByte_length (b : Byte) : (bitsOfByte b).length = 8 := rfl

theorem bitsOfByte_byteOfBits (p : Bits) (k : Nat) :
    bitsOfByte (byteOfBits p k) = (List.range 8).map (fun t => p.getD (8 * k + t) false) := by
  apply List.map_congr_left
  intro t ht
  exact byteOfBits_getLsbD p k (List.mem_range.1 ht)

@[simp] theorem expandBits_length (bs : List Byte) : (expandBits bs).length = 8 * bs.length := by
  induction bs with
  | nil => rfl
  | cons b bs ih =>
    have : (expandBits (b :: bs)) = bitsOfByte b ++ expandBits bs := rfl
    rw [this, List.length_append, ih, bitsOfByte_length, List.length_cons]
    omega

/-- Symbol i of the expansion is bit 7 - (i mod 8) of byte i div 8 (43_bit_packer.md R172). -/
theorem expandBits_getElem? (bs : List Byte) (i : Nat) :
    (expandBits bs)[i]? = (bs[i / 8]?).map (fun b => b.getLsbD (7 - i % 8)) := by
  induction bs generalizing i with
  | nil => simp [expandBits]
  | cons b bs ih =>
    have e : (expandBits (b :: bs)) = bitsOfByte b ++ expandBits bs := rfl
    rw [e]
    by_cases h : i < 8
    · rw [List.getElem?_append_left (by simpa using h)]
      simp [bitsOfByte, h, show i / 8 = 0 by omega, show i % 8 = i by omega]
    · rw [List.getElem?_append_right (by simp; omega), ih]
      have e1 : i / 8 = (i - 8) / 8 + 1 := by omega
      have e2 : (i - 8) % 8 = i % 8 := by omega
      simp [e1, e2]

/-- Expanding the packed bytes of a bit string gives it back, followed by pad zeros (43_bit_packer.md R175). -/
theorem expandBits_packBits (p : Bits) (n : Nat) (h : p.length ≤ 8 * n) :
    expandBits (packBits p n) = p ++ List.replicate (8 * n - p.length) false := by
  apply List.ext_getElem?
  intro i
  rw [expandBits_getElem?]
  by_cases hi : i < 8 * n
  · have hd : i / 8 < n := by omega
    simp only [packBits, List.getElem?_map, List.getElem?_range hd, Option.map_some]
    rw [byteOfBits_getLsbD p _ (by omega), show 8 * (i / 8) + i % 8 = i by omega]
    by_cases hp : i < p.length
    · simp [List.getElem?_append_left hp, hp]
    · rw [List.getElem?_append_right (by omega)]
      simp [List.getElem?_eq_none (show p.length ≤ i by omega), show i - p.length < 8 * n - p.length by omega]
  · have : (packBits p n)[i / 8]? = none := by
      simp [packBits]; omega
    rw [this, List.getElem?_eq_none]
    · rfl
    · simp; omega

/-- Trimming the pad of the expansion of a packed bit string gives the bit string back (43_bit_packer.md R175). -/
theorem unpaddedBits_packBits (p : Bits) (n : Nat) (h : p.length ≤ 8 * n) :
    unpaddedBits (packBits p n) (8 * n - p.length) = p := by
  have hl : (packBits p n).length = n := by simp [packBits]
  rw [unpaddedBits, expandBits_packBits p n h, hl, show 8 * n - (8 * n - p.length) = p.length by omega,
    List.take_left]

end Sys2Proof.Machine
end

