-- ==== Sys2Proof/Laws/Tables.lean ====
section
/-! SUPPORT. The laws of the tables of 256 entries, of the present symbols, and of the container's view of FREQ. -/

namespace Sys2Proof.Machine

/-! ## Tables -/

@[simp] theorem tableAt_tableOf {α : Type} (f : Byte → α) (b : Byte) : tableAt (tableOf f) b = f b := by
  simp [tableAt, tableOf, allBytes]

theorem tableAt_tableSet {α : Type} (t : Vector α 256) (b c : Byte) (v : α) :
    tableAt (tableSet t b v) c = if c = b then v else tableAt t c := by
  simp only [tableAt, tableSet, Vector.getElem_set]
  by_cases h : c = b
  · simp [h]
  · have : b.toNat ≠ c.toNat := fun e => h (BitVec.eq_of_toNat_eq e.symm)
    simp [this, h]

@[simp] theorem tableAt_replicate {α : Type} (v : α) (b : Byte) : tableAt (Vector.replicate 256 v) b = v := by
  simp [tableAt]

/-- Two tables are equal when their entries are. -/
theorem table_ext {α : Type} {t u : Vector α 256} (h : ∀ b, tableAt t b = tableAt u b) : t = u := by
  apply Vector.ext
  intro i hi
  have := h (BitVec.ofNat 8 i)
  simpa [tableAt, Nat.mod_eq_of_lt hi] using this

/-! ## The alphabet and the present symbols -/

@[simp] theorem mem_allBytes (b : Byte) : b ∈ allBytes :=
  List.mem_map.2 ⟨b.toNat, List.mem_range.2 b.isLt, by simp⟩

/-- The byte values ascend. -/
theorem allBytes_sorted : allBytes.Pairwise (fun b c => b.toNat < c.toNat) := by
  refine List.pairwise_map.2 (List.pairwise_lt_range.imp_of_mem ?_)
  intro i j hi hj h
  simp only [List.mem_range] at hi hj
  simpa [Nat.mod_eq_of_lt hi, Nat.mod_eq_of_lt hj] using h

/-- The entries of a table, in order. -/
theorem toList_eq_map_tableAt {α : Type} (t : Vector α 256) : t.toList = allBytes.map (tableAt t) := by
  have : t = tableOf (tableAt t) := table_ext fun b => by simp
  calc t.toList = (tableOf (tableAt t)).toList := congrArg _ this
    _ = allBytes.map (tableAt t) := by simp [tableOf]

/-- The present symbols are the byte values whose entry is not 0 (00_scope.md R17). -/
theorem presentSymbols_eq (freq : Vector Word 256) :
    presentSymbols freq = allBytes.filter (fun b => tableAt freq b ≠ 0) := by
  have zip : ∀ l : List Byte, l.zip (l.map (tableAt freq)) = l.map (fun b => (b, tableAt freq b)) := by
    intro l; induction l <;> simp_all
  rw [presentSymbols, toList_eq_map_tableAt, zip, List.filter_map, List.map_map]
  simp [Function.comp_def]

theorem presentSymbols_sorted (freq : Vector Word 256) :
    (presentSymbols freq).Pairwise (fun b c => b.toNat < c.toNat) := by
  rw [presentSymbols_eq]; exact allBytes_sorted.filter _

theorem presentSymbols_nodup (freq : Vector Word 256) : (presentSymbols freq).Nodup :=
  (presentSymbols_sorted freq).imp fun h e => by simp [e] at h

@[simp] theorem mem_presentSymbols {freq : Vector Word 256} {b : Byte} :
    b ∈ presentSymbols freq ↔ tableAt freq b ≠ 0 := by
  simp [presentSymbols_eq]

/-- NSYM is at most 256 (10_state.md R32). -/
theorem nsym_le (freq : Vector Word 256) : nsym freq ≤ 256 := by
  have := List.length_filter_le (fun b => decide (tableAt freq b ≠ 0)) allBytes
  simpa [nsym, presentSymbols_eq, allBytes] using this

theorem nsym_eq_zero {freq : Vector Word 256} : nsym freq = 0 ↔ ∀ b, tableAt freq b = 0 := by
  rw [nsym, List.length_eq_zero_iff, List.eq_nil_iff_forall_not_mem]
  simp

/-- Two strictly ascending lists with the same members are equal. -/
theorem ascending_ext {l m : List Byte} (hl : l.Pairwise (fun b c => b.toNat < c.toNat))
    (hm : m.Pairwise (fun b c => b.toNat < c.toNat)) (h : ∀ b, b ∈ l ↔ b ∈ m) : l = m := by
  have nd : ∀ {k : List Byte}, k.Pairwise (fun b c => b.toNat < c.toNat) → k.Nodup := fun hk =>
    hk.imp fun h e => by simp [e] at h
  exact List.Perm.eq_of_pairwise (fun a b _ _ h1 h2 => absurd h1 (by omega)) hl hm
    ((List.perm_ext_iff_of_nodup (nd hl) (nd hm)).2 h)

/-! ## The table of a container and FREQ -/

@[simp] theorem tableOfFreq_length (freq : Vector Word 256) : (tableOfFreq freq).length = nsym freq := by
  simp [tableOfFreq, nsym]

theorem tableOfFreq_wf (freq : Vector Word 256) : TableWf (tableOfFreq freq) := by
  refine ⟨List.pairwise_map.2 (presentSymbols_sorted freq), fun e he => ?_⟩
  obtain ⟨b, hb, rfl⟩ := List.mem_map.1 he
  exact mem_presentSymbols.1 hb

theorem find_sym {t : List Entry} (h : t.Pairwise (fun x y => x.sym.toNat < y.sym.toNat)) {e : Entry} (he : e ∈ t) :
    t.find? (fun x => x.sym == e.sym) = some e := by
  induction t with
  | nil => simp at he
  | cons d t ih =>
    obtain ⟨hd, ht⟩ := List.pairwise_cons.1 h
    rcases List.mem_cons.1 he with rfl | he
    · simp
    · have : d.sym ≠ e.sym := fun eq => by have := hd e he; simp [eq] at this
      rw [List.find?_cons_of_neg (by simpa using this)]
      exact ih ht he

/-- The entry a well-formed table gives a byte value. -/
theorem freqOfTable_at {t : List Entry} (h : TableWf t) {e : Entry} (he : e ∈ t) :
    tableAt (freqOfTable t) e.sym = e.count := by
  simp [freqOfTable, find_sym h.1 he]

theorem freqOfTable_ne_zero {t : List Entry} (h : TableWf t) (b : Byte) :
    tableAt (freqOfTable t) b ≠ 0 ↔ ∃ e ∈ t, e.sym = b := by
  constructor
  · intro hb
    by_contra hn
    have : t.find? (fun x => x.sym == b) = none := by
      rw [List.find?_eq_none]
      intro x hx hxb
      exact hn ⟨x, hx, by simpa using hxb⟩
    simp [freqOfTable, this] at hb
  · rintro ⟨e, he, rfl⟩
    rw [freqOfTable_at h he]
    exact h.2 e he

theorem presentSymbols_freqOfTable {t : List Entry} (h : TableWf t) :
    presentSymbols (freqOfTable t) = t.map (·.sym) := by
  refine ascending_ext (presentSymbols_sorted _) (List.pairwise_map.2 h.1) fun b => ?_
  rw [mem_presentSymbols, freqOfTable_ne_zero h]
  simp

/-- FREQ holds a well-formed table exactly (44_container_codec.md R196). -/
theorem tableOfFreq_freqOfTable {t : List Entry} (h : TableWf t) : tableOfFreq (freqOfTable t) = t := by
  rw [tableOfFreq, presentSymbols_freqOfTable h, List.map_map]
  refine (List.map_congr_left fun e he => ?_).trans (List.map_id t)
  simp only [Function.comp_apply, freqOfTable_at h he, id]

/-- A table of FREQ restores FREQ (44_container_codec.md R196). -/
theorem freqOfTable_tableOfFreq (freq : Vector Word 256) : freqOfTable (tableOfFreq freq) = freq := by
  refine table_ext fun b => ?_
  by_cases hb : tableAt freq b = 0
  · rw [hb]
    by_contra hn
    obtain ⟨e, he, rfl⟩ := (freqOfTable_ne_zero (tableOfFreq_wf freq) b).1 hn
    obtain ⟨c, hc, rfl⟩ := List.mem_map.1 he
    exact mem_presentSymbols.1 hc hb
  · exact freqOfTable_at (tableOfFreq_wf freq)
      (e := ⟨b, tableAt freq b⟩) (List.mem_map.2 ⟨b, mem_presentSymbols.2 hb, rfl⟩)

end Sys2Proof.Machine
end

