-- ==== Sys2Proof/Laws/Tree.lean ====
section
/-! SUPPORT. What BUILD's loop keeps, and the finished arena (42_tree_builder.md R140 to R144). -/

namespace Sys2Proof.Machine

/-- Record i of an arena (the all-zero record past its end). -/
abbrev recordIn (arena : List Node) (i : Nat) : Node := arena.getD i .zero

/-- The order of SELECT on a function giving the records. -/
def BeforeIn (r : Nat → Node) (i j : Nat) : Prop :=
  (r i).weight.toNat < (r j).weight.toNat ∨ (r i).weight.toNat = (r j).weight.toNat ∧ i < j

/-- Live at m: below m and the child of no internal record below m (42_tree_builder.md R140). -/
def LiveIn (r : Nat → Node) (m i : Nat) : Prop :=
  i < m ∧ ∀ j, j < m → (r j).leaf = false → (r j).left.toNat ≠ i ∧ (r j).right.toNat ≠ i

/-- `keyBefore` is the order of SELECT. -/
theorem keyBefore_iff (arena : List Node) (i j : Nat) :
    keyBefore arena i j = true ↔ BeforeIn (recordIn arena) i j := by
  simp [keyBefore, weightAt, BeforeIn]

theorem BeforeIn.trans {r : Nat → Node} {i j k : Nat} (h : BeforeIn r i j) (g : BeforeIn r j k) : BeforeIn r i k := by
  unfold BeforeIn at *; omega

theorem BeforeIn.total (r : Nat → Node) {i j : Nat} (h : i ≠ j) : BeforeIn r i j ∨ BeforeIn r j i := by
  unfold BeforeIn; omega

/-- The fold of SELECT keeps the least element seen. -/
theorem foldl_select (arena : List Node) (q : List Nat) (i : Nat) :
    let b := q.foldl (fun best j => if keyBefore arena j best then j else best) i
    b ∈ i :: q ∧ ∀ j ∈ i :: q, j ≠ b → BeforeIn (recordIn arena) b j := by
  induction q generalizing i with
  | nil => simp
  | cons k q ih =>
    simp only [List.foldl_cons]
    by_cases hk : keyBefore arena k i = true
    · simp only [hk, if_true]
      obtain ⟨h1, h2⟩ := ih k
      refine ⟨by simp only [List.mem_cons] at *; tauto, fun j hj hne => ?_⟩
      rcases List.mem_cons.1 hj with rfl | hj
      · by_cases hkb : k = q.foldl (fun best j => if keyBefore arena j best then j else best) k
        · rw [← hkb]; exact (keyBefore_iff ..).1 hk
        · exact (h2 k (by simp) hkb).trans ((keyBefore_iff ..).1 hk)
      · exact h2 j hj hne
    · simp only [hk]
      obtain ⟨h1, h2⟩ := ih i
      refine ⟨by simp only [List.mem_cons] at *; tauto, fun j hj hne => ?_⟩
      rcases List.mem_cons.1 hj with rfl | hj
      · exact h2 j (by simp) hne
      · rcases List.mem_cons.1 hj with rfl | hj
        · rw [keyBefore_iff] at hk
          by_cases hji : j = i
          · subst hji; exact h2 j (by simp) hne
          have hij : BeforeIn (recordIn arena) i j := (BeforeIn.total _ hji).resolve_left hk
          by_cases hib : i = q.foldl (fun best j => if keyBefore arena j best then j else best) i
          · exact hib ▸ hij
          · exact (h2 i (by simp) hib).trans hij
        · exact h2 j (by simp [hj]) hne

/-- SELECT gives the least element of a non-empty Q. -/
theorem select_spec (arena : List Node) {q : List Nat} (h : q ≠ []) :
    select arena q ∈ q ∧ ∀ j ∈ q, j ≠ select arena q → BeforeIn (recordIn arena) (select arena q) j := by
  cases q with
  | nil => exact absurd rfl h
  | cons i q => exact foldl_select arena q i

/-- What the record written at m is: the merge of the two least live records. -/
structure MergeRec (r : Nat → Node) (m : Nat) : Prop where
  leaf : (r m).leaf = false
  used : (r m).used = true
  sym : (r m).sym = 0
  left : LiveIn r m (r m).left.toNat
  right : LiveIn r m (r m).right.toNat
  ne : (r m).left ≠ (r m).right
  first : ∀ j, LiveIn r m j → j ≠ (r m).left.toNat → BeforeIn r (r m).left.toNat j
  second : ∀ j, LiveIn r m j → j ≠ (r m).left.toNat → j ≠ (r m).right.toNat → BeforeIn r (r m).right.toNat j
  weight : (r m).weight.toNat = (r (r m).left.toNat).weight.toNat + (r (r m).right.toNat).weight.toNat

/-- What the loop of BUILD keeps: the arena so far and the set Q (42_tree_builder.md R140 to R143). -/
structure MergeInv (freq : Vector Word 256) (arena : List Node) (q : List Nat) : Prop where
  seeded : arena.take (nsym freq) = seed freq
  ge : nsym freq ≤ arena.length
  len : arena.length + q.length = 2 * nsym freq
  pos : 1 ≤ q.length
  asc : q.Pairwise (· < ·)
  live : ∀ i, i ∈ q ↔ LiveIn (recordIn arena) arena.length i
  merged : ∀ m, nsym freq ≤ m → m < arena.length → MergeRec (recordIn arena) m
  sum : (q.map (fun i => (recordIn arena i).weight.toNat)).sum = ((presentSymbols freq).map
      (fun b => (tableAt freq b).toNat)).sum

theorem recordIn_append {arena : List Node} {x : Node} {i : Nat} (h : i < arena.length) :
    recordIn (arena ++ [x]) i = recordIn arena i := by
  simp [List.getElem?_append_left h]

theorem recordIn_append_last (arena : List Node) (x : Node) : recordIn (arena ++ [x]) arena.length = x := by simp

theorem LiveIn.congr {r r' : Nat → Node} {m : Nat} (h : ∀ i, i < m → r i = r' i) (i : Nat) :
    LiveIn r m i ↔ LiveIn r' m i := by
  constructor
  · rintro ⟨h1, h2⟩; exact ⟨h1, fun j hj hl => by rw [← h j hj] at hl ⊢; exact h2 j hj hl⟩
  · rintro ⟨h1, h2⟩; exact ⟨h1, fun j hj hl => by rw [h j hj] at hl ⊢; exact h2 j hj hl⟩

theorem MergeRec.congr {r r' : Nat → Node} {m : Nat} (h : ∀ i, i ≤ m → r i = r' i) (g : MergeRec r m) :
    MergeRec r' m := by
  have hm := h m le_rfl
  have hl := LiveIn.congr (r := r) (r' := r') (m := m) (fun i hi => h i (by omega))
  have e1 : r' (r m).left.toNat = r (r m).left.toNat := (h _ (by have := g.left.1; omega)).symm
  have e2 : r' (r m).right.toNat = r (r m).right.toNat := (h _ (by have := g.right.1; omega)).symm
  constructor <;> rw [← hm]
  · exact g.leaf
  · exact g.used
  · exact g.sym
  · exact (hl _).1 g.left
  · exact (hl _).1 g.right
  · exact g.ne
  · intro j hj hne
    have hj' := (hl _).2 hj
    have := g.first j hj' hne
    unfold BeforeIn at *; rwa [e1, ← h j (by have := hj.1; omega)]
  · intro j hj hne hne'
    have hj' := (hl _).2 hj
    have := g.second j hj' hne hne'
    unfold BeforeIn at *; rwa [e2, ← h j (by have := hj.1; omega)]
  · rw [e1, e2]; exact g.weight

/-- The sum of all counts fits the 40 bits of a weight (00_scope.md R8). -/
theorem sum_present_lt (freq : Vector Word 256) :
    ((presentSymbols freq).map (fun b => (tableAt freq b).toNat)).sum < 2 ^ 40 := by
  have h1 : ∀ l : List Byte, (l.map (fun b => (tableAt freq b).toNat)).sum ≤ l.length * (2^32 - 1) := by
    intro l
    induction l with
    | nil => simp
    | cons b l ih =>
      have := (tableAt freq b).isLt
      simp only [List.map_cons, List.sum_cons, List.length_cons, Nat.add_mul, Nat.one_mul]; omega
  have h2 := h1 (presentSymbols freq)
  have h3 := nsym_le freq
  unfold nsym at h3
  have : (presentSymbols freq).length * (2^32-1) ≤ 256 * (2^32-1) := Nat.mul_le_mul_right _ h3
  omega

/-- Taking an element out of a sum. -/
theorem sum_erase (q : List Nat) (f : Nat → Nat) {a : Nat} (h : a ∈ q) :
    f a + ((q.erase a).map f).sum = (q.map f).sum := by
  have := (List.perm_cons_erase h).map f
  rw [this.sum_eq]; simp

/-- The seeded leaves (42_tree_builder.md R141). -/
theorem recordIn_seed {freq : Vector Word 256} {i : Nat} (hi : i < nsym freq) :
    recordIn (seed freq) i = leafNode freq ((presentSymbols freq)[i]'hi) := by
  have hi' : i < (presentSymbols freq).length := hi
  simp [recordIn, seed, List.getElem?_eq_getElem hi']
  rfl

/-- One merge keeps the invariant. -/
theorem mergeInv_step {freq : Vector Word 256} {arena : List Node} {q : List Nat} (h : MergeInv freq arena q)
    (h2 : 2 ≤ q.length) {a c : Nat} (hA : select arena q = a) (hC : select arena (q.erase a) = c) :
    MergeInv freq (arena ++ [mergeNode arena a c]) ((q.erase a).erase c ++ [arena.length]) := by
  have hq : q ≠ [] := by rintro rfl; simp at h2
  obtain ⟨ha, ha'⟩ := select_spec arena hq
  rw [hA] at ha ha'
  have hl1 : (q.erase a).length = q.length - 1 := List.length_erase_of_mem ha
  have hq1 : (q.erase a) ≠ [] := by intro e; rw [e] at hl1; simp at hl1; omega
  obtain ⟨hc, hc'⟩ := select_spec arena hq1
  rw [hC] at hc hc'
  have hnd : q.Nodup := h.asc.imp (fun h => by omega)
  have hcq : c ∈ q := List.mem_of_mem_erase hc
  have hca : c ≠ a := by
    intro e
    exact (List.Nodup.not_mem_erase hnd) (e ▸ hc)
  have hla := (h.live a).1 ha
  have hlc := (h.live c).1 hcq
  have hlen := h.len
  have hge := h.ge
  have hlen511 : arena.length < 511 := by have := nsym_le freq; omega
  have la : (mergeNode arena a c).left.toNat = a := by simp [mergeNode]; have := hla.1; omega
  have lc : (mergeNode arena a c).right.toNat = c := by simp [mergeNode]; have := hlc.1; omega
  have hsum : (recordIn arena a).weight.toNat + (recordIn arena c).weight.toNat +
      (((q.erase a).erase c).map (fun i => (recordIn arena i).weight.toNat)).sum = (q.map
      (fun i => (recordIn arena i).weight.toNat)).sum := by
    have e1 := sum_erase q (fun i => (recordIn arena i).weight.toNat) ha
    have e2 := sum_erase (q.erase a) (fun i => (recordIn arena i).weight.toNat) hc
    omega
  have hw : (mergeNode arena a c).weight.toNat = (recordIn arena a).weight.toNat +
      (recordIn arena c).weight.toNat := by
    have := sum_present_lt freq
    have := h.sum
    simp only [mergeNode, weightAt, BitVec.toNat_add]
    exact Nat.mod_eq_of_lt (show (recordIn arena a).weight.toNat + (recordIn arena c).weight.toNat < 2 ^ 40 by omega)
  have hagree : ∀ i, i < arena.length → recordIn arena i = recordIn (arena ++ [mergeNode arena a c]) i :=
      fun i hi => (recordIn_append hi).symm
  have hlast := recordIn_append_last arena (mergeNode arena a c)
  have hlive := LiveIn.congr hagree
  have hmem : ∀ i, i ∈ (q.erase a).erase c ↔ i ∈ q ∧ i ≠ a ∧ i ≠ c := by
    intro i
    rw [(hnd.erase a).mem_erase_iff, hnd.mem_erase_iff]; tauto
  constructor
  · rw [List.take_append_of_le_length h.ge, h.seeded]
  · simp; omega
  · simp [List.length_erase_of_mem hc, hl1]; omega
  · simp
  · rw [List.pairwise_append]
    refine ⟨(h.asc.sublist ((List.erase_sublist).trans List.erase_sublist)), by simp, ?_⟩
    intro i hi j hj
    simp at hj; subst hj
    exact ((h.live i).1 ((hmem i).1 hi).1).1
  · intro i
    rw [List.mem_append, hmem]
    simp only [List.mem_singleton, List.length_append, List.length_singleton]
    constructor
    · rintro (⟨hi, hia, hic⟩ | rfl)
      · have hl := (hlive i).1 ((h.live i).1 hi)
        refine ⟨by have := hl.1; omega, fun j hj hlf => ?_⟩
        by_cases hj' : j < arena.length
        · exact hl.2 j hj' hlf
        · have : j = arena.length := by omega
          subst this; rw [hlast, la, lc]; exact ⟨Ne.symm hia, Ne.symm hic⟩
      · refine ⟨by omega, fun j hj hlf => ?_⟩
        by_cases hj' : j < arena.length
        · rw [← hagree j hj'] at hlf ⊢
          have hj'' : nsym freq ≤ j := by
            by_contra hn
            have : recordIn arena j = recordIn (seed freq) j := by
              rw [← h.seeded]; simp [show j < nsym freq by omega]
            rw [this, recordIn_seed (by omega)] at hlf
            simp [leafNode] at hlf
          have g := h.merged j hj'' hj'
          have := g.left.1; have := g.right.1; omega
        · have : j = arena.length := by omega
          subst this; rw [hlast, la, lc]; have := hla.1; have := hlc.1; omega
    · rintro ⟨h1, h3⟩
      by_cases hi : i < arena.length
      · left
        have hz := h3 arena.length (by omega) (by rw [hlast]; rfl)
        rw [hlast, la, lc] at hz
        refine ⟨(h.live i).2 ((hlive i).2 ⟨hi, fun j hj => h3 j (by omega)⟩), Ne.symm hz.1, Ne.symm hz.2⟩
      · right; omega
  · intro m hm hm'
    by_cases hlt : m < arena.length
    · exact (h.merged m hm hlt).congr (fun i hi => hagree i (by omega))
    · have : m = arena.length := by simp at hm'; omega
      subst this
      have bef : ∀ x y, x < arena.length → y < arena.length → BeforeIn (recordIn arena) x y → BeforeIn
          (recordIn (arena ++ [mergeNode arena a c])) x y := by
        intro x y hx hy hb
        unfold BeforeIn at *; rwa [← hagree x hx, ← hagree y hy]
      constructor <;> rw [hlast]
      · rfl
      · rfl
      · rfl
      · rw [la]; exact (hlive a).1 hla
      · rw [lc]; exact (hlive c).1 hlc
      · intro e; exact hca (lc.symm.trans ((congrArg BitVec.toNat e).symm.trans la))
      · intro j hj hne
        rw [la] at hne ⊢
        have hj' := (hlive j).2 hj
        exact bef _ _ hla.1 hj.1 (ha' j ((h.live j).2 hj') hne)
      · intro j hj hne hne'
        rw [la] at hne; rw [lc] at hne' ⊢
        have hj' := (hlive j).2 hj
        exact bef _ _ hlc.1 hj.1 (hc' j ((hnd.mem_erase_iff).2 ⟨hne, (h.live j).2 hj'⟩) hne')
      · rw [la, lc, ← hagree _ hla.1, ← hagree _ hlc.1]; exact hw
  · rw [List.map_append, List.sum_append, ← h.sum, ← hsum]
    simp only [List.map_cons, List.map_nil, List.sum_cons, List.sum_nil, hlast, hw]
    have : ((q.erase a).erase c).map (fun i => (recordIn (arena ++ [mergeNode arena a c]) i).weight.toNat) =
        ((q.erase a).erase c).map (fun i => (recordIn arena i).weight.toNat) := by
      apply List.map_congr_left
      intro i hi
      rw [← hagree i ((h.live i).1 ((hmem i).1 hi).1).1]
    rw [this]; omega

/-- The loop keeps the invariant and ends with one element in Q. -/
theorem mergeInv_loop {freq : Vector Word 256} (k : Nat) {arena : List Node} {q : List Nat}
    (h : MergeInv freq arena q) (hk : q.length ≤ k + 1) :
    MergeInv freq (mergeLoop k arena q).1 (mergeLoop k arena q).2 ∧ (mergeLoop k arena q).2.length = 1 := by
  induction k generalizing arena q with
  | zero => exact ⟨h, by have := h.pos; simp [mergeLoop]; omega⟩
  | succ k ih =>
    unfold mergeLoop
    split_ifs with h2
    · refine ih (mergeInv_step h h2 rfl rfl) ?_
      have hq : q ≠ [] := by rintro rfl; simp at h2
      obtain ⟨ha, ha'⟩ := select_spec arena hq
      have hl1 : (q.erase (select arena q)).length = q.length - 1 := List.length_erase_of_mem ha
      have hq1 : q.erase (select arena q) ≠ [] := by intro e; rw [e] at hl1; simp at hl1; omega
      obtain ⟨hc, hc'⟩ := select_spec arena hq1
      rw [List.length_append, List.length_erase_of_mem hc, hl1]; simp; omega
    · exact ⟨h, by have := h.pos; simp; omega⟩

/-- The seed meets the invariant. -/
theorem mergeInv_init {freq : Vector Word 256} (h : nsym freq ≠ 0) :
    MergeInv freq (seed freq) (List.range (nsym freq)) := by
  have hl : (seed freq).length = nsym freq := by simp [seed, nsym]
  have hrec := @recordIn_seed freq
  constructor
  · rw [List.take_of_length_le (by omega)]
  · omega
  · simp [hl]; omega
  · simp; omega
  · exact List.pairwise_lt_range
  · intro i
    rw [List.mem_range, hl]
    constructor
    · intro hi; exact ⟨hi, fun j hj hlf => by rw [hrec hj] at hlf; simp [leafNode] at hlf⟩
    · exact fun h => h.1
  · intro m h1 h2; omega
  · congr 1
    apply List.ext_getElem
    · simp [nsym]
    · intro i h1 h2
      simp at h1
      simp only [List.getElem_map, List.getElem_range]
      rw [hrec h1]
      simp [leafNode]
      exact Nat.mod_eq_of_lt (by have := (tableAt freq (presentSymbols freq)[i]).isLt; omega)

/-- The finished arena meets the invariant, with one element left in Q (42_tree_builder.md R144). -/
theorem built_spec {freq : Vector Word 256} (h : nsym freq ≠ 0) :
    MergeInv freq (builtArena freq).1 (builtArena freq).2 ∧ (builtArena freq).2.length = 1 :=
  mergeInv_loop _ (mergeInv_init h) (by simp; omega)

/-- The finished arena has 2*NSYM - 1 records (42_tree_builder.md R144). -/
theorem built_length {freq : Vector Word 256} (h : nsym freq ≠ 0) :
    (builtArena freq).1.length = 2 * nsym freq - 1 := by
  obtain ⟨h1, h2⟩ := built_spec h
  have := h1.len; omega

/-- The records of NODE after BUILD are the records of the finished arena. -/
theorem recordAt_build {freq : Vector Word 256} (h : nsym freq ≠ 0) (i : Nat) :
    recordAt (buildTree freq).node i = recordIn (builtArena freq).1 i := by
  have hl := built_length h
  have := nsym_le freq
  simp only [recordAt, buildTree]
  by_cases hi : i < 511
  · simp [hi]
  · rw [Vector.getElem?_eq_none (by omega)]
    simp [recordIn, List.getElem?_eq_none (show (builtArena freq).1.length ≤ i by omega)]

/-- The root is the last record (42_tree_builder.md R144). -/
theorem built_root {freq : Vector Word 256} (h : nsym freq ≠ 0) :
    rootOf (builtArena freq).2 = 2 * nsym freq - 2 ∧ (builtArena freq).2 = [2 * nsym freq - 2] := by
  obtain ⟨h1, h2⟩ := built_spec h
  obtain ⟨r, hr⟩ := List.length_eq_one_iff.1 h2
  have hl := built_length h
  have hlive : LiveIn (recordIn (builtArena freq).1) (builtArena freq).1.length ((builtArena freq).1.length - 1) := by
    refine ⟨by omega, fun j hj hlf => ?_⟩
    have hj'' : nsym freq ≤ j := by
      by_contra hn
      have : recordIn (builtArena freq).1 j = recordIn (seed freq) j := by
        rw [← h1.seeded]; simp [show j < nsym freq by omega]
      rw [this, recordIn_seed (by omega)] at hlf
      simp [leafNode] at hlf
    have g := h1.merged j hj'' hj
    have := g.left.1; have := g.right.1; omega
  have := (h1.live _).2 hlive
  rw [hr] at this
  simp at this
  rw [hr]
  constructor
  · simp [rootOf]; omega
  · simp; omega

/-- Record i below NSYM is the leaf of the i-th present symbol (42_tree_builder.md R141). -/
theorem built_leaf {freq : Vector Word 256} (h : nsym freq ≠ 0) (i : Nat) (hi : i < nsym freq) :
    recordIn (builtArena freq).1 i = leafNode freq ((presentSymbols freq)[i]'hi) := by
  obtain ⟨h1, h2⟩ := built_spec h
  have : recordIn (builtArena freq).1 i = recordIn (seed freq) i := by
    rw [← h1.seeded]; simp [hi]
  rw [this, recordIn_seed hi]

/-- Exactly the records below NSYM are leaves; all are used. -/
theorem built_leaf_iff {s : State} (hn : nsym s.freq ≠ 0) (m) (h : m < 2 * nsym s.freq - 1) :
    ((recordIn (builtArena s.freq).1 m).leaf = true ↔ m < nsym s.freq) ∧
    (recordIn (builtArena s.freq).1 m).used = true := by
  obtain ⟨hb, -⟩ := built_spec hn
  have hl := built_length hn
  by_cases hm : m < nsym s.freq
  · rw [built_leaf hn m hm]; simp [leafNode, hm]
  · have g := hb.merged m (by omega) (by omega)
    exact ⟨by rw [g.leaf]; simp [hm], g.used⟩

end Sys2Proof.Machine
end

