-- ==== Sys2Proof/Laws/Codes.lean ====
section
/-! SUPPORT. The code tree of the finished arena, and the codes BUILD writes (42_tree_builder.md R145 to R149). -/

namespace Sys2Proof.Machine

/-- The tree below a record, as a tree. -/
inductive CodeTree where
  | leaf (b : Byte) (w : Nat)
  | node (l r : CodeTree)

/-- The codes of the leaves: 0 to the first child, 1 to the second (42_tree_builder.md R145). -/
def CodeTree.codes : CodeTree → List (Byte × Bits)
  | .leaf b _ => [(b, [])]
  | .node l r => l.codes.map (fun e => (e.1, false :: e.2)) ++ r.codes.map (fun e => (e.1, true :: e.2))

/-- The leaves with their weights, in the order of the codes. -/
def CodeTree.leaves : CodeTree → List (Byte × Nat)
  | .leaf b w => [(b, w)]
  | .node l r => l.leaves ++ r.leaves

theorem CodeTree.codes_fst (t : CodeTree) : t.codes.map (·.1) = t.leaves.map (·.1) := by
  induction t with
  | leaf => rfl
  | node l r hl hr => simp [codes, leaves, ← hl, ← hr, Function.comp_def]

theorem CodeTree.codes_pos (t : CodeTree) : t.leaves.length ≠ 0 := by
  induction t with
  | leaf => simp [leaves]
  | node l r hl hr => simp [leaves] at *; tauto

/-- The tree below record m, read to depth k. -/
def treeAt (arena : List Node) : Nat → Nat → CodeTree
  | 0, _ => .leaf 0 0
  | k + 1, m => if (recordIn arena m).leaf then .leaf (recordIn arena m).sym (recordIn arena m).weight.toNat
     else .node (treeAt arena k (recordIn arena m).left.toNat) (treeAt arena k (recordIn arena m).right.toNat)

/-- `pathCodes` gives the codes of the tree below a record. -/
theorem pathCodes_eq (arena : List Node) (k m : Nat) (path : Bits)
    (hc : ∀ j, j ≤ m → (recordIn arena j).leaf = false → (recordIn arena j).left.toNat < j ∧
    (recordIn arena j).right.toNat < j) (h : m < k) :
    pathCodes arena k m path = (treeAt arena k m).codes.map (fun e => (e.1, path ++ e.2)) := by
  induction k generalizing m path with
  | zero => omega
  | succ k ih =>
    unfold pathCodes treeAt
    show (if (recordIn arena m).leaf then [((recordIn arena m).sym, path)] else pathCodes arena k
        (recordIn arena m).left.toNat (path ++ [false]) ++ pathCodes arena k (recordIn arena m).right.toNat
        (path ++ [true])) = _
    have hcm := hc m le_rfl
    generalize recordIn arena m = nd at hcm ⊢
    cases hl : nd.leaf with
    | true => simp [CodeTree.codes]
    | false =>
      have := hcm hl
      rw [if_neg (by simp), if_neg (by simp)]
      rw [ih _ _ (fun j hj => hc j (by omega)) (by omega), ih _ _ (fun j hj => hc j (by omega)) (by omega)]
      simp [CodeTree.codes, Function.comp_def]

/-- Any depth above the index gives the same tree. -/
theorem treeAt_fuel (arena : List Node) (k k' m : Nat)
    (hc : ∀ j, j ≤ m → (recordIn arena j).leaf = false → (recordIn arena j).left.toNat < j ∧
    (recordIn arena j).right.toNat < j) (h : m < k) (h' : m < k') :
    treeAt arena k m = treeAt arena k' m := by
  induction k generalizing m k' with
  | zero => omega
  | succ k ih =>
    cases k' with
    | zero => omega
    | succ k' =>
    unfold treeAt
    cases hl : (recordIn arena m).leaf with
    | true => rfl
    | false =>
      have := hc m le_rfl hl
      simp only [Bool.false_eq_true, if_false]
      rw [ih k' _ (fun j hj => hc j (by omega)) (by omega) (by omega), ih k' _ (fun j hj => hc j (by omega))
          (by omega) (by omega)]

/-- Appending a record does not change the trees of the records before it. -/
theorem treeAt_append (arena : List Node) (x : Node) (k m : Nat)
    (hc : ∀ j, j ≤ m → (recordIn arena j).leaf = false → (recordIn arena j).left.toNat < j ∧
    (recordIn arena j).right.toNat < j) (h : m < k) (hm : m < arena.length) :
    treeAt (arena ++ [x]) k m = treeAt arena k m := by
  induction k generalizing m with
  | zero => omega
  | succ k ih =>
    unfold treeAt
    rw [recordIn_append hm]
    cases hl : (recordIn arena m).leaf with
    | true => rfl
    | false =>
      have := hc m le_rfl hl
      simp only [Bool.false_eq_true, if_false]
      rw [ih _ (fun j hj => hc j (by omega)) (by omega) (by omega), ih _ (fun j hj => hc j (by omega)) (by omega)
          (by omega)]

/-- Internal records stand above the leaves and point below themselves (10_state.md R43). -/
theorem MergeInv.children {freq arena q} (h : MergeInv freq arena q) (j : Nat) (hj : j < arena.length)
    (hl : (recordIn arena j).leaf = false) : nsym freq ≤ j ∧ (recordIn arena j).left.toNat < j ∧
    (recordIn arena j).right.toNat < j := by
  have hj'' : nsym freq ≤ j := by
    by_contra hn
    have : recordIn arena j = recordIn (seed freq) j := by
      rw [← h.seeded]; simp [show j < nsym freq by omega]
    rw [this, recordIn_seed (by omega)] at hl
    simp [leafNode] at hl
  have g := h.merged j hj'' hj
  exact ⟨hj'', g.left.1, g.right.1⟩

/-- the tree standing at index i -/
def treeOf (arena : List Node) (i : Nat) : CodeTree := treeAt arena (i+1) i

/-- The total weight of a tree. -/
def CodeTree.weight : CodeTree → Nat | .leaf _ w => w | .node l r => l.weight + r.weight

/-- The trees of Q: their leaves are the present symbols, and a record holds the weight of its tree. -/
structure ForestInv (freq : Vector Word 256) (arena : List Node) (q : List Nat) : Prop where
  m : MergeInv freq arena q
  leaves : (q.flatMap (fun i => (treeOf arena i).leaves)).Perm
      ((presentSymbols freq).map (fun b => (b, (tableAt freq b).toNat)))
  weight : ∀ i, i < arena.length → (treeOf arena i).weight = (recordIn arena i).weight.toNat

theorem forestInv_init {freq : Vector Word 256} (h : nsym freq ≠ 0) :
    ForestInv freq (seed freq) (List.range (nsym freq)) := by
  have e : ∀ i, (hi : i < nsym freq) → treeOf (seed freq) i = .leaf ((presentSymbols freq)[i]'hi)
      (tableAt freq ((presentSymbols freq)[i]'hi)).toNat := by
    intro i hi
    simp only [treeOf, treeAt, recordIn_seed hi]
    simp [leafNode]
    have := (tableAt freq ((presentSymbols freq)[i]'hi)).isLt
    exact (by omega)
  refine ⟨mergeInv_init h, ?_, ?_⟩
  · have : (List.range (nsym freq)).flatMap (fun i => (treeOf (seed freq) i).leaves) = (List.range
      (nsym freq)).flatMap
      (fun i => [((presentSymbols freq).map (fun b => (b, (tableAt freq b).toNat))).getD i (0,0)]) := by
      apply List.flatMap_congr
      intro i hi
      rw [List.mem_range] at hi
      rw [e i hi]
      have hi' : i < (presentSymbols freq).length := hi
      simp [CodeTree.leaves, hi']
      exact ⟨rfl, rfl⟩
    rw [this]
    apply List.Perm.of_eq
    rw [← List.map_eq_flatMap]
    apply List.ext_getElem
    · simp [nsym]
    · intro i h1 h2
      simp at h1 h2
      simp [h2]
  · intro i hi
    have hi : i < nsym freq := by simpa [seed, nsym] using hi
    rw [e i hi, recordIn_seed hi]
    have := (tableAt freq ((presentSymbols freq)[i]'hi)).isLt
    simp [CodeTree.weight, leafNode]
    exact (Nat.mod_eq_of_lt (by omega)).symm

/-- Taking two elements out of a flat list. -/
theorem perm_two {α : Type} {β : Type} [DecidableEq α] (q : List α) (f : α → List β) {a c : α} (ha : a ∈ q)
    (hc : c ∈ q.erase a) :
    (q.flatMap f).Perm (((q.erase a).erase c).flatMap f ++ (f a ++ f c)) := by
  have h1 := (List.perm_cons_erase ha).flatMap_right f
  have h2 := (List.perm_cons_erase hc).flatMap_right f
  rw [List.flatMap_cons] at h1 h2
  refine h1.trans (((h2.append_left (f a))).trans ?_)
  rw [← List.append_assoc]
  exact List.perm_append_comm

/-- One merge replaces two trees of Q by their join. -/
theorem forestInv_step {freq : Vector Word 256} {arena : List Node} {q : List Nat} (h : ForestInv freq arena q)
    (h2 : 2 ≤ q.length) {a c : Nat} (hA : select arena q = a) (hC : select arena (q.erase a) = c) :
    ForestInv freq (arena ++ [mergeNode arena a c]) ((q.erase a).erase c ++ [arena.length]) ∧
     treeOf (arena ++ [mergeNode arena a c]) arena.length = .node (treeOf arena a) (treeOf arena c) ∧
     (∀ i, i < arena.length → treeOf (arena ++ [mergeNode arena a c]) i = treeOf arena i) := by
  have hq : q ≠ [] := by rintro rfl; simp at h2
  obtain ⟨ha, ha'⟩ := select_spec arena hq
  rw [hA] at ha ha'
  have hl1 : (q.erase a).length = q.length - 1 := List.length_erase_of_mem ha
  have hq1 : (q.erase a) ≠ [] := by intro e; rw [e] at hl1; simp at hl1; omega
  obtain ⟨hc, hc'⟩ := select_spec arena hq1
  rw [hC] at hc hc'
  have hcq : c ∈ q := List.mem_of_mem_erase hc
  have hla := ((h.m.live a).1 ha).1
  have hlc := ((h.m.live c).1 hcq).1
  have hm := mergeInv_step h.m h2 hA hC
  have old : ∀ i, i < arena.length → treeOf (arena ++ [mergeNode arena a c]) i = treeOf arena i := by
    intro i hi
    exact treeAt_append _ _ _ _ (fun j hj hl => (h.m.children j (by omega) hl).2) (by omega) hi
  have hlen511 : arena.length < 511 := by have := nsym_le freq; have := h.m.len; have := h.m.ge; omega
  have la : (mergeNode arena a c).left.toNat = a := by simp [mergeNode]; omega
  have lc : (mergeNode arena a c).right.toNat = c := by simp [mergeNode]; omega
  have new : treeOf (arena ++ [mergeNode arena a c]) arena.length = .node (treeOf arena a) (treeOf arena c) := by
    unfold treeOf
    rw [show treeAt (arena ++ [mergeNode arena a c]) (arena.length + 1) arena.length = _ from rfl]
    rw [treeAt, recordIn_append_last]
    have hlf : (mergeNode arena a c).leaf = false := rfl
    rw [hlf, if_neg (by simp), la, lc]
    rw [treeAt_append _ _ _ _ (fun j hj hl => (h.m.children j (by omega) hl).2) (by omega) hla, treeAt_append _ _ _ _
        (fun j hj hl => (h.m.children j (by omega) hl).2) (by omega) hlc]
    rw [treeAt_fuel arena _ (a+1) a (fun j hj hl => (h.m.children j (by omega) hl).2) (by omega)
        (by omega), treeAt_fuel arena _ (c+1) c (fun j hj hl => (h.m.children j (by omega) hl).2) (by omega)
        (by omega)]
  refine ⟨⟨hm, ?_, ?_⟩, new, old⟩
  · refine List.Perm.trans ?_ h.leaves
    refine List.Perm.trans ?_ (perm_two q (fun i => (treeOf arena i).leaves) ha hc).symm
    apply List.Perm.of_eq
    rw [List.flatMap_append]
    congr 1
    · apply List.flatMap_congr
      intro i hi
      have : i ∈ q := List.mem_of_mem_erase (List.mem_of_mem_erase hi)
      rw [old i ((h.m.live i).1 this).1]
    · simp [new, CodeTree.leaves]
  · intro i hi
    by_cases hlt : i < arena.length
    · rw [old i hlt, recordIn_append hlt]; exact h.weight i hlt
    · have : i = arena.length := by simp at hi; omega
      subst this
      rw [new, recordIn_append_last, CodeTree.weight, h.weight a hla, h.weight c hlc]
      have g := hm.merged arena.length h.m.ge (by simp)
      have := g.weight
      rw [recordIn_append_last, la, lc, recordIn_append hla, recordIn_append hlc] at this
      exact this.symm

theorem forestInv_loop {freq : Vector Word 256} (k : Nat) {arena : List Node} {q : List Nat}
    (h : ForestInv freq arena q) :
    ForestInv freq (mergeLoop k arena q).1 (mergeLoop k arena q).2 := by
  induction k generalizing arena q with
  | zero => exact h
  | succ k ih =>
    unfold mergeLoop
    split_ifs with h2
    · exact ih (forestInv_step h h2 rfl rfl).1
    · exact h

theorem forestInv_built {freq : Vector Word 256} (h : nsym freq ≠ 0) :
    ForestInv freq (builtArena freq).1 (builtArena freq).2 := forestInv_loop _ (forestInv_init h)

/-- The Huffman tree of a frequency table. -/
def builtTree (freq : Vector Word 256) : CodeTree := treeOf (builtArena freq).1 (2 * nsym freq - 2)

/-- Its leaves are the present symbols with their counts (42_tree_builder.md R141). -/
theorem builtTree_leaves {freq : Vector Word 256} (h : nsym freq ≠ 0) :
    (builtTree freq).leaves.Perm ((presentSymbols freq).map (fun b => (b, (tableAt freq b).toNat))) := by
  have := (forestInv_built h).leaves
  rw [(built_root h).2] at this
  simpa [builtTree] using this

/-- With two present symbols or more, the codes are those of the tree (42_tree_builder.md R145). -/
theorem codeList_eq {freq : Vector Word 256} (h : 2 ≤ nsym freq) : codeList freq = (builtTree freq).codes := by
  have hn : nsym freq ≠ 0 := by omega
  have hl := built_length hn
  have hF := (forestInv_built hn).m
  unfold codeList
  simp only [show nsym freq ≠ 1 by omega, if_false]
  rw [pathCodes_eq _ _ _ _ (fun j hj hl' => (hF.children j (by rw [(built_root hn).1] at hj; omega) hl').2)
      (by rw [(built_root hn).1]; omega), (built_root hn).1]
  simp [builtTree, treeOf]
  congr 1
  exact treeAt_fuel _ _ _ _ (fun j hj hl' => (hF.children j (by omega) hl').2) (by omega) (by omega)

/-- No code of a tree is a prefix of another (42_tree_builder.md R149). -/
theorem CodeTree.codes_prefix (t : CodeTree) : t.codes.Pairwise (fun e e' => ¬ e.2 <+: e'.2 ∧ ¬ e'.2 <+: e.2) := by
  induction t with
  | leaf => simp [codes]
  | node l r hl hr =>
    simp only [codes, List.pairwise_append, List.pairwise_map, List.prefix_cons_inj]
    refine ⟨hl, hr, ?_⟩
    intro a ha b hb
    obtain ⟨a', -, rfl⟩ := List.mem_map.1 ha
    obtain ⟨b', -, rfl⟩ := List.mem_map.1 hb
    simp

theorem CodeTree.codes_len (t : CodeTree) : t.codes.length = t.leaves.length := by
  have := congrArg List.length t.codes_fst; simpa using this

/-- A code is shorter than the number of leaves (42_tree_builder.md R148). -/
theorem CodeTree.code_bound (t : CodeTree) : ∀ e ∈ t.codes, e.2.length + 1 ≤ t.leaves.length := by
  induction t with
  | leaf => simp [codes, leaves]
  | node l r hl hr =>
    intro e he
    have h1 := l.codes_pos
    have h2 := r.codes_pos
    simp only [codes, List.mem_append, List.mem_map] at he
    simp only [leaves, List.length_append]
    rcases he with ⟨a, ha, rfl⟩ | ⟨a, ha, rfl⟩
    · have := hl a ha; simp; omega
    · have := hr a ha; simp; omega

theorem CodeTree.code_pos (l r : CodeTree) : ∀ e ∈ (CodeTree.node l r).codes, 1 ≤ e.2.length := by
  intro e he
  simp only [codes, List.mem_append, List.mem_map] at he
  rcases he with ⟨a, ha, rfl⟩ | ⟨a, ha, rfl⟩ <;> simp

/-- The Kraft sum of the codes of a tree is 1, here times 2^N (42_tree_builder.md R149). -/
theorem CodeTree.kraft (t : CodeTree) (N : Nat) (h : ∀ e ∈ t.codes, e.2.length ≤ N) :
    (t.codes.map (fun e => 2 ^ (N - e.2.length))).sum = 2 ^ N := by
  induction t generalizing N with
  | leaf => simp [codes]
  | node l r hl hr =>
    have hN : 1 ≤ N := by
      have := l.codes_pos
      rw [← l.codes_len] at this
      obtain ⟨a, ha⟩ := List.exists_mem_of_length_pos (Nat.pos_of_ne_zero this)
      have := h (a.1, false :: a.2) (by simp [codes]; exact ha)
      simp at this; omega
    obtain ⟨M, rfl⟩ : ∃ M, N = M + 1 := ⟨N - 1, by omega⟩
    have e1 := hl M (fun e he => by have := h (e.1, false :: e.2) (by simp [codes]; exact he); simpa using this)
    have e2 := hr M (fun e he => by have := h (e.1, true :: e.2) (by simp [codes]; exact he); simpa using this)
    simp only [codes, List.map_append, List.map_map, Function.comp_def, List.sum_append, List.length_cons,
        Nat.add_sub_add_right]
    rw [e1, e2]; ring

/-- walking the arena -/
def followL (r : Nat → Node) (m : Nat) (p : Bits) : Nat :=
    p.foldl (fun n b => if b then (r n).right.toNat else (r n).left.toNat) m

/-- A code of the tree leads from its root to its leaf, through internal records. -/
theorem treeAt_follow (arena : List Node) (k m : Nat)
    (hc : ∀ j, j ≤ m → (recordIn arena j).leaf = false → (recordIn arena j).left.toNat < j ∧
    (recordIn arena j).right.toNat < j) (h : m < k) :
   ∀ e ∈ (treeAt arena k m).codes, (recordIn arena (followL (recordIn arena) m e.2)).leaf = true ∧
       (recordIn arena (followL (recordIn arena) m e.2)).sym = e.1 ∧ followL (recordIn arena) m e.2 ≤ m ∧ ∀ j,
       j < e.2.length → (recordIn arena (followL (recordIn arena) m (e.2.take j))).leaf = false := by
  induction k generalizing m with
  | zero => omega
  | succ k ih =>
    unfold treeAt
    have hcm := hc m le_rfl
    cases hl : (recordIn arena m).leaf with
    | true =>
      intro e he
      simp [CodeTree.codes] at he
      subst he
      exact ⟨hl, rfl, le_rfl, by simp⟩
    | false =>
      have hlt := hcm hl
      rw [if_neg (by simp)]
      intro e he
      simp only [CodeTree.codes, List.mem_append, List.mem_map] at he
      rcases he with ⟨a, ha, rfl⟩ | ⟨a, ha, rfl⟩
      · obtain ⟨g1, g2, g3, g4⟩ := ih _ (fun j hj => hc j (by omega)) (by omega) a ha
        refine ⟨g1, g2, by simp only [followL, List.foldl_cons] at *; simp at *; omega, fun j hj => ?_⟩
        cases j with
        | zero => exact hl
        | succ j => exact g4 j (by simpa using hj)
      · obtain ⟨g1, g2, g3, g4⟩ := ih _ (fun j hj => hc j (by omega)) (by omega) a ha
        refine ⟨g1, g2, by simp only [followL, List.foldl_cons] at *; simp at *; omega, fun j hj => ?_⟩
        cases j with
        | zero => exact hl
        | succ j => exact g4 j (by simpa using hj)

/-- converse of treeAt_follow -/
theorem treeAt_conv (arena : List Node) (k m : Nat)
    (hc : ∀ j, j ≤ m → (recordIn arena j).leaf = false → (recordIn arena j).left.toNat < j ∧
    (recordIn arena j).right.toNat < j) (h : m < k) (p : Bits)
   (hl : (recordIn arena (followL (recordIn arena) m p)).leaf = true)
       (hi : ∀ j, j < p.length → (recordIn arena (followL (recordIn arena) m (p.take j))).leaf = false) :
   ((recordIn arena (followL (recordIn arena) m p)).sym, p) ∈ (treeAt arena k m).codes := by
  induction p generalizing k m with
  | nil =>
    cases k with
    | zero => omega
    | succ k =>
      have hl' : (recordIn arena m).leaf = true := hl
      unfold treeAt
      rw [hl', if_pos rfl]
      simp [CodeTree.codes]; rfl
  | cons b p ih =>
    cases k with
    | zero => omega
    | succ k =>
      have hl' : (recordIn arena m).leaf = false := hi 0 (by simp)
      have hlt := hc m le_rfl hl'
      unfold treeAt
      rw [hl', if_neg (by simp)]
      cases b
      · have := ih k (recordIn arena m).left.toNat (fun j hj => hc j (by omega)) (by omega) hl
          (fun j hj => hi (j+1) (by simpa using hj))
        simp only [CodeTree.codes, List.mem_append, List.mem_map]
        left; exact ⟨_, this, rfl⟩
      · have := ih k (recordIn arena m).right.toNat (fun j hj => hc j (by omega)) (by omega) hl
          (fun j hj => hi (j+1) (by simpa using hj))
        simp only [CodeTree.codes, List.mem_append, List.mem_map]
        right; exact ⟨_, this, rfl⟩

/-- Exactly the present symbols have a code. -/
theorem codeList_syms {freq : Vector Word 256} (h : nsym freq ≠ 0) :
    ((codeList freq).map (·.1)).Perm (presentSymbols freq) := by
  by_cases h2 : 2 ≤ nsym freq
  · rw [codeList_eq h2, CodeTree.codes_fst]
    have := (builtTree_leaves h).map (·.1)
    simpa [Function.comp_def] using this
  · have h1 : nsym freq = 1 := by omega
    have hl := built_leaf h 0 (by omega)
    unfold codeList
    simp only [h1, if_true]
    apply List.Perm.of_eq
    have : (presentSymbols freq).length = 1 := h1
    obtain ⟨b, hb⟩ := List.length_eq_one_iff.1 this
    have hs : (recordIn (builtArena freq).1 0).sym = b := by rw [hl]; simp [leafNode, hb]
    simpa [hb] using hs

/-- Looking a code up finds the one in the list. -/
theorem lookup_mem {freq : Vector Word 256} (h : nsym freq ≠ 0) {b : Byte} {c : Bits} :
    lookupCode (codeList freq) b = some c ↔ (b, c) ∈ codeList freq := by
  have hnd : ((codeList freq).map (·.1)).Nodup := (codeList_syms h).nodup_iff.2 (presentSymbols_nodup freq)
  generalize codeList freq = l at *
  induction l with
  | nil => simp [lookupCode]
  | cons e l ih =>
    obtain ⟨b', c'⟩ := e
    simp only [List.map_cons, List.nodup_cons] at hnd
    by_cases hb : b' = b
    · subst hb
      have : ∀ c, (b', c) ∉ l := fun c hc => hnd.1 (List.mem_map.2 ⟨_, hc, rfl⟩)
      simp [lookupCode, this, eq_comm]
    · have hi := ih hnd.2
      have : lookupCode ((b', c') :: l) b = lookupCode l b := by
        simp only [lookupCode]
        rw [List.find?_cons_of_neg (by simpa using hb)]
      rw [this]
      exact hi.trans (by simp [Ne.symm hb])

/-- A byte value has no code exactly when it is absent (42_tree_builder.md R147). -/
theorem lookup_none {freq : Vector Word 256} (h : nsym freq ≠ 0) {b : Byte} :
    lookupCode (codeList freq) b = none ↔ tableAt freq b = 0 := by
  have : b ∈ (codeList freq).map (·.1) ↔ b ∈ presentSymbols freq := (codeList_syms h).mem_iff
  rw [mem_presentSymbols] at this
  rw [← not_iff_not, ← ne_eq, ← ne_eq, ← this, Option.ne_none_iff_exists']
  simp only [lookup_mem h, List.mem_map]
  constructor
  · rintro ⟨c, hc⟩; exact ⟨_, hc, rfl⟩
  · rintro ⟨⟨b', c⟩, hc, rfl⟩; exact ⟨c, hc⟩

/-- Every code has 1 to 255 symbols (42_tree_builder.md R148). -/
theorem codeList_bound {freq : Vector Word 256} (h : nsym freq ≠ 0) :
    ∀ e ∈ codeList freq, 1 ≤ e.2.length ∧ (2 ≤ nsym freq → e.2.length + 1 ≤ nsym freq) ∧ e.2.length ≤ 255 := by
  have hle := nsym_le freq
  intro e he
  by_cases h2 : 2 ≤ nsym freq
  · rw [codeList_eq h2] at he
    have hb := (builtTree freq).code_bound e he
    have : (builtTree freq).leaves.length = nsym freq := by rw [(builtTree_leaves h).length_eq]; simp [nsym]
    refine ⟨?_, fun _ => by omega, by omega⟩
    cases ht : builtTree freq with
    | leaf => rw [ht] at this; simp [CodeTree.leaves] at this; omega
    | node l r => rw [ht] at he; exact CodeTree.code_pos l r e he
  · have h1 : nsym freq = 1 := by omega
    unfold codeList at he
    simp [h1] at he; subst he
    exact ⟨by simp, fun _ => by omega, by simp⟩

/-- The code BUILD gives a present symbol, read back from the tables. -/
theorem codeOf_eq {s : State} {freq : Vector Word 256} (h : nsym freq ≠ 0) (hl : s.codeLen = (buildTree freq).codeLen)
    (hb : s.codeBits = (buildTree freq).codeBits) {b : Byte} {c : Bits} (hc : lookupCode (codeList freq) b = some c) :
    codeLenAt s.codeLen b = c.length ∧ codeOf s b = c ∧ ∀ i, i < 256 → codeBitAt s.codeBits b i = c.getD i false := by
  have hbd := (codeList_bound h _ ((lookup_mem h).1 hc)).2.2
  have e1 : codeLenAt s.codeLen b = c.length := by
    rw [hl]; simp [codeLenAt, buildTree, codeLenEntry, hc]; simp at hbd; omega
  have e2 : ∀ i, i < 256 → codeBitAt s.codeBits b i = c.getD i false := by
    intro i hi
    rw [hb]
    have : i / 32 < 8 := by omega
    simp only [codeBitAt, buildTree, tableAt_tableOf, codeBitsEntry, hc, packCode]
    simp only [this, Vector.getElem?_eq_getElem, Option.getD_some, Vector.getElem_mk, List.getElem_toArray,
        List.getElem_map,
      List.getElem_range]
    rw [wordOfBits_getLsbD c _ (by omega), show 32 * (i/32) + i % 32 = i by omega]
  refine ⟨e1, ?_, e2⟩
  apply List.ext_getElem
  · simp [codeOf, e1]
  · intro i h1 h2
    simp only [codeOf, List.getElem_map, List.getElem_range]
    simp at hbd
    rw [e2 i (by omega)]; simp [h2]

/-- The tables hold no code for an absent byte value (42_tree_builder.md R147). -/
theorem noCode_eq {s : State} {freq : Vector Word 256} (h : nsym freq ≠ 0) (hl : s.codeLen = (buildTree freq).codeLen)
    (hb : s.codeBits = (buildTree freq).codeBits) {b : Byte} (hc : tableAt freq b = 0) :
    codeLenAt s.codeLen b = 0 ∧ tableAt s.codeBits b = Vector.replicate 8 0 := by
  rw [hl, hb]
  have := (lookup_none h).2 hc
  simp [codeLenAt, buildTree, codeLenEntry, codeBitsEntry, this]

/-- Following a path in NODE is following it in the finished arena. -/
theorem follow_eq {freq : Vector Word 256} (h : nsym freq ≠ 0) (m : BitVec 9) (p : Bits) :
    (follow (buildTree freq).node m p).toNat = followL (recordIn (builtArena freq).1) m.toNat p := by
  induction p generalizing m with
  | nil => rfl
  | cons b p ih =>
    have e : nodeAt (buildTree freq).node m = recordIn (builtArena freq).1 m.toNat := recordAt_build h m.toNat
    unfold follow followL at *
    rw [List.foldl_cons, List.foldl_cons, ih]
    unfold child
    rw [e]
    cases b <;> rfl

theorem nodeAt_eq {freq : Vector Word 256} (h : nsym freq ≠ 0) (m : BitVec 9) :
    nodeAt (buildTree freq).node m = recordIn (builtArena freq).1 m.toNat := recordAt_build h m.toNat

/-- A code leads from ROOT to the leaf of its symbol, through internal records (42_tree_builder.md R145). -/
theorem codeList_follow {freq : Vector Word 256} (h : 2 ≤ nsym freq) : ∀ e ∈ codeList freq,
   (nodeAt (buildTree freq).node (follow (buildTree freq).node (buildTree freq).root e.2)).leaf = true
   ∧ (nodeAt (buildTree freq).node (follow (buildTree freq).node (buildTree freq).root e.2)).sym = e.1
   ∧ ∀ j, j < e.2.length →
       (nodeAt (buildTree freq).node (follow (buildTree freq).node (buildTree freq).root (e.2.take j))).leaf =
       false := by
  have hn : nsym freq ≠ 0 := by omega
  have hF := (forestInv_built hn).m
  have hl := built_length hn
  have := nsym_le freq
  have hroot : (buildTree freq).root.toNat = 2 * nsym freq - 2 := by
    simp [buildTree, (built_root hn).1]; omega
  intro e he
  rw [codeList_eq h] at he
  obtain ⟨g1, g2, -, g4⟩ := treeAt_follow _ _ _ (fun j hj hl' => (hF.children j (by omega) hl').2) (by omega) e he
  simp only [nodeAt_eq hn, follow_eq hn, hroot]
  exact ⟨g1, g2, g4⟩

/-- A path from ROOT that first meets a leaf at its end is the code of its symbol. -/
theorem codeList_of_follow {freq : Vector Word 256} (h : 2 ≤ nsym freq) (p : Bits)
   (hl : (nodeAt (buildTree freq).node (follow (buildTree freq).node (buildTree freq).root p)).leaf = true)
   (hi : ∀ j, j < p.length →
       (nodeAt (buildTree freq).node (follow (buildTree freq).node (buildTree freq).root (p.take j))).leaf = false) :
   ((nodeAt (buildTree freq).node (follow (buildTree freq).node (buildTree freq).root p)).sym, p) ∈ codeList
       freq := by
  have hn : nsym freq ≠ 0 := by omega
  have hF := (forestInv_built hn).m
  have hlen := built_length hn
  have := nsym_le freq
  have hroot : (buildTree freq).root.toNat = 2 * nsym freq - 2 := by
    simp [buildTree, (built_root hn).1]; omega
  simp only [nodeAt_eq hn, follow_eq hn, hroot] at *
  rw [codeList_eq h]
  exact treeAt_conv _ _ _ (fun j hj hl' => (hF.children j (by omega) hl').2) (by omega) p hl hi

/-- The root is a leaf exactly with one present symbol (42_tree_builder.md R146). -/
theorem root_leaf_iff {freq : Vector Word 256} (hn : nsym freq ≠ 0) :
    (nodeAt (buildTree freq).node (buildTree freq).root).leaf = true ↔ nsym freq = 1 := by
  have := nsym_le freq
  have hroot : (buildTree freq).root.toNat = 2 * nsym freq - 2 := by
    simp [buildTree, (built_root hn).1]; omega
  rw [nodeAt_eq hn, hroot, (built_leaf_iff (s := {State.reset with freq := freq}) hn (2 * nsym freq - 2)
      (show _ < 2 * nsym freq - 1 by omega)).1]
  show _ < nsym freq ↔ _
  omega

/-- With one present symbol its code is "0" and ROOT holds it (42_tree_builder.md R146). -/
theorem single_code {s : State} (h1 : nsym s.freq = 1) (ht : treeTables s = buildTree s.freq) :
    ∃ b, presentSymbols s.freq = [b] ∧ codeOf s b = [false] ∧ (nodeAt s.node s.root).sym = b := by
  have hn0 : nsym s.freq ≠ 0 := by omega
  have hnode : s.node = (buildTree s.freq).node := congrArg TreeTables.node ht
  have hroot : s.root = (buildTree s.freq).root := congrArg TreeTables.root ht
  have : (presentSymbols s.freq).length = 1 := h1
  obtain ⟨b, hb⟩ := List.length_eq_one_iff.1 this
  have hr0 : (buildTree s.freq).root.toNat = 0 := by
    simp [buildTree, (built_root hn0).1, h1]
  have hs : (recordIn (builtArena s.freq).1 0).sym = b := by rw [built_leaf hn0 0 (by omega)]; simp [leafNode, hb]
  refine ⟨b, hb, ?_, ?_⟩
  · have : lookupCode (codeList s.freq) b = some [false] := by
      rw [lookup_mem hn0]; unfold codeList; simp only [h1, if_true]
      rw [show ((builtArena s.freq).1.getD 0 .zero).sym = b from hs]; simp
    exact (codeOf_eq hn0 (congrArg TreeTables.codeLen ht) (congrArg TreeTables.codeBits ht) this).2.1
  · rw [hnode, hroot, nodeAt_eq hn0, hr0, hs]

/-- No code is empty. -/
theorem codeOf_ne_nil {s : State} (hn : nsym s.freq ≠ 0) (ht : treeTables s = buildTree s.freq) {b}
    (hb : tableAt s.freq b ≠ 0) : codeOf s b ≠ [] := by
  obtain ⟨c, hc⟩ : ∃ c, lookupCode (codeList s.freq) b = some c := Option.ne_none_iff_exists'.1
      (fun e => hb ((lookup_none hn).1 e))
  have e2 := (codeOf_eq hn (congrArg TreeTables.codeLen ht) (congrArg TreeTables.codeBits ht) hc).2.1
  have hb := (codeList_bound hn _ ((lookup_mem hn).1 hc)).1
  rw [e2]; rintro rfl; simp at hb

/-- A present symbol has a code. -/
theorem codeLen_ne_zero {s : State} {f} (hn : nsym f ≠ 0) (hl : s.codeLen = (buildTree f).codeLen)
    (hb' : s.codeBits = (buildTree f).codeBits) {b} (hb : tableAt f b ≠ 0) : codeLenAt s.codeLen b ≠ 0 := by
  obtain ⟨c, hc⟩ : ∃ c, lookupCode (codeList f) b = some c := Option.ne_none_iff_exists'.1
      (fun e => hb ((lookup_none hn).1 e))
  have e2 := (codeOf_eq hn hl hb' hc).1
  have hb := (codeList_bound hn _ ((lookup_mem hn).1 hc)).1
  simp only at hb
  omega

end Sys2Proof.Machine
end

