-- ==== Sys2Proof/Laws/Container.lean ====
section
/-! SUPPORT. What the parser of a container table accepts, and the size of a container. -/

namespace Sys2Proof.Machine

/-- The table parser accepts exactly the bytes of a well-formed table, whose first byte value is above the one before
it (44_container_codec.md R193, R191). -/
theorem parseEntries_ok (n off : Nat) (prev : Option Byte) (bs : List Byte) (es : List Entry) (tail : List Byte) :
    parseEntries n off prev bs = .ok (es, tail) ↔
      es.length = n ∧ bs = es.flatMap entryBytes ++ tail ∧ TableWf es ∧ (∀ p, prev = some p → ∀ e ∈ es.head?, p.toNat
          < e.sym.toNat) := by
  induction n generalizing off prev bs es tail with
  | zero =>
    simp only [parseEntries, Except.ok.injEq, Prod.mk.injEq]
    constructor
    · rintro ⟨rfl, rfl⟩; simp [TableWf]
    · rintro ⟨h, h2, -⟩
      have := List.length_eq_zero_iff.1 h; subst this; simp_all
  | succ n ih =>
    rcases bs with _ | ⟨b, _ | ⟨c0, _ | ⟨c1, _ | ⟨c2, _ | ⟨c3, rest⟩⟩⟩⟩⟩
    case cons.cons.cons.cons.cons =>
      simp only [parseEntries]
      have key : (∃ es', parseEntries n (off+5) (some b) rest = .ok (es', tail) ∧ es = ⟨b, wordLE c0 c1 c2 c3⟩ :: es'
          ∧ notAbove b prev = false ∧ wordLE c0 c1 c2 c3 ≠ 0) ↔
         es.length = n+1 ∧ b :: c0 :: c1 :: c2 :: c3 :: rest = es.flatMap entryBytes ++ tail ∧ TableWf es ∧
             (∀ p, prev = some p → ∀ e ∈ es.head?, p.toNat < e.sym.toNat) := by
        constructor
        · rintro ⟨es', h, rfl, hn, hz⟩
          obtain ⟨hl, hb, hw, hp⟩ := (ih _ _ _ _ _).1 h
          refine ⟨by simp [hl], ?_, ⟨List.pairwise_cons.2 ⟨?_, hw.1⟩, ?_⟩, ?_⟩
          · simp [entryBytes, le32_wordLE, hb]
          · have h1 := hp b rfl
            intro e he
            cases es' with
            | nil => simp at he
            | cons d es' =>
              have hd := h1 d (by simp)
              rcases List.mem_cons.1 he with rfl | he
              · exact hd
              · exact lt_trans hd ((List.pairwise_cons.1 hw.1).1 e he)
          · intro e he
            rcases List.mem_cons.1 he with rfl | he
            · exact hz
            · exact hw.2 e he
          · rintro p rfl e he
            simp at he; subst he
            simpa [notAbove] using hn
        · rintro ⟨hl, hb, hw, hp⟩
          cases es with
          | nil => simp at hl
          | cons e es' =>
            obtain ⟨sym, count⟩ := e
            simp only [List.flatMap_cons, entryBytes, le32, List.cons_append, List.nil_append, List.cons.injEq] at hb
            obtain ⟨rfl, rfl, rfl, rfl, rfl, hr⟩ := hb
            have e1 := wordLE_le32 count
            refine ⟨es', (ih _ _ _ _ _).2
                ⟨by simpa using hl, hr, ⟨(List.pairwise_cons.1 hw.1).2, fun e he => hw.2 e (by simp [he])⟩, ?_⟩, by
                rw [e1], ?_, ?_⟩
            · rintro p hp' e he; cases hp'
              exact (List.pairwise_cons.1 hw.1).1 e (List.mem_of_mem_head? he)
            · cases prev with
              | none => rfl
              | some p => simpa [notAbove] using hp p rfl ⟨b, count⟩ (by simp)
            · rw [e1]; exact hw.2 ⟨b, count⟩ (by simp)
      rw [← key]
      split_ifs with h1 h2
      · simp [h1]
      · simp [h2]
      · cases hpe : parseEntries n (off + 5) (some b) rest with
        | error e => simp
        | ok r =>
          obtain ⟨es', t'⟩ := r
          simp only [Except.ok.injEq, Prod.mk.injEq]
          constructor
          · rintro ⟨rfl, rfl⟩; exact ⟨es', by simp, rfl, by simpa using h1, h2⟩
          · rintro ⟨es'', ⟨rfl, rfl⟩, rfl, -⟩; simp
    all_goals
      simp only [parseEntries]
      constructor
      · intro h; cases h
      · rintro ⟨hl, hb, -⟩
        cases es with
        | nil => simp at hl
        | cons e es =>
          have := congrArg List.length hb
          simp [entryBytes] at this
          try omega

/-- A well-formed table has at most 256 entries (44_container_codec.md R193). -/
theorem tableWf_length {t : List Entry} (h : TableWf t) : t.length ≤ 256 := by
  have := nsym_le (freqOfTable t)
  rwa [nsym, presentSymbols_freqOfTable h, List.length_map] at this

theorem flatMap_entryBytes_length (t : List Entry) : (t.flatMap entryBytes).length = 5 * t.length := by
  induction t with
  | nil => rfl
  | cons e t ih => simp [ih, entryBytes]; omega

theorem containerBytes_length (c : Container) :
    (containerBytes c).length = 5 + 5 * c.table.length + c.payload.length := by
  simp only [containerBytes, List.length_append, le32_length, flatMap_entryBytes_length, List.length_cons]
  omega

end Sys2Proof.Machine
end

