-- ==== Sys2Proof/Laws/Memory.lean ====
section
/-! SUPPORT. The laws of the byte memories: read after write, what a range write changes, and that every memory
operation keeps the canonical form and the bound. -/

namespace Sys2Proof.Machine

/-- The memories of reset list nothing, so they have the canonical form and lie below every capacity. -/
theorem reset_memories :
    (State.reset.inMem.wf ∧ State.reset.payMem.wf ∧ State.reset.outMem.wf)
      ∧ ∀ cap, State.reset.inMem.below cap ∧ State.reset.payMem.below cap ∧ State.reset.outMem.below cap := by
  simp [State.reset, State.resetOf]

@[simp] theorem Memory.read_nil (a : Nat) : Memory.read [] a = none := rfl

theorem Memory.read_cons (k : Nat) (v : Byte) (m : Memory) (a : Nat) :
    Memory.read ((k, v) :: m) a = if k = a then some v else Memory.read m a := rfl

/-- Reading one byte after a write: the byte written at its offset, the old byte elsewhere. -/
theorem Memory.read_write (m : Memory) (a : Nat) (v : Byte) (b : Nat) :
    (m.write a v).read b = if b = a then some v else m.read b := by
  induction m with
  | nil => simp only [write, read_cons, read_nil, eq_comm]
  | cons c m ih =>
    obtain ⟨k, w⟩ := c
    simp only [write]
    split_ifs <;> simp only [read_cons, ih] <;> split_ifs <;> first | rfl | (exfalso; omega)

theorem Memory.read_write_same (m : Memory) (a : Nat) (v : Byte) : (m.write a v).read a = some v := by
  simp [read_write]

theorem Memory.read_write_other (m : Memory) (v : Byte) {a b : Nat} (h : b ≠ a) :
    (m.write a v).read b = m.read b := by
  simp [read_write, h]

/-- Reading one byte after a range write. -/
theorem Memory.read_writeBytes (m : Memory) (a : Nat) (bs : List Byte) (b : Nat) :
    (m.writeBytes a bs).read b = if h : a ≤ b ∧ b < a + bs.length then some bs[b - a] else m.read b := by
  induction bs generalizing m a with
  | nil => simp [writeBytes, show ¬(a ≤ b ∧ b < a) by omega]
  | cons c bs ih =>
    rw [writeBytes, ih]
    by_cases hb : b = a
    · subst hb
      simp [read_write]
    · by_cases h : a ≤ b ∧ b < a + (c :: bs).length
      · have h' : a + 1 ≤ b ∧ b < a + 1 + bs.length := by simp only [List.length_cons] at h; omega
        have e : b - a = (b - (a + 1)) + 1 := by omega
        rw [dif_pos h, dif_pos h']
        simp only [e, List.getElem_cons_succ]
      · have h' : ¬(a + 1 ≤ b ∧ b < a + 1 + bs.length) := by simp only [List.length_cons] at h; omega
        rw [dif_neg h, dif_neg h', read_write, if_neg hb]

/-- Reading one byte after a bounded range write. -/
theorem Memory.read_writeInRange (cap : Nat) (m : Memory) (a : Nat) (bs : List Byte) (b : Nat) :
    (m.writeInRange cap a bs).read b
      = if h : (a ≤ b ∧ b < a + bs.length) ∧ b < cap then some (bs[b - a]'(by omega)) else m.read b := by
  induction bs generalizing m a with
  | nil => simp [writeInRange, show ¬((a ≤ b ∧ b < a) ∧ b < cap) by omega]
  | cons c bs ih =>
    rw [writeInRange, ih]
    by_cases hb : b = a
    · subst hb
      by_cases hc : b < cap <;> simp [read_write, hc]
    · have hread : ((if a < cap then m.write a c else m).read b) = m.read b := by
        split_ifs
        · exact read_write_other m c hb
        · rfl
      by_cases h : (a ≤ b ∧ b < a + (c :: bs).length) ∧ b < cap
      · have h' : (a + 1 ≤ b ∧ b < a + 1 + bs.length) ∧ b < cap := by
          simp only [List.length_cons] at h; omega
        have e : b - a = (b - (a + 1)) + 1 := by omega
        rw [dif_pos h, dif_pos h']
        simp only [e, List.getElem_cons_succ]
      · have h' : ¬((a + 1 ≤ b ∧ b < a + 1 + bs.length) ∧ b < cap) := by
          simp only [List.length_cons] at h; omega
        rw [dif_neg h, dif_neg h', hread]

/-! ## The canonical form and the bound -/

theorem Memory.mem_write {m : Memory} {a : Nat} {v : Byte} {c : Host.Cell} (h : c ∈ m.write a v) :
    c = (a, v) ∨ c ∈ m := by
  induction m with
  | nil => simpa [write] using h
  | cons d m ih =>
    obtain ⟨k, w⟩ := d
    simp only [write] at h
    split_ifs at h
    · simpa using h
    · rcases List.mem_cons.1 h with h | h
      · exact .inl h
      · exact .inr (List.mem_cons_of_mem _ h)
    · rcases List.mem_cons.1 h with h | h
      · exact .inr (h ▸ List.mem_cons_self)
      · exact (ih h).imp id (List.mem_cons_of_mem _)

theorem Memory.write_wf {m : Memory} (h : m.wf) (a : Nat) (v : Byte) : (m.write a v).wf := by
  induction m with
  | nil => simp [write, wf]
  | cons d m ih =>
    obtain ⟨k, w⟩ := d
    obtain ⟨hk, hm⟩ := List.pairwise_cons.1 h
    simp only [write]
    split_ifs with h1 h2
    · refine List.pairwise_cons.2 ⟨fun c hc => ?_, h⟩
      rcases List.mem_cons.1 hc with rfl | hc
      · exact h1
      · exact lt_trans h1 (hk c hc)
    · exact List.pairwise_cons.2 ⟨fun c hc => h2 ▸ hk c hc, hm⟩
    · refine List.pairwise_cons.2 ⟨fun c hc => ?_, ih hm⟩
      rcases mem_write hc with rfl | hc
      · exact show k < a by omega
      · exact hk c hc

theorem Memory.writeBytes_wf {m : Memory} (h : m.wf) (a : Nat) (bs : List Byte) : (m.writeBytes a bs).wf := by
  induction bs generalizing m a with
  | nil => exact h
  | cons b bs ih => exact ih (write_wf h a b) (a + 1)

theorem Memory.writeInRange_wf (cap : Nat) {m : Memory} (h : m.wf) (a : Nat) (bs : List Byte) :
    (m.writeInRange cap a bs).wf := by
  induction bs generalizing m a with
  | nil => exact h
  | cons b bs ih =>
    refine ih (m := if a < cap then m.write a b else m) ?_ (a + 1)
    split_ifs
    · exact write_wf h a b
    · exact h

theorem Memory.write_below {m : Memory} {cap a : Nat} (h : m.below cap) (ha : a < cap) (v : Byte) :
    (m.write a v).below cap := fun c hc => by
  rcases mem_write hc with rfl | hc
  · exact ha
  · exact h c hc

theorem Memory.writeBytes_below {m : Memory} {cap a : Nat} (h : m.below cap) {bs : List Byte}
    (hb : a + bs.length ≤ cap) : (m.writeBytes a bs).below cap := by
  induction bs generalizing m a with
  | nil => exact h
  | cons b bs ih =>
    simp only [List.length_cons] at hb
    exact ih (write_below h (by omega) b) (by omega)

theorem Memory.writeInRange_below {m : Memory} {cap : Nat} (h : m.below cap) (a : Nat) (bs : List Byte) :
    (m.writeInRange cap a bs).below cap := by
  induction bs generalizing m a with
  | nil => exact h
  | cons b bs ih =>
    refine ih (m := if a < cap then m.write a b else m) ?_ (a + 1)
    split_ifs with ha
    · exact write_below h ha b
    · exact h

/-! ## Reading ranges -/

@[simp] theorem readBytes_length (m : Memory) (a len n : Nat) : (readBytes m a len n).1.length = len := by
  induction len generalizing a n with
  | zero => rfl
  | succ len ih => simp [readBytes, ih]

/-- A byte that was written is what a range read returns for it. -/
theorem readBytes_getElem {m : Memory} {a len n i : Nat} (hi : i < len) {v : Byte} (h : m.read (a + i) = some v) :
    (readBytes m a len n).1[i]? = some v := by
  induction len generalizing a n i with
  | zero => omega
  | succ len ih =>
    cases i with
    | zero => simp_all [readBytes, readByte]
    | succ i =>
      simp only [readBytes, List.getElem?_cons_succ]
      exact ih (by omega) (by rwa [show a + 1 + i = a + (i + 1) by omega])

/-- A range read of written bytes makes no free draw. -/
theorem readBytes_draws {m : Memory} {a len : Nat} (n : Nat) (h : m.written a len = true) :
    (readBytes m a len n).2 = n := by
  induction len generalizing a n with
  | zero => rfl
  | succ len ih =>
    simp only [Memory.written, List.all_eq_true, List.mem_range] at h
    obtain ⟨v, hv⟩ := Option.isSome_iff_exists.1 (h 0 (by omega))
    have hb : readByte m a n = (v, n) := by
      have hv' : m.read a = some v := hv
      simp [readByte, hv']
    rw [readBytes, hb]
    refine ih n ?_
    simp only [Memory.written, List.all_eq_true, List.mem_range]
    intro i hi
    have := h (i + 1) (by omega)
    rwa [show a + (i + 1) = a + 1 + i by omega] at this

/-- A range read returns the bytes that stand written in the range. -/
theorem readBytes_eq {m : Memory} {a n : Nat} {bs : List Byte}
    (h : ∀ i (hi : i < bs.length), m.read (a + i) = some bs[i]) : readBytes m a bs.length n = (bs, n) := by
  induction bs generalizing a with
  | nil => rfl
  | cons b bs ih =>
    have h0 : readByte m a n = (b, n) := by
      have := h 0 (by simp)
      simp only [Nat.add_zero, List.getElem_cons_zero] at this
      simp [readByte, this]
    have h1 : readBytes m (a + 1) bs.length n = (bs, n) := ih fun i hi => by
      have := h (i + 1) (by simpa using hi)
      rwa [show a + (i + 1) = a + 1 + i by omega] at this
    simp [readBytes, h0, h1]

end Sys2Proof.Machine
end

