-- ==== Sys2Proof/Laws/State.lean ====
section
/-! SUPPORT. What each named update of the state leaves in each field: one lemma per field and update. -/

namespace Sys2Proof.Machine

/-! ### accept -/

@[simp] theorem accept_params (w : Word) (s : State) : (accept w s).params = s.params := rfl
@[simp] theorem accept_engine (w : Word) (s : State) : (accept w s).engine = .busy w := rfl
@[simp] theorem accept_status (w : Word) (s : State) :
    (accept w s).status = { errcode := none, lastOp := fieldOp w, ovr := false, err := false, done := false } := rfl
@[simp] theorem accept_irqEn (w : Word) (s : State) : (accept w s).irqEn = s.irqEn := rfl
@[simp] theorem accept_inLen (w : Word) (s : State) : (accept w s).inLen = s.inLen := rfl
@[simp] theorem accept_payLen (w : Word) (s : State) : (accept w s).payLen = s.payLen := rfl
@[simp] theorem accept_pad (w : Word) (s : State) : (accept w s).pad = s.pad := rfl
@[simp] theorem accept_outLen (w : Word) (s : State) : (accept w s).outLen = s.outLen := rfl
@[simp] theorem accept_treeValid (w : Word) (s : State) : (accept w s).treeValid = s.treeValid := rfl
@[simp] theorem accept_root (w : Word) (s : State) : (accept w s).root = s.root := rfl
@[simp] theorem accept_nnodes (w : Word) (s : State) : (accept w s).nnodes = s.nnodes := rfl
@[simp] theorem accept_errInfo (w : Word) (s : State) : (accept w s).errInfo = s.errInfo := rfl
@[simp] theorem accept_freq (w : Word) (s : State) : (accept w s).freq = s.freq := rfl
@[simp] theorem accept_codeLen (w : Word) (s : State) : (accept w s).codeLen = s.codeLen := rfl
@[simp] theorem accept_codeBits (w : Word) (s : State) : (accept w s).codeBits = s.codeBits := rfl
@[simp] theorem accept_node (w : Word) (s : State) : (accept w s).node = s.node := rfl
@[simp] theorem accept_inMem (w : Word) (s : State) : (accept w s).inMem = s.inMem := rfl
@[simp] theorem accept_payMem (w : Word) (s : State) : (accept w s).payMem = s.payMem := rfl
@[simp] theorem accept_outMem (w : Word) (s : State) : (accept w s).outMem = s.outMem := rfl
@[simp] theorem accept_rst (w : Word) (s : State) : (accept w s).rst = s.rst := rfl
@[simp] theorem accept_resp (w : Word) (s : State) : (accept w s).resp = s.resp := rfl
@[simp] theorem accept_host (w : Word) (s : State) : (accept w s).host = s.host := rfl
@[simp] theorem accept_script (w : Word) (s : State) : (accept w s).script = s.script := rfl
@[simp] theorem accept_draws (w : Word) (s : State) : (accept w s).draws = s.draws := rfl

/-! ### complete_ok -/

@[simp] theorem complete_ok_params (s : State) : (complete (.ok s)).params = s.params := rfl
@[simp] theorem complete_ok_engine (s : State) : (complete (.ok s)).engine = .idle := rfl
@[simp] theorem complete_ok_status (s : State) :
    (complete (.ok s)).status = { s.status with errcode := none, err := false, done := true } := rfl
@[simp] theorem complete_ok_irqEn (s : State) : (complete (.ok s)).irqEn = s.irqEn := rfl
@[simp] theorem complete_ok_inLen (s : State) : (complete (.ok s)).inLen = s.inLen := rfl
@[simp] theorem complete_ok_payLen (s : State) : (complete (.ok s)).payLen = s.payLen := rfl
@[simp] theorem complete_ok_pad (s : State) : (complete (.ok s)).pad = s.pad := rfl
@[simp] theorem complete_ok_outLen (s : State) : (complete (.ok s)).outLen = s.outLen := rfl
@[simp] theorem complete_ok_treeValid (s : State) : (complete (.ok s)).treeValid = s.treeValid := rfl
@[simp] theorem complete_ok_root (s : State) : (complete (.ok s)).root = s.root := rfl
@[simp] theorem complete_ok_nnodes (s : State) : (complete (.ok s)).nnodes = s.nnodes := rfl
@[simp] theorem complete_ok_errInfo (s : State) : (complete (.ok s)).errInfo = 0 := rfl
@[simp] theorem complete_ok_freq (s : State) : (complete (.ok s)).freq = s.freq := rfl
@[simp] theorem complete_ok_codeLen (s : State) : (complete (.ok s)).codeLen = s.codeLen := rfl
@[simp] theorem complete_ok_codeBits (s : State) : (complete (.ok s)).codeBits = s.codeBits := rfl
@[simp] theorem complete_ok_node (s : State) : (complete (.ok s)).node = s.node := rfl
@[simp] theorem complete_ok_inMem (s : State) : (complete (.ok s)).inMem = s.inMem := rfl
@[simp] theorem complete_ok_payMem (s : State) : (complete (.ok s)).payMem = s.payMem := rfl
@[simp] theorem complete_ok_outMem (s : State) : (complete (.ok s)).outMem = s.outMem := rfl
@[simp] theorem complete_ok_rst (s : State) : (complete (.ok s)).rst = s.rst := rfl
@[simp] theorem complete_ok_resp (s : State) : (complete (.ok s)).resp = s.resp := rfl
@[simp] theorem complete_ok_host (s : State) : (complete (.ok s)).host = s.host := rfl
@[simp] theorem complete_ok_script (s : State) : (complete (.ok s)).script = s.script := rfl
@[simp] theorem complete_ok_draws (s : State) : (complete (.ok s)).draws = s.draws := rfl

/-! ### complete_raised -/

@[simp] theorem complete_raised_params (e : Err) (info : Word) (s : State) :
    (complete (.raised e info s)).params = s.params := rfl
@[simp] theorem complete_raised_engine (e : Err) (info : Word) (s : State) :
    (complete (.raised e info s)).engine = .idle := rfl
@[simp] theorem complete_raised_status (e : Err) (info : Word) (s : State) :
    (complete (.raised e info s)).status = { s.status with errcode := some e, err := true, done := true } := rfl
@[simp] theorem complete_raised_irqEn (e : Err) (info : Word) (s : State) :
    (complete (.raised e info s)).irqEn = s.irqEn := rfl
@[simp] theorem complete_raised_inLen (e : Err) (info : Word) (s : State) :
    (complete (.raised e info s)).inLen = s.inLen := rfl
@[simp] theorem complete_raised_payLen (e : Err) (info : Word) (s : State) :
    (complete (.raised e info s)).payLen = s.payLen := rfl
@[simp] theorem complete_raised_pad (e : Err) (info : Word) (s : State) :
    (complete (.raised e info s)).pad = s.pad := rfl
@[simp] theorem complete_raised_outLen (e : Err) (info : Word) (s : State) :
    (complete (.raised e info s)).outLen = s.outLen := rfl
@[simp] theorem complete_raised_treeValid (e : Err) (info : Word) (s : State) :
    (complete (.raised e info s)).treeValid = s.treeValid := rfl
@[simp] theorem complete_raised_root (e : Err) (info : Word) (s : State) :
    (complete (.raised e info s)).root = s.root := rfl
@[simp] theorem complete_raised_nnodes (e : Err) (info : Word) (s : State) :
    (complete (.raised e info s)).nnodes = s.nnodes := rfl
@[simp] theorem complete_raised_errInfo (e : Err) (info : Word) (s : State) :
    (complete (.raised e info s)).errInfo = info := rfl
@[simp] theorem complete_raised_freq (e : Err) (info : Word) (s : State) :
    (complete (.raised e info s)).freq = s.freq := rfl
@[simp] theorem complete_raised_codeLen (e : Err) (info : Word) (s : State) :
    (complete (.raised e info s)).codeLen = s.codeLen := rfl
@[simp] theorem complete_raised_codeBits (e : Err) (info : Word) (s : State) :
    (complete (.raised e info s)).codeBits = s.codeBits := rfl
@[simp] theorem complete_raised_node (e : Err) (info : Word) (s : State) :
    (complete (.raised e info s)).node = s.node := rfl
@[simp] theorem complete_raised_inMem (e : Err) (info : Word) (s : State) :
    (complete (.raised e info s)).inMem = s.inMem := rfl
@[simp] theorem complete_raised_payMem (e : Err) (info : Word) (s : State) :
    (complete (.raised e info s)).payMem = s.payMem := rfl
@[simp] theorem complete_raised_outMem (e : Err) (info : Word) (s : State) :
    (complete (.raised e info s)).outMem = s.outMem := rfl
@[simp] theorem complete_raised_rst (e : Err) (info : Word) (s : State) :
    (complete (.raised e info s)).rst = s.rst := rfl
@[simp] theorem complete_raised_resp (e : Err) (info : Word) (s : State) :
    (complete (.raised e info s)).resp = s.resp := rfl
@[simp] theorem complete_raised_host (e : Err) (info : Word) (s : State) :
    (complete (.raised e info s)).host = s.host := rfl
@[simp] theorem complete_raised_script (e : Err) (info : Word) (s : State) :
    (complete (.raised e info s)).script = s.script := rfl
@[simp] theorem complete_raised_draws (e : Err) (info : Word) (s : State) :
    (complete (.raised e info s)).draws = s.draws := rfl

/-! ### acknowledge -/

@[simp] theorem acknowledge_params (s : State) : (acknowledge s).params = s.params := rfl
@[simp] theorem acknowledge_engine (s : State) : (acknowledge s).engine = s.engine := rfl
@[simp] theorem acknowledge_status (s : State) : (acknowledge s).status = { s.status with done := false } := rfl
@[simp] theorem acknowledge_irqEn (s : State) : (acknowledge s).irqEn = s.irqEn := rfl
@[simp] theorem acknowledge_inLen (s : State) : (acknowledge s).inLen = s.inLen := rfl
@[simp] theorem acknowledge_payLen (s : State) : (acknowledge s).payLen = s.payLen := rfl
@[simp] theorem acknowledge_pad (s : State) : (acknowledge s).pad = s.pad := rfl
@[simp] theorem acknowledge_outLen (s : State) : (acknowledge s).outLen = s.outLen := rfl
@[simp] theorem acknowledge_treeValid (s : State) : (acknowledge s).treeValid = s.treeValid := rfl
@[simp] theorem acknowledge_root (s : State) : (acknowledge s).root = s.root := rfl
@[simp] theorem acknowledge_nnodes (s : State) : (acknowledge s).nnodes = s.nnodes := rfl
@[simp] theorem acknowledge_errInfo (s : State) : (acknowledge s).errInfo = s.errInfo := rfl
@[simp] theorem acknowledge_freq (s : State) : (acknowledge s).freq = s.freq := rfl
@[simp] theorem acknowledge_codeLen (s : State) : (acknowledge s).codeLen = s.codeLen := rfl
@[simp] theorem acknowledge_codeBits (s : State) : (acknowledge s).codeBits = s.codeBits := rfl
@[simp] theorem acknowledge_node (s : State) : (acknowledge s).node = s.node := rfl
@[simp] theorem acknowledge_inMem (s : State) : (acknowledge s).inMem = s.inMem := rfl
@[simp] theorem acknowledge_payMem (s : State) : (acknowledge s).payMem = s.payMem := rfl
@[simp] theorem acknowledge_outMem (s : State) : (acknowledge s).outMem = s.outMem := rfl
@[simp] theorem acknowledge_rst (s : State) : (acknowledge s).rst = s.rst := rfl
@[simp] theorem acknowledge_resp (s : State) : (acknowledge s).resp = s.resp := rfl
@[simp] theorem acknowledge_host (s : State) : (acknowledge s).host = s.host := rfl
@[simp] theorem acknowledge_script (s : State) : (acknowledge s).script = s.script := rfl
@[simp] theorem acknowledge_draws (s : State) : (acknowledge s).draws = s.draws := rfl

/-! ### setOvr -/

@[simp] theorem setOvr_params (s : State) : (setOvr s).params = s.params := rfl
@[simp] theorem setOvr_engine (s : State) : (setOvr s).engine = s.engine := rfl
@[simp] theorem setOvr_status (s : State) : (setOvr s).status = { s.status with ovr := true } := rfl
@[simp] theorem setOvr_irqEn (s : State) : (setOvr s).irqEn = s.irqEn := rfl
@[simp] theorem setOvr_inLen (s : State) : (setOvr s).inLen = s.inLen := rfl
@[simp] theorem setOvr_payLen (s : State) : (setOvr s).payLen = s.payLen := rfl
@[simp] theorem setOvr_pad (s : State) : (setOvr s).pad = s.pad := rfl
@[simp] theorem setOvr_outLen (s : State) : (setOvr s).outLen = s.outLen := rfl
@[simp] theorem setOvr_treeValid (s : State) : (setOvr s).treeValid = s.treeValid := rfl
@[simp] theorem setOvr_root (s : State) : (setOvr s).root = s.root := rfl
@[simp] theorem setOvr_nnodes (s : State) : (setOvr s).nnodes = s.nnodes := rfl
@[simp] theorem setOvr_errInfo (s : State) : (setOvr s).errInfo = s.errInfo := rfl
@[simp] theorem setOvr_freq (s : State) : (setOvr s).freq = s.freq := rfl
@[simp] theorem setOvr_codeLen (s : State) : (setOvr s).codeLen = s.codeLen := rfl
@[simp] theorem setOvr_codeBits (s : State) : (setOvr s).codeBits = s.codeBits := rfl
@[simp] theorem setOvr_node (s : State) : (setOvr s).node = s.node := rfl
@[simp] theorem setOvr_inMem (s : State) : (setOvr s).inMem = s.inMem := rfl
@[simp] theorem setOvr_payMem (s : State) : (setOvr s).payMem = s.payMem := rfl
@[simp] theorem setOvr_outMem (s : State) : (setOvr s).outMem = s.outMem := rfl
@[simp] theorem setOvr_rst (s : State) : (setOvr s).rst = s.rst := rfl
@[simp] theorem setOvr_resp (s : State) : (setOvr s).resp = s.resp := rfl
@[simp] theorem setOvr_host (s : State) : (setOvr s).host = s.host := rfl
@[simp] theorem setOvr_script (s : State) : (setOvr s).script = s.script := rfl
@[simp] theorem setOvr_draws (s : State) : (setOvr s).draws = s.draws := rfl

/-! ### assertReset -/

@[simp] theorem assertReset_params (s : State) : (assertReset s).params = s.params := rfl
@[simp] theorem assertReset_engine (s : State) : (assertReset s).engine = s.engine := rfl
@[simp] theorem assertReset_status (s : State) : (assertReset s).status = s.status := rfl
@[simp] theorem assertReset_irqEn (s : State) : (assertReset s).irqEn = s.irqEn := rfl
@[simp] theorem assertReset_inLen (s : State) : (assertReset s).inLen = s.inLen := rfl
@[simp] theorem assertReset_payLen (s : State) : (assertReset s).payLen = s.payLen := rfl
@[simp] theorem assertReset_pad (s : State) : (assertReset s).pad = s.pad := rfl
@[simp] theorem assertReset_outLen (s : State) : (assertReset s).outLen = s.outLen := rfl
@[simp] theorem assertReset_treeValid (s : State) : (assertReset s).treeValid = s.treeValid := rfl
@[simp] theorem assertReset_root (s : State) : (assertReset s).root = s.root := rfl
@[simp] theorem assertReset_nnodes (s : State) : (assertReset s).nnodes = s.nnodes := rfl
@[simp] theorem assertReset_errInfo (s : State) : (assertReset s).errInfo = s.errInfo := rfl
@[simp] theorem assertReset_freq (s : State) : (assertReset s).freq = s.freq := rfl
@[simp] theorem assertReset_codeLen (s : State) : (assertReset s).codeLen = s.codeLen := rfl
@[simp] theorem assertReset_codeBits (s : State) : (assertReset s).codeBits = s.codeBits := rfl
@[simp] theorem assertReset_node (s : State) : (assertReset s).node = s.node := rfl
@[simp] theorem assertReset_inMem (s : State) : (assertReset s).inMem = s.inMem := rfl
@[simp] theorem assertReset_payMem (s : State) : (assertReset s).payMem = s.payMem := rfl
@[simp] theorem assertReset_outMem (s : State) : (assertReset s).outMem = s.outMem := rfl
@[simp] theorem assertReset_rst (s : State) : (assertReset s).rst = true := rfl
@[simp] theorem assertReset_resp (s : State) : (assertReset s).resp = s.resp := rfl
@[simp] theorem assertReset_host (s : State) : (assertReset s).host = s.host := rfl
@[simp] theorem assertReset_script (s : State) : (assertReset s).script = s.script := rfl
@[simp] theorem assertReset_draws (s : State) : (assertReset s).draws = s.draws := rfl

/-! ### afterInput -/

@[simp] theorem afterInput_params (s : State) : (afterInput s).params = s.params := rfl
@[simp] theorem afterInput_engine (s : State) : (afterInput s).engine = s.engine := rfl
@[simp] theorem afterInput_status (s : State) : (afterInput s).status = s.status := rfl
@[simp] theorem afterInput_irqEn (s : State) : (afterInput s).irqEn = s.irqEn := rfl
@[simp] theorem afterInput_inLen (s : State) : (afterInput s).inLen = s.inLen := rfl
@[simp] theorem afterInput_payLen (s : State) : (afterInput s).payLen = s.payLen := rfl
@[simp] theorem afterInput_pad (s : State) : (afterInput s).pad = s.pad := rfl
@[simp] theorem afterInput_outLen (s : State) : (afterInput s).outLen = s.outLen := rfl
@[simp] theorem afterInput_treeValid (s : State) : (afterInput s).treeValid = s.treeValid := rfl
@[simp] theorem afterInput_root (s : State) : (afterInput s).root = s.root := rfl
@[simp] theorem afterInput_nnodes (s : State) : (afterInput s).nnodes = s.nnodes := rfl
@[simp] theorem afterInput_errInfo (s : State) : (afterInput s).errInfo = s.errInfo := rfl
@[simp] theorem afterInput_freq (s : State) : (afterInput s).freq = s.freq := rfl
@[simp] theorem afterInput_codeLen (s : State) : (afterInput s).codeLen = s.codeLen := rfl
@[simp] theorem afterInput_codeBits (s : State) : (afterInput s).codeBits = s.codeBits := rfl
@[simp] theorem afterInput_node (s : State) : (afterInput s).node = s.node := rfl
@[simp] theorem afterInput_inMem (s : State) : (afterInput s).inMem = s.inMem := rfl
@[simp] theorem afterInput_payMem (s : State) : (afterInput s).payMem = s.payMem := rfl
@[simp] theorem afterInput_outMem (s : State) : (afterInput s).outMem = s.outMem := rfl
@[simp] theorem afterInput_rst (s : State) : (afterInput s).rst = s.rst := rfl
@[simp] theorem afterInput_resp (s : State) : (afterInput s).resp = s.resp := rfl
@[simp] theorem afterInput_host (s : State) : (afterInput s).host = s.host := rfl
@[simp] theorem afterInput_script (s : State) : (afterInput s).script = s.script := rfl
@[simp] theorem afterInput_draws (s : State) :
    (afterInput s).draws = (readBytes s.inMem 0 s.inLen.toNat s.draws).2 := rfl

/-! ### afterPayload -/

@[simp] theorem afterPayload_params (s : State) : (afterPayload s).params = s.params := rfl
@[simp] theorem afterPayload_engine (s : State) : (afterPayload s).engine = s.engine := rfl
@[simp] theorem afterPayload_status (s : State) : (afterPayload s).status = s.status := rfl
@[simp] theorem afterPayload_irqEn (s : State) : (afterPayload s).irqEn = s.irqEn := rfl
@[simp] theorem afterPayload_inLen (s : State) : (afterPayload s).inLen = s.inLen := rfl
@[simp] theorem afterPayload_payLen (s : State) : (afterPayload s).payLen = s.payLen := rfl
@[simp] theorem afterPayload_pad (s : State) : (afterPayload s).pad = s.pad := rfl
@[simp] theorem afterPayload_outLen (s : State) : (afterPayload s).outLen = s.outLen := rfl
@[simp] theorem afterPayload_treeValid (s : State) : (afterPayload s).treeValid = s.treeValid := rfl
@[simp] theorem afterPayload_root (s : State) : (afterPayload s).root = s.root := rfl
@[simp] theorem afterPayload_nnodes (s : State) : (afterPayload s).nnodes = s.nnodes := rfl
@[simp] theorem afterPayload_errInfo (s : State) : (afterPayload s).errInfo = s.errInfo := rfl
@[simp] theorem afterPayload_freq (s : State) : (afterPayload s).freq = s.freq := rfl
@[simp] theorem afterPayload_codeLen (s : State) : (afterPayload s).codeLen = s.codeLen := rfl
@[simp] theorem afterPayload_codeBits (s : State) : (afterPayload s).codeBits = s.codeBits := rfl
@[simp] theorem afterPayload_node (s : State) : (afterPayload s).node = s.node := rfl
@[simp] theorem afterPayload_inMem (s : State) : (afterPayload s).inMem = s.inMem := rfl
@[simp] theorem afterPayload_payMem (s : State) : (afterPayload s).payMem = s.payMem := rfl
@[simp] theorem afterPayload_outMem (s : State) : (afterPayload s).outMem = s.outMem := rfl
@[simp] theorem afterPayload_rst (s : State) : (afterPayload s).rst = s.rst := rfl
@[simp] theorem afterPayload_resp (s : State) : (afterPayload s).resp = s.resp := rfl
@[simp] theorem afterPayload_host (s : State) : (afterPayload s).host = s.host := rfl
@[simp] theorem afterPayload_script (s : State) : (afterPayload s).script = s.script := rfl
@[simp] theorem afterPayload_draws (s : State) :
    (afterPayload s).draws = (readBytes s.payMem 0 s.payLen.toNat s.draws).2 := rfl

/-! ### installTree -/

@[simp] theorem installTree_params (s : State) (t : TreeTables) : (installTree s t).params = s.params := rfl
@[simp] theorem installTree_engine (s : State) (t : TreeTables) : (installTree s t).engine = s.engine := rfl
@[simp] theorem installTree_status (s : State) (t : TreeTables) : (installTree s t).status = s.status := rfl
@[simp] theorem installTree_irqEn (s : State) (t : TreeTables) : (installTree s t).irqEn = s.irqEn := rfl
@[simp] theorem installTree_inLen (s : State) (t : TreeTables) : (installTree s t).inLen = s.inLen := rfl
@[simp] theorem installTree_payLen (s : State) (t : TreeTables) : (installTree s t).payLen = s.payLen := rfl
@[simp] theorem installTree_pad (s : State) (t : TreeTables) : (installTree s t).pad = s.pad := rfl
@[simp] theorem installTree_outLen (s : State) (t : TreeTables) : (installTree s t).outLen = s.outLen := rfl
@[simp] theorem installTree_treeValid (s : State) (t : TreeTables) : (installTree s t).treeValid = true := rfl
@[simp] theorem installTree_root (s : State) (t : TreeTables) : (installTree s t).root = t.root := rfl
@[simp] theorem installTree_nnodes (s : State) (t : TreeTables) : (installTree s t).nnodes = t.nnodes := rfl
@[simp] theorem installTree_errInfo (s : State) (t : TreeTables) : (installTree s t).errInfo = s.errInfo := rfl
@[simp] theorem installTree_freq (s : State) (t : TreeTables) : (installTree s t).freq = s.freq := rfl
@[simp] theorem installTree_codeLen (s : State) (t : TreeTables) : (installTree s t).codeLen = t.codeLen := rfl
@[simp] theorem installTree_codeBits (s : State) (t : TreeTables) : (installTree s t).codeBits = t.codeBits := rfl
@[simp] theorem installTree_node (s : State) (t : TreeTables) : (installTree s t).node = t.node := rfl
@[simp] theorem installTree_inMem (s : State) (t : TreeTables) : (installTree s t).inMem = s.inMem := rfl
@[simp] theorem installTree_payMem (s : State) (t : TreeTables) : (installTree s t).payMem = s.payMem := rfl
@[simp] theorem installTree_outMem (s : State) (t : TreeTables) : (installTree s t).outMem = s.outMem := rfl
@[simp] theorem installTree_rst (s : State) (t : TreeTables) : (installTree s t).rst = s.rst := rfl
@[simp] theorem installTree_resp (s : State) (t : TreeTables) : (installTree s t).resp = s.resp := rfl
@[simp] theorem installTree_host (s : State) (t : TreeTables) : (installTree s t).host = s.host := rfl
@[simp] theorem installTree_script (s : State) (t : TreeTables) : (installTree s t).script = s.script := rfl
@[simp] theorem installTree_draws (s : State) (t : TreeTables) : (installTree s t).draws = s.draws := rfl

/-! ### packed -/

@[simp] theorem packed_params (s : State) (bs : List Byte) : (packed s bs).params = s.params := rfl
@[simp] theorem packed_engine (s : State) (bs : List Byte) : (packed s bs).engine = s.engine := rfl
@[simp] theorem packed_status (s : State) (bs : List Byte) : (packed s bs).status = s.status := rfl
@[simp] theorem packed_irqEn (s : State) (bs : List Byte) : (packed s bs).irqEn = s.irqEn := rfl
@[simp] theorem packed_inLen (s : State) (bs : List Byte) : (packed s bs).inLen = s.inLen := rfl
@[simp] theorem packed_payLen (s : State) (bs : List Byte) :
    (packed s bs).payLen = BitVec.ofNat 32 (bytesFor (totalBits s.codeLen bs)) := rfl
@[simp] theorem packed_pad (s : State) (bs : List Byte) :
    (packed s bs).pad = BitVec.ofNat 8 (8 * bytesFor (totalBits s.codeLen bs) - totalBits s.codeLen bs) := rfl
@[simp] theorem packed_outLen (s : State) (bs : List Byte) : (packed s bs).outLen = s.outLen := rfl
@[simp] theorem packed_treeValid (s : State) (bs : List Byte) : (packed s bs).treeValid = s.treeValid := rfl
@[simp] theorem packed_root (s : State) (bs : List Byte) : (packed s bs).root = s.root := rfl
@[simp] theorem packed_nnodes (s : State) (bs : List Byte) : (packed s bs).nnodes = s.nnodes := rfl
@[simp] theorem packed_errInfo (s : State) (bs : List Byte) : (packed s bs).errInfo = s.errInfo := rfl
@[simp] theorem packed_freq (s : State) (bs : List Byte) : (packed s bs).freq = s.freq := rfl
@[simp] theorem packed_codeLen (s : State) (bs : List Byte) : (packed s bs).codeLen = s.codeLen := rfl
@[simp] theorem packed_codeBits (s : State) (bs : List Byte) : (packed s bs).codeBits = s.codeBits := rfl
@[simp] theorem packed_node (s : State) (bs : List Byte) : (packed s bs).node = s.node := rfl
@[simp] theorem packed_inMem (s : State) (bs : List Byte) : (packed s bs).inMem = s.inMem := rfl
@[simp] theorem packed_payMem (s : State) (bs : List Byte) :
    (packed s bs).payMem = s.payMem.writeBytes 0 (packBits (codeBitsOf s bs) (bytesFor (totalBits s.codeLen bs))) := rfl
@[simp] theorem packed_outMem (s : State) (bs : List Byte) : (packed s bs).outMem = s.outMem := rfl
@[simp] theorem packed_rst (s : State) (bs : List Byte) : (packed s bs).rst = s.rst := rfl
@[simp] theorem packed_resp (s : State) (bs : List Byte) : (packed s bs).resp = s.resp := rfl
@[simp] theorem packed_host (s : State) (bs : List Byte) : (packed s bs).host = s.host := rfl
@[simp] theorem packed_script (s : State) (bs : List Byte) : (packed s bs).script = s.script := rfl
@[simp] theorem packed_draws (s : State) (bs : List Byte) : (packed s bs).draws = s.draws := rfl

/-! ### serialized -/

@[simp] theorem serialized_params (s : State) : (serialized s).params = s.params := rfl
@[simp] theorem serialized_engine (s : State) : (serialized s).engine = s.engine := rfl
@[simp] theorem serialized_status (s : State) : (serialized s).status = s.status := rfl
@[simp] theorem serialized_irqEn (s : State) : (serialized s).irqEn = s.irqEn := rfl
@[simp] theorem serialized_inLen (s : State) : (serialized s).inLen = s.inLen := rfl
@[simp] theorem serialized_payLen (s : State) : (serialized s).payLen = s.payLen := rfl
@[simp] theorem serialized_pad (s : State) : (serialized s).pad = s.pad := rfl
@[simp] theorem serialized_outLen (s : State) : (serialized s).outLen = BitVec.ofNat 32 (containerSize s) := rfl
@[simp] theorem serialized_treeValid (s : State) : (serialized s).treeValid = s.treeValid := rfl
@[simp] theorem serialized_root (s : State) : (serialized s).root = s.root := rfl
@[simp] theorem serialized_nnodes (s : State) : (serialized s).nnodes = s.nnodes := rfl
@[simp] theorem serialized_errInfo (s : State) : (serialized s).errInfo = s.errInfo := rfl
@[simp] theorem serialized_freq (s : State) : (serialized s).freq = s.freq := rfl
@[simp] theorem serialized_codeLen (s : State) : (serialized s).codeLen = s.codeLen := rfl
@[simp] theorem serialized_codeBits (s : State) : (serialized s).codeBits = s.codeBits := rfl
@[simp] theorem serialized_node (s : State) : (serialized s).node = s.node := rfl
@[simp] theorem serialized_inMem (s : State) : (serialized s).inMem = s.inMem := rfl
@[simp] theorem serialized_payMem (s : State) : (serialized s).payMem = s.payMem := rfl
@[simp] theorem serialized_outMem (s : State) :
    (serialized s).outMem = s.outMem.writeBytes 0 (containerBytes ⟨tableOfFreq s.freq, s.pad, payloadBytes s⟩) := rfl
@[simp] theorem serialized_rst (s : State) : (serialized s).rst = s.rst := rfl
@[simp] theorem serialized_resp (s : State) : (serialized s).resp = s.resp := rfl
@[simp] theorem serialized_host (s : State) : (serialized s).host = s.host := rfl
@[simp] theorem serialized_script (s : State) : (serialized s).script = s.script := rfl
@[simp] theorem serialized_draws (s : State) :
    (serialized s).draws = (readBytes s.payMem 0 s.payLen.toNat s.draws).2 := rfl

/-! ### parsed -/

@[simp] theorem parsed_params (s : State) (c : Container) : (parsed s c).params = s.params := rfl
@[simp] theorem parsed_engine (s : State) (c : Container) : (parsed s c).engine = s.engine := rfl
@[simp] theorem parsed_status (s : State) (c : Container) : (parsed s c).status = s.status := rfl
@[simp] theorem parsed_irqEn (s : State) (c : Container) : (parsed s c).irqEn = s.irqEn := rfl
@[simp] theorem parsed_inLen (s : State) (c : Container) : (parsed s c).inLen = s.inLen := rfl
@[simp] theorem parsed_payLen (s : State) (c : Container) :
    (parsed s c).payLen = BitVec.ofNat 32 c.payload.length := rfl
@[simp] theorem parsed_pad (s : State) (c : Container) : (parsed s c).pad = c.pad := rfl
@[simp] theorem parsed_outLen (s : State) (c : Container) : (parsed s c).outLen = s.outLen := rfl
@[simp] theorem parsed_treeValid (s : State) (c : Container) : (parsed s c).treeValid = false := rfl
@[simp] theorem parsed_root (s : State) (c : Container) : (parsed s c).root = s.root := rfl
@[simp] theorem parsed_nnodes (s : State) (c : Container) : (parsed s c).nnodes = s.nnodes := rfl
@[simp] theorem parsed_errInfo (s : State) (c : Container) : (parsed s c).errInfo = s.errInfo := rfl
@[simp] theorem parsed_freq (s : State) (c : Container) : (parsed s c).freq = freqOfTable c.table := rfl
@[simp] theorem parsed_codeLen (s : State) (c : Container) : (parsed s c).codeLen = s.codeLen := rfl
@[simp] theorem parsed_codeBits (s : State) (c : Container) : (parsed s c).codeBits = s.codeBits := rfl
@[simp] theorem parsed_node (s : State) (c : Container) : (parsed s c).node = s.node := rfl
@[simp] theorem parsed_inMem (s : State) (c : Container) : (parsed s c).inMem = s.inMem := rfl
@[simp] theorem parsed_payMem (s : State) (c : Container) :
    (parsed s c).payMem = s.payMem.writeBytes 0 c.payload := rfl
@[simp] theorem parsed_outMem (s : State) (c : Container) : (parsed s c).outMem = s.outMem := rfl
@[simp] theorem parsed_rst (s : State) (c : Container) : (parsed s c).rst = s.rst := rfl
@[simp] theorem parsed_resp (s : State) (c : Container) : (parsed s c).resp = s.resp := rfl
@[simp] theorem parsed_host (s : State) (c : Container) : (parsed s c).host = s.host := rfl
@[simp] theorem parsed_script (s : State) (c : Container) : (parsed s c).script = s.script := rfl
@[simp] theorem parsed_draws (s : State) (c : Container) : (parsed s c).draws = s.draws := rfl

/-! ### afterWalkError -/

@[simp] theorem afterWalkError_params (s : State) : (afterWalkError s).params = s.params := rfl
@[simp] theorem afterWalkError_engine (s : State) : (afterWalkError s).engine = s.engine := rfl
@[simp] theorem afterWalkError_status (s : State) : (afterWalkError s).status = s.status := rfl
@[simp] theorem afterWalkError_irqEn (s : State) : (afterWalkError s).irqEn = s.irqEn := rfl
@[simp] theorem afterWalkError_inLen (s : State) : (afterWalkError s).inLen = s.inLen := rfl
@[simp] theorem afterWalkError_payLen (s : State) : (afterWalkError s).payLen = s.payLen := rfl
@[simp] theorem afterWalkError_pad (s : State) : (afterWalkError s).pad = s.pad := rfl
@[simp] theorem afterWalkError_outLen (s : State) : (afterWalkError s).outLen = s.outLen := rfl
@[simp] theorem afterWalkError_treeValid (s : State) : (afterWalkError s).treeValid = s.treeValid := rfl
@[simp] theorem afterWalkError_root (s : State) : (afterWalkError s).root = s.root := rfl
@[simp] theorem afterWalkError_nnodes (s : State) : (afterWalkError s).nnodes = s.nnodes := rfl
@[simp] theorem afterWalkError_errInfo (s : State) : (afterWalkError s).errInfo = s.errInfo := rfl
@[simp] theorem afterWalkError_freq (s : State) : (afterWalkError s).freq = s.freq := rfl
@[simp] theorem afterWalkError_codeLen (s : State) : (afterWalkError s).codeLen = s.codeLen := rfl
@[simp] theorem afterWalkError_codeBits (s : State) : (afterWalkError s).codeBits = s.codeBits := rfl
@[simp] theorem afterWalkError_node (s : State) : (afterWalkError s).node = s.node := rfl
@[simp] theorem afterWalkError_inMem (s : State) : (afterWalkError s).inMem = s.inMem := rfl
@[simp] theorem afterWalkError_payMem (s : State) : (afterWalkError s).payMem = s.payMem := rfl
@[simp] theorem afterWalkError_outMem (s : State) : (afterWalkError s).outMem = [] := rfl
@[simp] theorem afterWalkError_rst (s : State) : (afterWalkError s).rst = s.rst := rfl
@[simp] theorem afterWalkError_resp (s : State) : (afterWalkError s).resp = s.resp := rfl
@[simp] theorem afterWalkError_host (s : State) : (afterWalkError s).host = s.host := rfl
@[simp] theorem afterWalkError_script (s : State) : (afterWalkError s).script = s.script := rfl
@[simp] theorem afterWalkError_draws (s : State) : (afterWalkError s).draws = s.draws := rfl

/-! ### unpacked -/

@[simp] theorem unpacked_params (s : State) (out : List Byte) : (unpacked s out).params = s.params := rfl
@[simp] theorem unpacked_engine (s : State) (out : List Byte) : (unpacked s out).engine = s.engine := rfl
@[simp] theorem unpacked_status (s : State) (out : List Byte) : (unpacked s out).status = s.status := rfl
@[simp] theorem unpacked_irqEn (s : State) (out : List Byte) : (unpacked s out).irqEn = s.irqEn := rfl
@[simp] theorem unpacked_inLen (s : State) (out : List Byte) : (unpacked s out).inLen = s.inLen := rfl
@[simp] theorem unpacked_payLen (s : State) (out : List Byte) : (unpacked s out).payLen = s.payLen := rfl
@[simp] theorem unpacked_pad (s : State) (out : List Byte) : (unpacked s out).pad = s.pad := rfl
@[simp] theorem unpacked_outLen (s : State) (out : List Byte) :
    (unpacked s out).outLen = BitVec.ofNat 32 out.length := rfl
@[simp] theorem unpacked_treeValid (s : State) (out : List Byte) : (unpacked s out).treeValid = s.treeValid := rfl
@[simp] theorem unpacked_root (s : State) (out : List Byte) : (unpacked s out).root = s.root := rfl
@[simp] theorem unpacked_nnodes (s : State) (out : List Byte) : (unpacked s out).nnodes = s.nnodes := rfl
@[simp] theorem unpacked_errInfo (s : State) (out : List Byte) : (unpacked s out).errInfo = s.errInfo := rfl
@[simp] theorem unpacked_freq (s : State) (out : List Byte) : (unpacked s out).freq = s.freq := rfl
@[simp] theorem unpacked_codeLen (s : State) (out : List Byte) : (unpacked s out).codeLen = s.codeLen := rfl
@[simp] theorem unpacked_codeBits (s : State) (out : List Byte) : (unpacked s out).codeBits = s.codeBits := rfl
@[simp] theorem unpacked_node (s : State) (out : List Byte) : (unpacked s out).node = s.node := rfl
@[simp] theorem unpacked_inMem (s : State) (out : List Byte) : (unpacked s out).inMem = s.inMem := rfl
@[simp] theorem unpacked_payMem (s : State) (out : List Byte) : (unpacked s out).payMem = s.payMem := rfl
@[simp] theorem unpacked_outMem (s : State) (out : List Byte) :
    (unpacked s out).outMem = s.outMem.writeBytes 0 out := rfl
@[simp] theorem unpacked_rst (s : State) (out : List Byte) : (unpacked s out).rst = s.rst := rfl
@[simp] theorem unpacked_resp (s : State) (out : List Byte) : (unpacked s out).resp = s.resp := rfl
@[simp] theorem unpacked_host (s : State) (out : List Byte) : (unpacked s out).host = s.host := rfl
@[simp] theorem unpacked_script (s : State) (out : List Byte) : (unpacked s out).script = s.script := rfl
@[simp] theorem unpacked_draws (s : State) (out : List Byte) : (unpacked s out).draws = s.draws := rfl

end Sys2Proof.Machine
end

