-- ==== Sys2Proof/Laws/Step.lean ====
section
/-! SUPPORT. What completion, the two agents, a step and a run can do. -/

namespace Sys2Proof.Machine

/-! ## Completion and composites -/

/-- Completion leaves the engine IDLE (40_command_dispatch.md R113). -/
theorem complete_engine (r : CmdResult) : (complete r).engine = .idle := by cases r <;> rfl

/-- Completion sets DONE (40_command_dispatch.md R113). -/
theorem complete_done (r : CmdResult) : (complete r).status.done = true := by cases r <;> rfl

/-- A command that completes without ERR ended with its effects applied (40_command_dispatch.md R113). -/
theorem complete_err_false {r : CmdResult} (h : (complete r).status.err = false) : ∃ s, r = .ok s := by
  cases r with
  | ok s => exact ⟨s, rfl⟩
  | raised e info s => cases h

/-- A command that completes with ERR raised the error that ERRCODE names (60_exceptions.md R258). -/
theorem complete_err_true {r : CmdResult} (h : (complete r).status.err = true) :
    ∃ e info s, r = .raised e info s := by
  cases r with
  | ok s => cases h
  | raised e info s => exact ⟨e, info, s, rfl⟩

@[simp] theorem andThen_ok (s : State) (next : State → CmdResult) : (CmdResult.ok s).andThen next = next s := rfl
@[simp] theorem andThen_raised (e : Err) (info : Word) (s : State) (next : State → CmdResult) :
    (CmdResult.raised e info s).andThen next = .raised e info s := rfl

/-- A composite succeeds exactly when its sub-commands do, each on the state the one before left
(60_exceptions.md R255). -/
theorem andThen_eq_ok {r : CmdResult} {next : State → CmdResult} {u : State} :
    r.andThen next = .ok u ↔ ∃ t, r = .ok t ∧ next t = .ok u := by
  cases r <;> simp

/-- A composite raises what its first sub-command that raises raises (60_exceptions.md R255). -/
theorem andThen_eq_raised {r : CmdResult} {next : State → CmdResult} {e : Err} {info : Word} {u : State} :
    r.andThen next = .raised e info u ↔ r = .raised e info u ∨ ∃ t, r = .ok t ∧ next t = .raised e info u := by
  cases r <;> simp

/-- `exec` is the command's rule followed by its completion (40_command_dispatch.md R113). -/
theorem exec_eq_complete (i : Instr) (s : State) : ∃ r, exec i s = .next (complete r) := by
  cases i <;> exact ⟨_, rfl⟩

/-! ## What a transaction and a host turn keep -/

/-- While BUSY no transaction changes the engine, the script or the reset line (20_memory.md R68). -/
theorem transact_busy (t : Txn) {s : State} {w : Word} (h : s.engine = .busy w) :
    (transact t s).engine = .busy w ∧ (transact t s).script = s.script ∧ (transact t s).rst = s.rst := by
  cases t with
  | read a size => simp only [transact]; split_ifs <;> exact ⟨h, rfl, rfl⟩
  | write a size d =>
    simp only [transact]
    split_ifs
    · exact ⟨h, rfl, rfl⟩
    · exact ⟨h, rfl, rfl⟩
    · cases hl : decodeAddr a with
      | reg r =>
        cases r <;> simp [writeLoc, writeReg, whenIdle, busy, h, setOvr, writeStatus]
        split_ifs <;> simp [acknowledge, h]
      | _ => simp [writeLoc, whenIdle, busy, h, setOvr]

/-- While BUSY no host statement changes the engine, the script or the reset line (20_memory.md R68). -/
theorem hostStep_busy {s : State} {w : Word} (h : s.engine = .busy w) :
    (hostStep s).engine = .busy w ∧ (hostStep s).script = s.script ∧ (hostStep s).rst = s.rst := by
  unfold hostStep
  split_ifs
  · exact ⟨h, rfl, rfl⟩
  · split
    · rename_i stmt _
      cases stmt <;> simp [runStmt, hostWrite, hostRead, hostBranch, transact_busy _ h, h]
    · exact ⟨h, rfl, rfl⟩

/-! ## Steps and runs -/

theorem engineStep_next (s : State) : ∃ t, engineStep s = .next t := by
  unfold engineStep
  split_ifs
  · exact ⟨_, rfl⟩
  · split
    · exact ⟨_, rfl⟩
    · split
      · obtain ⟨r, h⟩ := exec_eq_complete _ s; exact ⟨_, h⟩
      · exact ⟨_, rfl⟩

theorem step_cons {s : State} {e : Event} {rest : List Event} (h : s.script = e :: rest) :
    step s = eventStep e { s with script := rest } := by
  simp [step, h]

theorem step_nil {s : State} (h : s.script = []) : step s = defaultStep s := by
  simp [step, h]

/-- One more step of a run that goes on. -/
theorem core_run_succ {s t : State} (h : step s = .next t) (k : Nat) : core.run (k + 1) s = core.run k t := by
  have run_succ : ∀ (M : Host.Core) (u : M.State), M.run (k + 1) u = match M.step u with
      | .next u' => M.run k u'
      | .fault r => .fault r
      | .refused r => .refused r := fun _ _ => rfl
  have h' : core.step s = .next t := h
  rw [run_succ core s, h']

end Sys2Proof.Machine
end

