-- ==== Sys2Proof/Laws/Commands.lean ====
section
/-! SUPPORT. How the commands go: their success equations and how they fail. -/

namespace Sys2Proof.Machine

/-- A next state is determined. -/
theorem next_inj {a b : State} (h : (Host.Outcome.next a : Host.Outcome State Fault Refusal) = .next b) :
    a = b := by cases h; rfl

theorem inputBytes_length (s) : (inputBytes s).length = s.inLen.toNat := readBytes_length ..

theorem payloadBytes_length (s) : (payloadBytes s).length = s.payLen.toNat := readBytes_length ..

/-- A command whose rule raises an error on an otherwise unchanged state fails cleanly (60_exceptions.md R252). -/
theorem failsCleanly_of_raise {i : Instr} {r : CmdResult} {s u : State} {e : Err} {n : Nat}
    (h : exec i s = .next (complete r)) (hr : r = raise e n u) (hn : n < 2^32) (hu : u = { s with draws := u.draws })
    : FailsCleanly i e n s := by
  subst hr
  refine ⟨_, h, ⟨rfl, ?_, ?_⟩, ?_⟩
  · simp [raise, complete]; omega
  · rw [hu]; rfl
  · rw [hu]; rfl

/-- A command whose rule raises an error fails with it (40_command_dispatch.md R113). -/
theorem failedWith_of_raise {i : Instr} {r : CmdResult} {s u : State} {e : Err} {n : Nat}
    (h : exec i s = .next (complete r)) (hr : r = raise e n u) (hn : n < 2^32) (hu : u.status = s.status) :
    ∃ t, exec i s = .next t ∧ FailedWith e n s t := by
  subst hr
  refine ⟨_, h, ⟨rfl, ?_, ?_⟩⟩
  · simp [raise, complete]; omega
  · simp [raise, complete, hu]

/-- Reading a written input makes no free draw. -/
theorem afterInput_written {s : State} (h : InputWritten s) : afterInput s = s := by
  have := readBytes_draws (m := s.inMem) s.draws h
  simp [afterInput, this]

/-- An entry of the counts, as a number (41_frequency_counter.md R130). -/
theorem countTable_toNat (l : List Byte) (h : l.length < 2^32) (b) :
    (tableAt (countTable l) b).toNat = l.count b := by
  have := List.count_le_length (a := b) (l := l)
  simp [countTable]; omega

/-- The present symbols of the counts are the bytes that occur (41_frequency_counter.md R132). -/
theorem countTable_ne_zero {l : List Byte} (h : l.length < 2^32) (b : Byte) :
    tableAt (countTable l) b ≠ 0 ↔ b ∈ l := by
  rw [← List.count_pos_iff, ← countTable_toNat _ h b]
  constructor
  · intro hn; apply Nat.pos_of_ne_zero; intro e; exact hn (BitVec.eq_of_toNat_eq e)
  · intro hp e; rw [e] at hp; simp at hp

/-- The counts have no present symbol exactly for an empty input. -/
theorem nsym_countTable {l : List Byte} (h : l.length < 2^32) : nsym (countTable l) = 0 ↔ l = [] := by
  rw [nsym_eq_zero]
  constructor
  · intro g; rw [List.eq_nil_iff_forall_not_mem]; intro b hb; exact (countTable_ne_zero h b).2 hb (g b)
  · rintro rfl b; simp [countTable]

theorem codeOf_len (s : State) (b) : (codeOf s b).length = codeLenAt s.codeLen b := by simp [codeOf]

/-- The code bits of an input are as many as `totalBits` says. -/
theorem codeBits_length (s : State) (l : List Byte) : (l.flatMap (codeOf s)).length = totalBits s.codeLen l := by
  simp [List.length_flatMap, totalBits, codeOf_len]

/-- A code has at most 255 symbols. -/
theorem totalBits_le (cl : Vector Byte 256) (l : List Byte) : totalBits cl l ≤ 255 * l.length := by
  induction l with
  | nil => simp [totalBits]
  | cons b l ih =>
    have := (tableAt cl b).isLt
    simp only [totalBits, List.map_cons, List.sum_cons, List.length_cons, codeLenAt] at *; omega

/-- No byte is uncoded (43_bit_packer.md R170). -/
theorem firstUncoded_none (cl : Vector Byte 256) (l : List Byte) :
    firstUncoded cl l = none ↔ ∀ b ∈ l, codeLenAt cl b ≠ 0 := by
  simp [firstUncoded, List.findIdx?_eq_none_iff]

/-- The first uncoded byte (43_bit_packer.md R170). -/
theorem firstUncoded_some (cl : Vector Byte 256) (l : List Byte) (j) (hj : j < l.length) (h0 : codeLenAt cl l[j] = 0)
    (h : ∀ i (h : i < j), codeLenAt cl (l[i]) ≠ 0) : firstUncoded cl l = some j := by
  rw [firstUncoded, List.findIdx?_eq_some_iff_getElem]
  exact ⟨hj, by simpa using h0, fun i hi => by simpa using h i hi⟩

/-- PACK of a non-empty input that is not too long, with a tree (43_bit_packer.md R170). -/
theorem cmdPack_checked {s : State} (h1 : s.inLen.toNat ≤ s.params.inCap.val) (h2 : s.inLen ≠ 0)
    (h3 : s.treeValid = true) : cmdPack s = packChecked (afterInput s) (inputBytes s) := by
  rw [cmdPack, if_neg (Nat.not_lt.2 h1), if_neg h2, if_neg (by simp [h3])]

/-- How PACK succeeds (43_bit_packer.md R170). -/
theorem cmdPack_ok {s : State} {u : State} (h : cmdPack s = .ok u) :
    (s.inLen = 0 ∧ u = { s with payLen := 0, pad := 0 }) ∨ (s.inLen ≠ 0 ∧ s.inLen.toNat ≤ s.params.inCap.val ∧
    s.treeValid = true ∧ (∀ b ∈ inputBytes s, codeLenAt s.codeLen b ≠ 0) ∧ bytesFor
    (totalBits s.codeLen (inputBytes s)) ≤ s.params.payCap.val ∧ u = packed (afterInput s)
    (inputBytes s)) := by
  unfold cmdPack at h
  by_cases h1 : s.inLen.toNat > s.params.inCap.val
  · rw [if_pos h1] at h; cases h
  rw [if_neg h1] at h
  by_cases h2 : s.inLen = 0
  · rw [if_pos h2] at h; cases h; exact .inl ⟨h2, rfl⟩
  rw [if_neg h2] at h
  by_cases h3 : s.treeValid = false
  · rw [if_pos h3] at h; cases h
  rw [if_neg h3, packChecked] at h
  cases hn : firstUncoded (afterInput s).codeLen (inputBytes s) with
  | some j => simp only [hn] at h; cases h
  | none =>
    simp only [hn] at h
    split_ifs at h with h4
    · cases h
    · cases h
      exact .inr ⟨h2, by omega, by simpa using h3, (firstUncoded_none _ _).1 hn, Nat.not_lt.1 h4, rfl⟩

/-- Reading back a payload that was packed. -/
theorem payloadBytes_packed {s : State} (n : Nat) (p : Bits) (hn : n < 2^32) (u : State)
    (hp : u.payMem = s.payMem.writeBytes 0 (packBits p n)) (hl : u.payLen = BitVec.ofNat 32 n) :
    payloadBytes u = packBits p n := by
  unfold payloadBytes
  rw [hp, hl]
  have e : (BitVec.ofNat 32 n).toNat = (packBits p n).length := by simp [packBits]; omega
  rw [e, readBytes_eq]
  intro i hi
  rw [Memory.read_writeBytes]
  simp [hi]

/-- SERIALIZE of a consistent state (44_container_codec.md R192). -/
theorem cmdSerialize_checked {s : State} (h1 : s.pad.toNat ≤ 7) (h2 : s.payLen.toNat ≤ s.params.payCap.val)
    (h3 : nsym s.freq = 0 → s.payLen = 0 ∧ s.pad = 0) (h4 : s.payLen = 0 → s.pad = 0) :
    cmdSerialize s = if containerSize s > s.params.outCap.val then raise .capacity (containerSize s) s else .ok
        (serialized s) := by
  rw [cmdSerialize, if_neg (by omega), if_neg (by omega), if_neg, if_neg]
  · rintro ⟨a, b⟩; exact b (h4 a)
  · rintro ⟨a, b⟩; have := h3 a; tauto

/-- How SERIALIZE succeeds (44_container_codec.md R192). -/
theorem cmdSerialize_ok {s u : State} (h : cmdSerialize s = .ok u) :
    s.pad.toNat ≤ 7 ∧ s.payLen.toNat ≤ s.params.payCap.val ∧ (nsym s.freq = 0 → s.payLen = 0 ∧ s.pad = 0) ∧
    (s.payLen = 0 → s.pad = 0) ∧ containerSize s ≤ s.params.outCap.val ∧ u = serialized s := by
  unfold cmdSerialize at h
  by_cases h1 : s.pad.toNat > 7
  · rw [if_pos h1] at h; cases h
  rw [if_neg h1] at h
  by_cases h2 : s.payLen.toNat > s.params.payCap.val
  · rw [if_pos h2] at h; cases h
  rw [if_neg h2] at h
  by_cases h3 : nsym s.freq = 0 ∧ (s.payLen ≠ 0 ∨ s.pad ≠ 0)
  · rw [if_pos h3] at h; cases h
  rw [if_neg h3] at h
  by_cases h4 : s.payLen = 0 ∧ s.pad ≠ 0
  · rw [if_pos h4] at h; cases h
  rw [if_neg h4] at h
  by_cases h5 : containerSize s > s.params.outCap.val
  · rw [if_pos h5] at h; cases h
  rw [if_neg h5] at h
  cases h
  refine ⟨by omega, by omega, ?_, ?_, by omega, rfl⟩
  · intro h; by_contra hn; apply h3; tauto
  · intro h; by_contra hn; exact h4 ⟨h, hn⟩

/-- PARSE of an input it accepts (44_container_codec.md R193). -/
theorem cmdParse_accepts {s : State} (h1 : s.inLen.toNat ≤ s.params.inCap.val) {c}
    (h : parseContainer s.params.payCap.val (inputBytes s) = .ok c) : cmdParse s = .ok (parsed (afterInput s) c) := by
  rw [cmdParse, if_neg (by omega), h]

/-- UNPACK where it reaches the walk (45_decoder.md R220). -/
theorem cmdUnpack_walks {s : State} (h1 : s.pad.toNat ≤ 7) (h2 : s.payLen ≠ 0)
    (h3 : s.payLen.toNat ≤ s.params.payCap.val) (h4 : s.treeValid = true) : cmdUnpack s =  match decodeBits s
    (unpaddedBits (payloadBytes s) s.pad.toNat) with
    | .error e => raise e.1 e.2 (afterWalkError (afterPayload s))
    | .ok out => .ok (unpacked (afterPayload s) out) := by
  have hz : s.payLen.toNat ≠ 0 := fun e => h2 (BitVec.eq_of_toNat_eq e)
  rw [cmdUnpack, if_neg (by omega), if_neg (by omega), if_neg (by tauto), if_neg (by omega), if_neg (by simp [h4])]
  try rfl

/-- The unpadded bits are at most 8 for each payload byte. -/
theorem unpaddedBits_length_le (s : State) (p : Nat) :
    (unpaddedBits (payloadBytes s) p).length ≤ 8 * s.payLen.toNat := by
  unfold unpaddedBits
  rw [List.length_take, expandBits_length, payloadBytes_length]; omega

/-- A range write from offset 0 stands, and leaves the rest. -/
theorem holds_writeBytes (m : Memory) (bs : List Byte) :
    Holds (m.writeBytes 0 bs) bs ∧ SameFrom bs.length m (m.writeBytes 0 bs) := by
  constructor
  · intro k hk; rw [Memory.read_writeBytes, dif_pos (by omega)]; simp
  · intro a ha; rw [Memory.read_writeBytes, dif_neg (by omega)]

/-- A written range reads as it stands. -/
theorem readBytes_written {m : Memory} {len : Nat} (h : m.written 0 len = true) {k : Nat} (hk : k < len) (n : Nat) :
    ∃ v, m.read k = some v ∧ (readBytes m 0 len n).1[k]? = some v := by
  simp only [Memory.written, List.all_eq_true, List.mem_range] at h
  have := h k hk
  obtain ⟨v, hv⟩ := Option.isSome_iff_exists.1 this
  exact ⟨v, by simpa using hv, readBytes_getElem hk hv⟩

/-- a memory that holds bytes, copied to the input -/
theorem inputBytes_of_holds {u : State} {m : Memory} {bs : List Byte} (hm : Holds m bs)
    (hl : u.inLen.toNat = bs.length) (hr : ∀ k, k < bs.length → u.inMem.read k = m.read k) : inputBytes u = bs := by
  unfold inputBytes
  rw [hl, readBytes_eq]
  intro i hi
  rw [Nat.zero_add, hr i hi]; exact hm i hi

/-- A payload that stands written. -/
theorem payloadBytes_of_holds {p : State} {bs : List Byte} (hm : Holds p.payMem bs) (hl : p.payLen.toNat = bs.length)
    : payloadBytes p = bs ∧ afterPayload p = p := by
  have : readBytes p.payMem 0 p.payLen.toNat p.draws = (bs, p.draws) := by
    rw [hl, readBytes_eq]; intro i hi; rw [Nat.zero_add]; exact hm i hi
  constructor
  · simp [payloadBytes, this]
  · simp [afterPayload, this]

/-! ## Sub-commands of a composite

No command reads STATUS, ENGINE or ERR_INFO (10_state.md R25), so a sub-command that follows a completed one ends as it does
inside a composite (60_exceptions.md R255). -/

/-- BUILD after a completion (42_tree_builder.md R140). -/
theorem complete_cmdBuild (s : State) : complete (cmdBuild (complete (.ok s))) = complete (cmdBuild s) := by
  change complete (if nsym s.freq = 0 then _ else _) = complete (if nsym s.freq = 0 then _ else _)
  split_ifs <;> rfl

/-- BUILD as a sub-command after a completion (46_composite.md R240, R241). -/
theorem complete_buildIfAny (s : State) :
    complete (buildIfAny (complete (.ok s))) = complete (buildIfAny s) := by
  change complete (if nsym s.freq ≠ 0 then _ else _) = complete (if nsym s.freq ≠ 0 then _ else _)
  split_ifs
  · exact complete_cmdBuild s
  · rfl

/-- PACK's checks and writes after a completion (43_bit_packer.md R170). -/
theorem complete_packChecked (s : State) (bytes : List Byte) :
    complete (packChecked (complete (.ok s)) bytes) = complete (packChecked s bytes) := by
  change complete (match firstUncoded s.codeLen bytes with
    | some j => _
    | none => if bytesFor (totalBits s.codeLen bytes) > s.params.payCap.val then _ else _) = _
  unfold packChecked
  cases firstUncoded s.codeLen bytes with
  | some j => rfl
  | none => dsimp only; split_ifs <;> rfl

/-- PACK after a completion (43_bit_packer.md R170). -/
theorem complete_cmdPack (s : State) : complete (cmdPack (complete (.ok s))) = complete (cmdPack s) := by
  change complete (if s.inLen.toNat > s.params.inCap.val then _ else if s.inLen = 0 then _
    else if s.treeValid = false then _ else packChecked (complete (.ok (afterInput s))) (inputBytes s)) = _
  unfold cmdPack
  split_ifs
  · rfl
  · rfl
  · rfl
  · exact complete_packChecked (afterInput s) (inputBytes s)

/-- SERIALIZE after a completion (44_container_codec.md R192). -/
theorem complete_cmdSerialize (s : State) :
    complete (cmdSerialize (complete (.ok s))) = complete (cmdSerialize s) := by
  change complete (if s.pad.toNat > 7 then _ else if s.payLen.toNat > s.params.payCap.val then _
    else if nsym s.freq = 0 ∧ (s.payLen ≠ 0 ∨ s.pad ≠ 0) then _ else if s.payLen = 0 ∧ s.pad ≠ 0 then _
    else if containerSize s > s.params.outCap.val then _ else _) = _
  unfold cmdSerialize
  split_ifs <;> rfl

/-- UNPACK after a completion (45_decoder.md R220). -/
theorem complete_cmdUnpack (s : State) : complete (cmdUnpack (complete (.ok s))) = complete (cmdUnpack s) := by
  change complete (if s.pad.toNat > 7 then _ else if s.payLen.toNat > s.params.payCap.val then _
    else if s.payLen = 0 ∧ s.pad ≠ 0 then _ else if 8 * s.payLen.toNat - s.pad.toNat = 0 then _
    else if s.treeValid = false then _ else
      match decodeBits s (unpaddedBits (payloadBytes s) s.pad.toNat) with
      | .error e => _
      | .ok out => _) = _
  unfold cmdUnpack
  split_ifs <;> try rfl
  cases decodeBits s (unpaddedBits (payloadBytes s) s.pad.toNat) <;> rfl

end Sys2Proof.Machine
end

