-- ==== Sys2Proof/Laws/Decode.lean ====
section
/-! SUPPORT. The laws of the command decoder and of the address map. -/

namespace Sys2Proof

/-- RSV is 0 exactly when the word is below 16 (30_encoding.md R90). -/
theorem fieldRsv_eq_zero (w : Word) : fieldRsv w = 0 ↔ w.toNat < 16 := by
  rw [← BitVec.toNat_inj]
  simp [fieldRsv, BitVec.extractLsb'_toNat, Nat.shiftRight_eq_div_pow]
  omega

/-- A named location lies word aligned below 0x6000, and the offset decodes to it (30_encoding.md R97). -/
theorem RegLoc.offset_spec (r : RegLoc) (hr : r ≠ .reserved) :
    r.offset % 4 = 0 ∧ r.offset < 0x6000 ∧ decodeReg r.offset = r := by
  cases r with
  | freq b =>
    have := b.isLt
    simp only [RegLoc.offset]
    refine ⟨by omega, by omega, ?_⟩
    simp only [decodeReg]
    rw [if_neg (by omega), if_neg (by omega), if_pos (by omega)]
    congr 1; apply BitVec.eq_of_toNat_eq; rw [BitVec.toNat_ofNat]; omega
  | codeLen b =>
    have := b.isLt
    simp only [RegLoc.offset]
    refine ⟨by omega, by omega, ?_⟩
    simp only [decodeReg]
    rw [if_neg (by omega), if_neg (by omega), if_neg (by omega), if_pos (by omega)]
    congr 1; apply BitVec.eq_of_toNat_eq; rw [BitVec.toNat_ofNat]; omega
  | codeBits b w =>
    have := b.isLt
    simp only [RegLoc.offset]
    refine ⟨by omega, by omega, ?_⟩
    simp only [decodeReg]
    rw [if_neg (by omega), if_neg (by omega), if_neg (by omega), if_neg (by omega), if_neg (by omega),
      if_pos (by omega)]
    congr 1
    · apply BitVec.eq_of_toNat_eq; rw [BitVec.toNat_ofNat]; omega
    · apply Fin.ext; show _ / 4 = _; omega
  | node n k =>
    have := n.isLt
    simp only [RegLoc.offset]
    refine ⟨by omega, by omega, ?_⟩
    simp only [decodeReg]
    rw [if_neg (by omega), if_neg (by omega), if_neg (by omega), if_neg (by omega), if_neg (by omega),
      if_neg (by omega), if_neg (by omega), dif_pos (by omega)]
    congr 1
    · apply Fin.ext; show _ / 16 = _; omega
    · apply Fin.ext; show _ / 4 = _; omega
  | reserved => exact absurd rfl hr
  | _ => exact ⟨rfl, by decide, rfl⟩

/-- An aligned offset that decodes to a named location is that location's offset (10_state.md R22, R50). -/
theorem decodeReg_offset (o : Nat) (h : o % 4 = 0) (hr : decodeReg o ≠ .reserved) : (decodeReg o).offset = o := by
  unfold decodeReg at *
  split_ifs at * with h1 h2 h3 h4 h5 h6 h7 h8
  · obtain ⟨k, rfl⟩ : ∃ k, o = 4 * k := ⟨o / 4, by omega⟩
    have hk : k < 16 := by omega
    interval_cases k <;> rfl
  · simp at hr
  · simp [RegLoc.offset]; omega
  · simp [RegLoc.offset]; omega
  · simp at hr
  · simp [RegLoc.offset]; omega
  · simp at hr
  · simp [RegLoc.offset]; omega
  · simp at hr

/-- The window and offset of an address (20_memory.md R60). -/
theorem decodeAddr_of (a : Addr) (k o : Nat) (h : a.toNat = k * 2 ^ 24 + o) (ho : o < 2 ^ 24) :
    decodeAddr a = match k with
      | 0 => .reg (decodeReg o)
      | 1 => .inWin o
      | 2 => .outWin o
      | _ => .payWin o := by
  have h1 : (a.extractLsb' 0 24).toNat = o := by simp [BitVec.extractLsb'_toNat]; omega
  have h2 : (a.extractLsb' 24 2).toNat = k := by
    have := a.isLt
    simp [BitVec.extractLsb'_toNat, Nat.shiftRight_eq_div_pow]; omega
  subst h1 h2
  rfl

/-- A register's symbolic address is its offset and decodes to it (30_encoding.md R97). -/
theorem decodeAddr_reg (r : RegLoc) (hr : r ≠ .reserved) :
    (Loc.reg r).addr.toNat = r.offset ∧ decodeAddr (Loc.reg r).addr = .reg r := by
  obtain ⟨-, h2, h3⟩ := r.offset_spec hr
  have : (Loc.reg r).addr.toNat = r.offset := by simp [Loc.addr]; omega
  refine ⟨this, ?_⟩
  rw [decodeAddr_of _ 0 r.offset (by omega) (by omega)]; simp [h3]

/-- The register window is the lowest 2^24 addresses (20_memory.md R60). -/
theorem decodeAddr_isReg (a : Addr) : (∃ r, decodeAddr a = .reg r) ↔ a.toNat < 0x1000000 := by
  have h := decodeAddr_of a (a.toNat / 2 ^ 24) (a.toNat % 2 ^ 24) (by omega) (by omega)
  have : a.toNat / 2 ^ 24 < 4 := by have := a.isLt; omega
  rw [h]
  generalize hq : a.toNat / 2 ^ 24 = q at *
  interval_cases q <;> simp <;> omega

namespace Machine

/-- A word access to a named register is not refused (20_memory.md R62). -/
theorem refused_reg_word (r : RegLoc) (h : r ≠ .reserved) : refused (Loc.reg r).addr .word = false := by
  simp [refused, (decodeAddr_reg r h).1, (r.offset_spec h).1]

/-- A write of a named register outside reset is its register write (20_memory.md R61). -/
theorem transact_write_reg {s : State} {r : RegLoc} (h : r ≠ .reserved) (hr : s.rst = false) (v : Word) :
    transact (.write (Loc.reg r).addr .word v) s = { writeReg s r v with resp := some ⟨none, false⟩ } := by
  simp [transact, hr, refused_reg_word r h, (decodeAddr_reg r h).2, writeLoc]

/-- A read of a named register outside reset is its register read (20_memory.md R61). -/
theorem transact_read_reg {s : State} {r : RegLoc} (h : r ≠ .reserved) (hr : s.rst = false) :
    transact (.read (Loc.reg r).addr .word) s
      = { s with draws := (readReg s r).2, resp := some ⟨some (readReg s r).1, false⟩ } := by
  simp [transact, hr, refused_reg_word r h, (decodeAddr_reg r h).2, readLoc]

end Machine

end Sys2Proof
end

