-- ==== Sys2Proof/Laws/PerInstr.lean ====
section
/-! SUPPORT. The facts stated once per command: its word is legal, has RSV 0, and decodes to it. -/

namespace Sys2Proof.Laws.RoundTrip

/-- A command is well formed, its word is legal, and the word decodes to it, also as the table numbers it
(30_encoding.md R90 to R92). -/
def Statement (i : Instr) : Prop :=
  i.wf = true ∧ LegalWord (encode i) ∧ decodeWord (encode i) = .ok i ∧ decodeTableWord 32 (encode i).toNat = some i

theorem clear : Statement .clear := by unfold Statement; decide
theorem count : Statement .count := by unfold Statement; decide
theorem build : Statement .build := by unfold Statement; decide
theorem pack : Statement .pack := by unfold Statement; decide
theorem serialize : Statement .serialize := by unfold Statement; decide
theorem parse : Statement .parse := by unfold Statement; decide
theorem unpack : Statement .unpack := by unfold Statement; decide
theorem encode : Statement .encode := by unfold Statement; decide
theorem decode : Statement .decode := by unfold Statement; decide

end Sys2Proof.Laws.RoundTrip
end

