-- ==== Sys2Proof/Laws/Walk.lean ====
section
/-! SUPPORT. The Decoder State Machine over the codes of a tree (45_decoder.md R221 to R226). -/

namespace Sys2Proof.Machine

/-- In state AtRoot the start index held before does not matter (45_decoder.md R221). -/
theorem walk_start (node root cap bits cur st1 st2 i o) :
    walk node root cap bits .atRoot cur st1 i o = walk node root cap bits .atRoot cur st2 i o := by
  cases bits <;> simp [walk]

/-- The walk over the rest of a codeword emits its symbol, or fails at its last bit when OUT_MEM is full
(45_decoder.md R221). -/
theorem walk_code (node root cap) (c rest : Bits) (hc : c ≠ []) (st cur start i o)
   (hleaf : (nodeAt node (follow node cur c)).leaf = true)
       (hint : ∀ j, 0 < j → j < c.length → (nodeAt node (follow node cur (c.take j))).leaf = false) :
   walk node root cap (c ++ rest) st cur start i o = if o = cap then .error (.capacity, i + c.length - 1) else
     match walk node root cap rest .atRoot root 0 (i + c.length) (o+1) with
     | .ok out => .ok ((nodeAt node (follow node cur c)).sym :: out)
     | .error e => .error e := by
  induction c generalizing st cur start i with
  | nil => exact absurd rfl hc
  | cons b c ih =>
    rw [List.cons_append, walk]
    have hf : follow node cur (b :: c) = follow node (child node cur b) c := rfl
    have hch : (if b = true then (nodeAt node cur).right else (nodeAt node cur).left) = child node cur b := rfl
    rw [hch]
    by_cases hce : c = []
    · subst hce
      have hl : (nodeAt node (child node cur b)).leaf = true := hleaf
      rw [hl]
      simp only [if_true, List.nil_append, List.length_singleton]
      rw [walk_start (st2 := 0)]
      rfl
    · have hl : (nodeAt node (child node cur b)).leaf = false := by
        have := hint 1 (by omega) (by have := List.length_pos_of_ne_nil hce; simp; omega)
        exact this
      rw [hl]
      rw [if_neg (by simp)]
      rw [ih hce _ _ _ _ hleaf (fun j hj hj' => hint (j+1) (by omega) (by simpa using hj'))]
      simp only [List.length_cons]
      rw [show i + 1 + c.length = i + (c.length + 1) by omega]
      rfl

/-- The walk over an unfinished codeword fails at its first bit (45_decoder.md R223). -/
theorem walk_partial (node root cap) (c : Bits) (st cur start i o) (hst : st = .descending)
   (hint : ∀ j, 0 < j → j ≤ c.length → (nodeAt node (follow node cur (c.take j))).leaf = false) :
   walk node root cap c st cur start i o = .error (.truncatedBitstream, start) := by
  induction c generalizing cur i with
  | nil => simp [walk, hst]
  | cons b c ih =>
    subst hst
    rw [walk]
    have hl : (nodeAt node (child node cur b)).leaf = false := hint 1 (by omega) (by simp)
    have hch : (if b = true then (nodeAt node cur).right else (nodeAt node cur).left) = child node cur b := rfl
    simp only [hch, hl]
    rw [if_neg (by simp), if_neg (by simp)]
    exact ih _ _ (fun j hj hj' => hint (j+1) (by omega) (by simpa using hj'))

/-- The single-leaf walk over zeros emits its symbol once for each (45_decoder.md R222). -/
theorem walk1_zeros (sym cap) (k : Nat) (rest : Bits) (i o : Nat) (h : o + k ≤ cap) :
    walk1 sym cap (List.replicate k false ++ rest) i o = match walk1 sym cap rest (i+k) (o+k) with
    | .ok out => .ok (List.replicate k sym ++ out) | .error e => .error e := by
  induction k generalizing i o with
  | zero => simp; cases walk1 sym cap rest i o <;> rfl
  | succ k ih =>
    rw [List.replicate_succ, List.cons_append, walk1, if_neg (by omega), ih _ _ (by omega)]
    rw [show i + 1 + k = i + (k+1) by omega, show o + 1 + k = o + (k+1) by omega]
    cases walk1 sym cap rest (i + (k+1)) (o + (k+1)) <;> simp [List.replicate_succ]

/-- The walk over whole codewords emits their symbols (45_decoder.md R226). -/
theorem walk_codes {s : State} (hn : 2 ≤ nsym s.freq) (ht : treeTables s = buildTree s.freq) (cap : Nat)
    (out : List Byte) (hout : ∀ b ∈ out, tableAt s.freq b ≠ 0) (rest : Bits) (start i o : Nat)
    (ho : o + out.length ≤ cap) :
   walk s.node s.root cap (out.flatMap (codeOf s) ++ rest) .atRoot s.root start i o =
     match walk s.node s.root cap rest .atRoot s.root 0 (i + (out.flatMap (codeOf s)).length) (o + out.length) with
     | .ok out' => .ok (out ++ out')
     | .error e => .error e := by
  have hn0 : nsym s.freq ≠ 0 := by omega
  have hnode : s.node = (buildTree s.freq).node := congrArg TreeTables.node ht
  have hroot : s.root = (buildTree s.freq).root := congrArg TreeTables.root ht
  induction out generalizing start i o with
  | nil =>
    rw [walk_start (st2 := 0)]
    simp only [List.flatMap_nil, List.nil_append, List.length_nil, Nat.add_zero]
    cases walk s.node s.root cap rest DecoderState.atRoot s.root 0 i o <;> rfl
  | cons b out ih =>
    simp only [List.length_cons] at ho
    obtain ⟨c, hc⟩ : ∃ c, lookupCode (codeList s.freq) b = some c := Option.ne_none_iff_exists'.1
        (fun e => (hout b (by simp)) ((lookup_none hn0).1 e))
    obtain ⟨e1, e2, e3⟩ := codeOf_eq hn0 (congrArg TreeTables.codeLen ht) (congrArg TreeTables.codeBits ht) hc
    obtain ⟨f1, f2, f3⟩ := codeList_follow hn _ ((lookup_mem hn0).1 hc)
    have hb := codeList_bound hn0 _ ((lookup_mem hn0).1 hc)
    rw [List.flatMap_cons, e2, List.append_assoc, walk_code _ _ _ _ _ (by rintro rfl; simp at hb) _ _ _ _ _
        (by rw [hnode, hroot]; exact f1) (fun j _ hj => by rw [hnode, hroot]; exact f3 j hj)]
    rw [if_neg (by omega), ih (fun b hb => hout b (by simp [hb])) _ _ _ (by omega)]
    simp only [List.length_append, List.length_cons]
    rw [show i + c.length + (out.flatMap (codeOf s)).length = i + (c.length + (out.flatMap (codeOf s)).length) by
        omega, show o + 1 + out.length = o + (out.length + 1) by omega]
    have hsym : (nodeAt s.node (follow s.node s.root c)).sym = b := by rw [hnode, hroot]; exact f2
    rw [hsym]
    cases walk s.node s.root cap rest DecoderState.atRoot s.root 0
        (i + (c.length + (List.flatMap (codeOf s) out).length)) (o + (out.length + 1)) <;> rfl

/-- a walk that succeeds from AtRoot read codes -/
theorem walk_conv {s : State} (hn : 2 ≤ nsym s.freq) (ht : treeTables s = buildTree s.freq) (cap : Nat) :
   ∀ (bits pre : Bits) (st : DecoderState) (start i o : Nat) (out : List Byte),
   o ≤ cap → (st = .atRoot ↔ pre = []) →
   (∀ j, j ≤ pre.length → (nodeAt s.node (follow s.node s.root (pre.take j))).leaf = false) →
   walk s.node s.root cap bits st (follow s.node s.root pre) start i o = .ok out → (∀ b ∈ out, tableAt s.freq b ≠ 0) ∧
       pre ++ bits = out.flatMap (codeOf s) ∧ o + out.length ≤ cap := by
  have hn0 : nsym s.freq ≠ 0 := by omega
  have hnode : s.node = (buildTree s.freq).node := congrArg TreeTables.node ht
  have hroot : s.root = (buildTree s.freq).root := congrArg TreeTables.root ht
  have hrl : (nodeAt s.node s.root).leaf = false := by
    have := root_leaf_iff hn0
    rw [← hnode, ← hroot] at this
    cases h : (nodeAt s.node s.root).leaf
    · rfl
    · rw [h] at this; simp at this; omega
  intro bits
  induction bits with
  | nil =>
    intro pre st start i o out hoc hst hint hw
    rw [walk] at hw
    split_ifs at hw with h
    cases hw
    have : st = .atRoot := by cases st; rfl; exact absurd rfl h
    have := hst.1 this
    subst this; simp [hoc]
  | cons b bits ih =>
    intro pre st start i o out hoc hst hint hw
    rw [walk] at hw
    have hch : (if b = true then (nodeAt s.node (follow s.node s.root pre)).right else
        (nodeAt s.node (follow s.node s.root pre)).left) = follow s.node s.root (pre ++ [b]) := by
      simp [follow, child]
    simp only [hch] at hw
    cases hl : (nodeAt s.node (follow s.node s.root (pre ++ [b]))).leaf with
    | false =>
      simp only [hl] at hw
      rw [if_neg (by simp)] at hw
      have := ih (pre ++ [b]) .descending _ _ _ _ hoc (by simp) (fun j hj => ?_) hw
      · simpa using this
      · rw [List.length_append, List.length_singleton] at hj
        by_cases hj' : j ≤ pre.length
        · rw [List.take_append_of_le_length hj']; exact hint j hj'
        · rw [List.take_of_length_le (by simp; omega)]; exact hl
    | true =>
      simp only [hl, if_true] at hw
      by_cases ho : o = cap
      · rw [if_pos ho] at hw; cases hw
      rw [if_neg ho] at hw
      have hm := codeList_of_follow hn (pre ++ [b]) (by rw [← hnode, ← hroot]; exact hl) (fun j hj => by
        rw [← hnode, ← hroot]
        rw [List.length_append, List.length_singleton] at hj
        rw [List.take_append_of_le_length (by omega)]; exact hint j (by omega))
      rw [← hnode, ← hroot] at hm
      have hlk := (lookup_mem hn0).2 hm
      cases hr : walk s.node s.root cap bits .atRoot s.root (if st = DecoderState.atRoot then i else start) (i+1)
          (o+1) with
      | error e => rw [hr] at hw; cases hw
      | ok out' =>
        rw [hr] at hw
        cases hw
        obtain ⟨g1, g2, g3⟩ := ih [] .atRoot _ _ _ _ (by omega) (by simp)
            (fun j hj => by simp at hj; subst hj; exact hrl) hr
        have hcode := (codeOf_eq hn0 (congrArg TreeTables.codeLen ht) (congrArg TreeTables.codeBits ht) hlk).2.1
        refine ⟨?_, ?_, ?_⟩
        · intro x hx
          rcases List.mem_cons.1 hx with rfl | hx
          · intro h0; have := (lookup_none hn0).2 h0; rw [hlk] at this; cases this
          · exact g1 x hx
        · rw [List.flatMap_cons, hcode, ← g2]; simp
        · simp only [List.length_cons]; omega

/-- A single-leaf walk that succeeds read zeros only, and did not pass the capacity (45_decoder.md R222). -/
theorem walk1_conv (sym : Byte) (cap : Nat) :
    ∀ (bits : Bits) (i o : Nat) (out : List Byte), o ≤ cap → walk1 sym cap bits i o = .ok out → bits = List.replicate
    out.length false ∧ out = List.replicate out.length sym ∧ o + out.length ≤ cap := by
  intro bits
  induction bits with
  | nil => intro i o out hoc h; cases h; simp [hoc]
  | cons b bits ih =>
    intro i o out hoc h
    cases b
    · rw [walk1] at h
      by_cases ho : o = cap
      · rw [if_pos ho] at h; cases h
      rw [if_neg ho] at h
      cases hr : walk1 sym cap bits (i+1) (o+1) with
      | error e => rw [hr] at h; cases h
      | ok out' =>
        rw [hr] at h; cases h
        obtain ⟨g1, g2, g3⟩ := ih _ _ _ (by omega) hr
        refine ⟨?_, ?_, ?_⟩
        · rw [List.length_cons, List.replicate_succ, ← g1]
        · rw [List.length_cons, List.replicate_succ, ← g2]
        · simp only [List.length_cons]; omega
    · rw [walk1] at h; cases h

end Sys2Proof.Machine
end

