-- ==== Sys2Proof/Tests/Slice0.lean ====
section
/-! SUPPORT. Tests: ill-formed terms the checks refuse, words written out from the spec's encodings, single commands with
the results the spec's own vectors give (95_test_vectors.md, cited V<n>), and a witness for the hypotheses of every
statement that has some. -/

namespace Sys2Proof.Machine.Tests

/- The tests are checked one after another, which keeps the memory and the threads of a check small. -/
set_option Elab.async false

/-! ## Helpers -/

/-- Reset with `bs` written to IN_MEM and IN_LEN set. -/
def withInput (bs : List Byte) : State :=
  { State.reset with inMem := Memory.writeBytes [] 0 bs, inLen := BitVec.ofNat 32 bs.length }

/-- A state with `bs` written to PAY_MEM, and PAY_LEN and PAD set. -/
def withPayload (s : State) (bs : List Byte) (pad : Byte) : State :=
  { s with payMem := Memory.writeBytes [] 0 bs, payLen := BitVec.ofNat 32 bs.length, pad := pad }

/-- Reset with the entries of FREQ written. -/
def withFreq (t : List Entry) : State := { State.reset with freq := freqOfTable t }

/-- The state a command, accepted in s, completes in. -/
def run (i : Instr) (s : State) : State :=
  match exec i (accept (encode i) s) with
  | .next t => t
  | .fault _ => s
  | .refused _ => s

/-- A capacity, for the vectors that name one. -/
def withOutCap (s : State) (c : Cap) : State := { s with params := { s.params with outCap := c } }

/-- FREQ = 41:5, 42:3, 43:2 (S1). -/
def tableABC : List Entry := [⟨0x41, 5⟩, ⟨0x42, 3⟩, ⟨0x43, 2⟩]

/-- "AAAAABBBCC" (S1). -/
def inputABC : List Byte := [0x41, 0x41, 0x41, 0x41, 0x41, 0x42, 0x42, 0x42, 0x43, 0x43]

/-- The container of S1. -/
def containerABC : List Byte :=
  [0x03, 0x00, 0x00, 0x00, 0x41, 0x05, 0x00, 0x00, 0x00, 0x42, 0x03, 0x00, 0x00, 0x00, 0x43, 0x02, 0x00, 0x00, 0x00,
    0x01, 0x07, 0xF4]

/-- V18's state: a BUILD of S1's counts. -/
def built : State := run .build (withFreq tableABC)

/-- V25's state: the single-leaf tree of "A". -/
def builtOne : State := run .build (withFreq [⟨0x41, 1⟩])

/-- A word accepted, in a state where nothing else has happened since reset. -/
def accepted (w : Word) : State := accept w State.reset

/-! ## Ill-formed terms are refused -/

theorem test_wf_word_zero : ¬LegalWord 0x00000000 := by decide
theorem test_wf_word_above : ¬LegalWord 0x0000000A := by decide
theorem test_wf_word_rsv : ¬LegalWord 0x00000012 := by decide
theorem test_wf_word_legal : LegalWord 0x00000009 := by decide
theorem test_wf_table_descending : ¬TableWf [⟨0x42, 1⟩, ⟨0x41, 1⟩] := by decide
theorem test_wf_table_duplicate : ¬TableWf [⟨0x41, 1⟩, ⟨0x41, 1⟩] := by decide
theorem test_wf_table_zero_count : ¬TableWf [⟨0x41, 0⟩, ⟨0x42, 1⟩] := by decide
theorem test_wf_pad : ¬Container.wf ⟨[⟨0x41, 1⟩], 8, [0x00]⟩ := by decide
theorem test_wf_empty_with_payload : ¬Container.wf ⟨[], 0, [0x55]⟩ := by decide
theorem test_wf_pad_without_payload : ¬Container.wf ⟨[⟨0x41, 1⟩], 1, []⟩ := by decide
theorem test_wf_container : Container.wf ⟨tableABC, 1, [0x07, 0xF4]⟩ := by decide
theorem test_wf_host_branch : HostProgWf [.halt, .bnz 7 1 2] = false := by decide
theorem test_wf_asm_undefined : ¬AsmWf [.bz 0 1 5, .halt] := by decide
theorem test_wf_asm_duplicate : ¬AsmWf [.label 0, .halt, .label 0] := by decide

/-! ## Words written out from the encodings (30_encoding.md R90, R91, R92, R95, 20_memory.md R60) -/

theorem test_decode_clear : decodeTableWord 32 0b00000000000000000000000000000001 = some .clear := by decide
theorem test_decode_count : decodeTableWord 32 0b00000000000000000000000000000010 = some .count := by decide
theorem test_decode_build : decodeTableWord 32 0b00000000000000000000000000000011 = some .build := by decide
theorem test_decode_pack : decodeTableWord 32 0b00000000000000000000000000000100 = some .pack := by decide
theorem test_decode_serialize : decodeTableWord 32 0b00000000000000000000000000000101 = some .serialize := by decide
theorem test_decode_parse : decodeTableWord 32 0b00000000000000000000000000000110 = some .parse := by decide
theorem test_decode_unpack : decodeTableWord 32 0b00000000000000000000000000000111 = some .unpack := by decide
theorem test_decode_encode : decodeTableWord 32 0b00000000000000000000000000001000 = some .encode := by decide
theorem test_decode_decode : decodeTableWord 32 0b00000000000000000000000000001001 = some .decode := by decide
theorem test_decode_reserved_op : decodeTableWord 32 0b00000000000000000000000000001010 = none := by decide
theorem test_decode_reserved_bits : decodeTableWord 32 0b10000000000000000000000000000010 = none := by decide
theorem test_bus_byte_write :
    decodeBus ⟨0x1000003, 0b0, 0b1, 0x41⟩ = .write 0x1000003 .byte 0x41 := by decide
theorem test_addr_windows :
    decodeAddr 0x0000010 = .reg .inLen ∧ decodeAddr 0x1000002 = .inWin 2 ∧ decodeAddr 0x2000000 = .outWin 0
      ∧ decodeAddr 0x3FFFFFF = .payWin 0xFFFFFF := by decide
theorem test_addr_tables :
    decodeAddr 0x0000504 = .reg (.freq 0x41) ∧ decodeAddr 0x0000904 = .reg (.codeLen 0x41)
      ∧ decodeAddr 0x0001824 = .reg (.codeBits 0x41 1) ∧ decodeAddr 0x0005FEC = .reg (.node 510 3)
      ∧ decodeAddr 0x0005FF0 = .reg .reserved ∧ decodeAddr 0x0000040 = .reg .reserved := by decide +kernel

/-- The step after a command is placed runs it, first after reset: BUILD with no present symbol (V30). -/
theorem test_fetch_runs_build :
    ∃ t, step (State.reset.withFetchWord 32 0x00000003) = .next t ∧ statusWord t = 0x436 ∧ t.errInfo = 0 :=
  ⟨_, rfl, by decide +kernel, by decide +kernel⟩

/-! ## Single commands, with the spec's own results -/

/-- V6's end of CLEAR, after a BUILD. -/
theorem test_clear :
    statusWord (run .clear built) = 0x12 ∧ nsym (run .clear built).freq = 0 ∧ (run .clear built).treeValid = false
      ∧ (run .clear built).nnodes = 0 := by decide +kernel

/-- V11. -/
theorem test_count :
    statusWord (run .count (withInput inputABC)) = 0x22
      ∧ tableOfFreq (run .count (withInput inputABC)).freq = tableABC := by decide +kernel

/-- V15. -/
theorem test_count_capacity :
    statusWord (run .count { State.reset with inLen := 70000 }) = 0x626
      ∧ (run .count { State.reset with inLen := 70000 }).errInfo = 70000 := by decide +kernel

/-- V18: the records in the order of the weights, ties by index. -/
theorem test_build :
    statusWord built = 0x32 ∧ built.root = 4 ∧ built.nnodes = 5 ∧ nodeWord built.node[3] 1 = 0x00010002
      ∧ nodeWord built.node[4] 1 = 0x00030000 ∧ nodeWord built.node[4] 2 = 10 := by decide +kernel

/-- V24: the lighter leaf is the first child. -/
theorem test_build_lighter_first :
    nodeWord (run .build (withFreq [⟨0x00, 2⟩, ⟨0xFF, 1⟩])).node[2] 1 = 0x00000001
      ∧ codeOf (run .build (withFreq [⟨0x00, 2⟩, ⟨0xFF, 1⟩])) 0x00 = [true] := by decide +kernel

/-- V31. -/
theorem test_pack :
    let t := run .pack { built with inMem := (withInput inputABC).inMem, inLen := 10 }
    statusWord t = 0x42 ∧ t.payMem = [(0, 0x07), (1, 0xF4)] ∧ t.payLen = 2 ∧ t.pad = 1 := by decide +kernel

/-- V43. -/
theorem test_pack_uncoded :
    let t := run .pack { built with inMem := Memory.writeBytes [] 0 [0x41, 0x41, 0x41, 0x44], inLen := 4 }
    statusWord t = 0x746 ∧ t.errInfo = 3 := by decide +kernel

/-- V47. -/
theorem test_serialize :
    let t := run .serialize (withPayload (withFreq tableABC) [0x07, 0xF4] 1)
    statusWord t = 0x52 ∧ t.outLen = 22 ∧ t.outMem.map (·.2) = containerABC := by decide +kernel

/-- V55: a pad without a payload. -/
theorem test_serialize_malformed :
    let t := run .serialize (withPayload (withFreq [⟨0x41, 1⟩]) [] 2)
    statusWord t = 0x156 ∧ t.errInfo = 0 ∧ t.outLen = 0 := by decide +kernel

/-- V58. -/
theorem test_parse :
    let t := run .parse (withInput containerABC)
    statusWord t = 0x62 ∧ tableOfFreq t.freq = tableABC ∧ t.pad = 1 ∧ t.payMem = [(0, 0x07), (1, 0xF4)]
      ∧ t.payLen = 2 := by decide +kernel

/-- V67: a duplicate byte value, reported at its offset. -/
theorem test_parse_duplicate :
    let t := run .parse (withInput [2, 0, 0, 0, 0x41, 1, 0, 0, 0, 0x41, 1, 0, 0, 0, 6, 0x40])
    statusWord t = 0x166 ∧ t.errInfo = 9 := by decide +kernel

/-- V76. -/
theorem test_unpack :
    let t := run .unpack (withPayload built [0x07, 0xF4] 1)
    statusWord t = 0x72 ∧ t.outLen = 10 ∧ t.outMem.map (·.2) = inputABC := by decide +kernel

/-- V77: the walk ends inside a codeword, whose first bit is reported. -/
theorem test_unpack_truncated :
    let t := run .unpack (withPayload built [0x07] 0)
    statusWord t = 0x376 ∧ t.errInfo = 7 ∧ t.outLen = 0 := by decide +kernel

/-- V97. -/
theorem test_encode :
    let t := run .encode (withInput [0x41, 0x42])
    statusWord t = 0x82 ∧ t.pad = 6
      ∧ t.outMem.map (·.2) = [2, 0, 0, 0, 0x41, 1, 0, 0, 0, 0x42, 1, 0, 0, 0, 6, 0x40] := by decide +kernel

/-- V95: the single symbol. -/
theorem test_encode_single :
    let t := run .encode (withInput [0x41])
    statusWord t = 0x82 ∧ t.outMem.map (·.2) = [1, 0, 0, 0, 0x41, 1, 0, 0, 0, 7, 0] := by decide +kernel

/-- S1: DECODE gives the bytes back. -/
theorem test_decode :
    let t := run .decode (withInput containerABC)
    statusWord t = 0x92 ∧ t.outLen = 10 ∧ t.outMem.map (·.2) = inputABC := by decide +kernel

/-- V114: the walk fails after the tables were committed, which stay. -/
theorem test_decode_truncated :
    let t := run .decode
      (withInput [3, 0, 0, 0, 0x41, 5, 0, 0, 0, 0x42, 3, 0, 0, 0, 0x43, 2, 0, 0, 0, 0, 0x07])
    statusWord t = 0x396 ∧ t.errInfo = 7 ∧ t.treeValid = true ∧ t.root = 4 := by decide +kernel

/-- V125, V128: a byte beyond the capacity reads 0; PAD keeps the low byte of a write. -/
theorem test_bus :
    (transact (.read 0x1010000 .byte) State.reset).resp = some ⟨some 0, false⟩
      ∧ (transact (.write 0x0000018 .word 0x1FF) State.reset).pad = 0xFF
      ∧ (transact (.read 0x0000000 .byte) State.reset).resp = some ⟨some 0, true⟩ := by decide +kernel

/-! ## Witnesses: states and operands that meet the hypotheses of the statements -/

/-- An offset that decodes to no named location is the offset of none. -/
theorem unnamed_of_decodeReg {o : Nat} (h : decodeReg o = .reserved) : ∀ r : RegLoc, r ≠ .reserved → r.offset ≠ o := by
  rintro r hr rfl
  rw [(r.offset_spec hr).2.2] at h
  exact hr h

/-- BusAndAddressFormatsRoundTrip: the last named location and the last offset. -/
theorem witness_formats :
    (RegLoc.node 510 3 ≠ .reserved ∧ RegLoc.id ≠ .reserved) ∧ (0 : Nat) < 2 ^ 24 ∧ 0xFFFFFF < 2 ^ 24 := by decide

/-- ReservedOffsetsReadZeroIgnoreWrites: the first and the last reserved address, IDLE and BUSY. -/
theorem witness_reserved :
    State.reset.rst = false ∧ (accepted 1).rst = false
      ∧ ((0x0000040 : Addr).toNat < 0x1000000 ∧ (0x0000040 : Addr).toNat % 4 = 0
        ∧ ∀ r : RegLoc, r ≠ .reserved → r.offset ≠ (0x0000040 : Addr).toNat)
      ∧ (0x0FFFFFC : Addr).toNat < 0x1000000 ∧ (0x0FFFFFC : Addr).toNat % 4 = 0
        ∧ ∀ r : RegLoc, r ≠ .reserved → r.offset ≠ (0x0FFFFFC : Addr).toNat :=
  ⟨rfl, rfl, ⟨by decide, by decide, unnamed_of_decodeReg (by decide +kernel)⟩, by decide, by decide,
    unnamed_of_decodeReg (by decide +kernel)⟩

/-- StepRunsPendingCommand: a pending COUNT, with the engine's turn next and with an empty script. -/
theorem witness_step :
    (accepted 2).rst = false ∧ (accepted 2).engine = .busy 2 ∧ decodeWord 2 = .ok .count
      ∧ { accepted 2 with script := [.engineTurn] }.script = [.engineTurn] ∧ (accepted 2).script = [] :=
  ⟨rfl, rfl, by decide, rfl, rfl⟩

/-- IllegalWordCompletesWithError: the word above the last command, and a word with RSV set. -/
theorem witness_illegal :
    { accepted 0xA with script := [.engineTurn] }.rst = false
      ∧ { accepted 0xA with script := [.engineTurn] }.engine = .busy 0xA ∧ ¬LegalWord 0xA ∧ ¬LegalWord 0x12
      ∧ { accepted 0xA with script := [.engineTurn] }.script = .engineTurn :: [] :=
  ⟨rfl, rfl, by decide, by decide, rfl⟩

/-- AcceptedCommandCompletes: a command pending while the host still has turns. -/
theorem witness_completes :
    { accepted 2 with script := [.hostTurn, .releaseReset] }.rst = false
      ∧ { accepted 2 with script := [.hostTurn, .releaseReset] }.engine = .busy 2
      ∧ Event.assertReset ∉ { accepted 2 with script := [.hostTurn, .releaseReset] }.script :=
  ⟨rfl, rfl, by decide⟩

/-- ReleaseOfResetGivesResetValues: reset was asserted while a command ran. -/
theorem witness_release :
    { accepted 2 with rst := true, script := [.releaseReset, .hostTurn] }.rst = true
      ∧ { accepted 2 with rst := true, script := [.releaseReset, .hostTurn] }.script = .releaseReset :: [.hostTurn] :=
  ⟨rfl, rfl⟩

/-- AssertedResetHoldsTheBlock: a transaction, each other event, and the empty script, while a command is pending. -/
theorem witness_asserted :
    (∀ e ∈ [Event.bus (.read 0 .word), .hostTurn, .engineTurn, .assertReset],
        e ≠ .releaseReset ∧ { accepted 2 with rst := true, script := [e] }.rst = true
          ∧ { accepted 2 with rst := true, script := [e] }.script = e :: [])
      ∧ (∃ x, Event.bus (.read 0 .word) = .bus x) ∧ (¬∃ x, Event.engineTurn = .bus x)
      ∧ { accepted 2 with rst := true }.rst = true ∧ { accepted 2 with rst := true }.script = [] :=
  ⟨fun e he => ⟨by rintro rfl; simp at he, rfl, rfl⟩, ⟨_, rfl⟩, by simp, rfl, rfl⟩

/-- RefusedTransactionsChangeNothing: both refusals and both acceptances, at the edge of the register window. -/
theorem witness_refused :
    State.reset.rst = false ∧ Refusable 0x0FFFFFF .byte ∧ Refusable 0x1000002 .word ∧ ¬Refusable 0x1000000 .byte
      ∧ ¬Refusable 0x1000000 .word := by
  unfold Refusable; decide +kernel

/-- CmdWriteWhileIdleAccepts, RegisterWritesStoreTheValue, and the other statements about an IDLE block. -/
theorem witness_idle : State.reset.rst = false ∧ State.reset.engine = .idle := ⟨rfl, rfl⟩

/-- CmdWriteWhileIdleAccepts, the dropped write: a block that is BUSY. -/
theorem witness_busy : (accepted 2).rst = false ∧ (accepted 2).engine = .busy 2 := ⟨rfl, rfl⟩

/-- BusyWritesAreDropped: each of the locations. -/
theorem witness_busy_writes :
    (accepted 2).rst = false ∧ (accepted 2).engine = .busy 2
      ∧ (¬Refusable 0x0000004 .word ∧ decodeAddr 0x0000004 = .reg .cmd)
      ∧ (¬Refusable 0x0000010 .word ∧ decodeAddr 0x0000010 = .reg .inLen)
      ∧ (¬Refusable 0x0000014 .word ∧ decodeAddr 0x0000014 = .reg .payLen)
      ∧ (¬Refusable 0x0000018 .word ∧ decodeAddr 0x0000018 = .reg .pad)
      ∧ (¬Refusable 0x00007FC .word ∧ decodeAddr 0x00007FC = .reg (.freq 0xFF))
      ∧ (¬Refusable 0x1FFFFFF .byte ∧ decodeAddr 0x1FFFFFF = .inWin 0xFFFFFF)
      ∧ ¬Refusable 0x3FFFFFC .word ∧ decodeAddr 0x3FFFFFC = .payWin 0xFFFFFC := by
  unfold Refusable; decide +kernel

/-- ReadOnlyWritesAreIgnored: the OUT window, the first and last read-only register, and the last entry of each table. -/
theorem witness_read_only :
    State.reset.rst = false ∧ (¬Refusable 0x2FFFFFF .byte ∧ decodeAddr 0x2FFFFFF = .outWin 0xFFFFFF)
      ∧ (¬Refusable 0x0000000 .word ∧ decodeAddr 0x0000000 = .reg .id)
      ∧ (¬Refusable 0x000003C .word ∧ decodeAddr 0x000003C = .reg .outCap)
      ∧ (¬Refusable 0x0000BFC .word ∧ decodeAddr 0x0000BFC = .reg (.codeLen 0xFF))
      ∧ (¬Refusable 0x0002FFC .word ∧ decodeAddr 0x0002FFC = .reg (.codeBits 0xFF 7))
      ∧ ¬Refusable 0x0005FEC .word ∧ decodeAddr 0x0005FEC = .reg (.node 510 3) := by
  unfold Refusable; decide +kernel

/-- HostReadsHaveNoSideEffects: a BUSY block. -/
theorem witness_busy_reads :
    (accepted 2).rst = false ∧ (accepted 2).engine = .busy 2
      ∧ ∀ r ∈ [RegLoc.id, .cmd, .status, .irqEn, .inCap, .payCap, .outCap, .reserved],
        r = .id ∨ r = .cmd ∨ r = .status ∨ r = .irqEn ∨ r = .inCap ∨ r = .payCap ∨ r = .outCap ∨ r = .reserved :=
  ⟨rfl, rfl, by decide⟩

/-- IdleReadsReturnTheRegister: a register, a flag, a capacity and the last entry of a table, after a BUILD. -/
theorem witness_idle_reads :
    built.rst = false ∧ built.engine = .idle ∧ ((4 : Nat) = built.root.toNat ∧ (1 : Nat) = built.treeValid.toNat)
      ∧ (3 : Nat) = (Finset.univ.filter (fun b : Fin 256 => built.freq[b.val] ≠ 0)).card
      ∧ (65536 : Nat) = built.params.inCap.val ∧ (0 : Nat) = (tableAt built.freq 0xFF).toNat
      ∧ (2 : Nat) = (tableAt built.codeLen 0x43).toNat ∧ (0x32 : Nat) = (statusWord built).toNat
      ∧ (0x80000000 : Nat) = ((tableAt built.codeBits 0x43)[0]).toNat ∧ (10 : Nat) = (nodeWord built.node[4] 2).toNat := by
  refine ⟨rfl, rfl, ?_, ?_, ?_, ?_, ?_, ?_, ?_, ?_⟩ <;> decide +kernel

/-- WindowWriteStoresInRangeBytes: the last offset of a byte, the last of a word, and both sides of the capacity. -/
theorem witness_window_write :
    State.reset.rst = false ∧ State.reset.engine = .idle ∧ (16777215 < 2 ^ 24 ∧ 16777212 < 2 ^ 24)
      ∧ 16777212 % 4 = 0 ∧ (65535 < State.reset.params.inCap.val ∧ ¬65536 < State.reset.params.inCap.val) :=
  by refine ⟨?_, ?_, ?_, ?_, ?_⟩ <;> decide +kernel

/-- WindowReadReturnsWrittenBytes: a word whose bytes are written, a byte beyond the capacity, in each window. -/
theorem witness_window_read :
    (run .decode (withInput containerABC)).rst = false ∧ (run .decode (withInput containerABC)).engine = .idle
      ∧ ((8 < 2 ^ 24 ∧ 8 % 4 = 0) ∧ ∀ k, k < 4 → ∃ v, (withInput containerABC).inMem.read (8 + k) = some v)
      ∧ (∀ k, k < 4 → ∃ v, (run .decode (withInput containerABC)).outMem.read (4 + k) = some v)
      ∧ (∀ k, k < 1 → ∃ v, (run .decode (withInput containerABC)).payMem.read (1 + k) = some v)
      ∧ ∀ k, k < 1 → 65536 + k < State.reset.params.payCap.val → ∃ v, State.reset.payMem.read (65536 + k) = some v := by
  have some_of : ∀ {m : Memory} {n o : Nat}, (∀ k, k < n → (m.read (o + k)).isSome = true) →
      ∀ k, k < n → ∃ v, m.read (o + k) = some v := fun h k hk => Option.isSome_iff_exists.1 (h k hk)
  refine ⟨?_, ?_, ⟨by decide, some_of ?_⟩, some_of ?_, some_of ?_, fun k _ h => absurd h (Nat.not_lt.2 (by
    exact Nat.le_add_right _ _))⟩ <;> decide +kernel

/-- ByteLoadsEqualWordLoad: the first and the last aligned group, in either window. -/
theorem witness_byte_loads :
    State.reset.rst = false ∧ State.reset.engine = .idle ∧ (0 % 4 = 0 ∧ 0 + 4 ≤ 2 ^ 24)
      ∧ 16777212 % 4 = 0 ∧ 16777212 + 4 ≤ 2 ^ 24 := ⟨rfl, rfl, by decide, by decide⟩

/-- A host about to run CLEAR. -/
def clearing : State := { State.reset with host := { HostState.empty with prog := [.wr32 4 1] } }

/-- A host at a WAIT. -/
def waiting : State := { State.reset with host := { HostState.empty with prog := [.rd32 7 8, .bnz 7 1 0] } }

/-- MnemonicsAndWaitDriveTheBlock: a host at a command statement, and at a WAIT. -/
theorem witness_host :
    (clearing.rst = false ∧ clearing.engine = .idle
        ∧ clearing.host.prog[clearing.host.next]? = some (.wr32 4 (encode .clear)))
      ∧ waiting.rst = false ∧ waiting.host.prog[waiting.host.next]? = some (.rd32 7 8)
        ∧ waiting.host.prog[waiting.host.next + 1]? = some (.bnz 7 1 waiting.host.next) := by
  decide +kernel

/-- FailedCommandsChangeNothingElse: BUILD without a symbol, an UNPACK whose walk fails, PARSE of too short an input,
COUNT of too long an input. -/
theorem witness_failed :
    (Instr.build ≠ .encode ∧ Instr.build ≠ .decode
        ∧ exec .build State.reset = .next (complete (cmdBuild State.reset))
        ∧ (complete (cmdBuild State.reset)).status.err = true)
      ∧ (exec .unpack (withPayload built [0x07] 0) = .next (complete (cmdUnpack (withPayload built [0x07] 0)))
        ∧ (complete (cmdUnpack (withPayload built [0x07] 0))).status.err = true)
      ∧ (exec .parse State.reset = .next (complete (cmdParse State.reset))
        ∧ (complete (cmdParse State.reset)).status.err = true)
      ∧ exec .count { State.reset with inLen := 70000 } = .next (complete (cmdCount { State.reset with inLen := 70000 }))
        ∧ (complete (cmdCount { State.reset with inLen := 70000 })).status.err = true := by
  refine ⟨⟨by decide, by decide, rfl, ?_⟩, ⟨rfl, ?_⟩, ⟨rfl, ?_⟩, rfl, ?_⟩ <;> decide +kernel

/-- V114's state: a container whose payload ends inside a codeword. -/
def truncatedContainer : State :=
  withInput [3, 0, 0, 0, 0x41, 5, 0, 0, 0, 0x42, 3, 0, 0, 0, 0x43, 2, 0, 0, 0, 0, 0x07]

/-- FailedCommandsChangeNothingElse, DECODE's sub-commands: V114, whose UNPACK fails after PARSE and BUILD, and the empty
container, for which BUILD is skipped. -/
theorem witness_decode_parts :
    (exec .parse truncatedContainer = .next (complete (cmdParse truncatedContainer))
        ∧ (complete (cmdParse truncatedContainer)).status.err = false
        ∧ nsym (complete (cmdParse truncatedContainer)).freq ≠ 0
        ∧ exec .build (complete (cmdParse truncatedContainer))
          = .next (complete (cmdBuild (complete (cmdParse truncatedContainer))))
        ∧ (complete (cmdUnpack (complete (cmdBuild (complete (cmdParse truncatedContainer)))))).status.err = true)
      ∧ (complete (cmdParse (withInput [0, 0, 0, 0, 0]))).status.err = false
        ∧ nsym (complete (cmdParse (withInput [0, 0, 0, 0, 0]))).freq = 0 := by
  refine ⟨⟨rfl, ?_, ?_, rfl, ?_⟩, ?_, ?_⟩ <;> decide +kernel

/-- S1's counts and tree, with PAY_CAP as given, where PACK is next. -/
def atPack (payCap outCap : Cap) : State :=
  complete (cmdBuild (complete (cmdCount
    { withInput inputABC with params := { Params.reference with payCap := payCap, outCap := outCap } })))

/-- FailedCommandsChangeNothingElse, ENCODE's sub-commands: S1 with PAY_CAP = 1, where PACK fails, and with OUT_CAP = 21,
where SERIALIZE fails, both after COUNT and BUILD. The empty input, for which BUILD is skipped. -/
theorem witness_encode_parts :
    ((complete (cmdCount (withInput inputABC))).status.err = false
        ∧ nsym (complete (cmdCount (withInput inputABC))).freq ≠ 0)
      ∧ (complete (cmdPack (atPack ⟨1, by decide, by decide⟩ .reference))).status.err = true
      ∧ ((complete (cmdPack (atPack .reference ⟨21, by decide, by decide⟩))).status.err = false
        ∧ (complete (cmdSerialize (complete (cmdPack (atPack .reference ⟨21, by decide, by decide⟩))))).status.err = true)
      ∧ (complete (cmdCount State.reset)).status.err = false ∧ nsym (complete (cmdCount State.reset)).freq = 0 := by
  refine ⟨⟨?_, ?_⟩, ?_, ⟨?_, ?_⟩, ?_, ?_⟩ <;> decide +kernel

/-- CountCountsOccurrences: an input that fits, with a written byte, the longest length that fits, and one too many. -/
theorem witness_count :
    (withInput inputABC).inLen.toNat ≤ (withInput inputABC).params.inCap.val
      ∧ 9 < (withInput inputABC).inLen.toNat ∧ (withInput inputABC).inMem.read 9 = some 0x43
      ∧ { State.reset with inLen := 65536 }.inLen.toNat ≤ State.reset.params.inCap.val
      ∧ State.reset.params.inCap.val < { State.reset with inLen := 65537 }.inLen.toNat := by
  refine ⟨?_, ?_, ?_, ?_, ?_⟩ <;> decide +kernel

/-- CountsAreOfTheInputMultiset: "AB" and "BA" (S5). -/
theorem witness_count_permuted :
    (withInput [0x41, 0x42]).inLen.toNat ≤ State.reset.params.inCap.val
      ∧ (withInput [0x42, 0x41]).inLen.toNat ≤ State.reset.params.inCap.val
      ∧ (inputBytes (withInput [0x41, 0x42])).Perm (inputBytes (withInput [0x42, 0x41]))
      ∧ exec .count (withInput [0x41, 0x42]) = .next (complete (cmdCount (withInput [0x41, 0x42])))
      ∧ (complete (cmdCount (withInput [0x41, 0x42]))).status.err = false := by
  refine ⟨?_, ?_, List.Perm.swap 0x42 0x41 [], rfl, ?_⟩ <;> decide +kernel

/-- BuildSeedsAndFinishesTheArena, and every statement about a successful BUILD: with three symbols, with one, and with
none. A record past the leaves is there. -/
theorem witness_build :
    (nsym (withFreq tableABC).freq = 3 ∧ nsym (withFreq [⟨0x41, 1⟩]).freq = 1 ∧ nsym State.reset.freq = 0)
      ∧ exec .build (withFreq tableABC) = .next (complete (cmdBuild (withFreq tableABC)))
      ∧ (complete (cmdBuild (withFreq tableABC))).status.err = false
      ∧ (complete (cmdBuild (withFreq [⟨0x41, 1⟩]))).status.err = false
      ∧ (nsym (withFreq tableABC).freq ≤ 3 ∧ 3 < 2 * nsym (withFreq tableABC).freq - 1)
      ∧ (tableAt (withFreq tableABC).freq 0x41 ≠ 0 ∧ tableAt (withFreq tableABC).freq 0x42 ≠ 0
        ∧ tableAt (withFreq tableABC).freq 0x00 = 0) := by
  refine ⟨?_, rfl, ?_, ?_, ?_, ?_⟩ <;> decide +kernel

/-- ValidArenaIsATree, and every statement about a current tree. -/
theorem witness_tree :
    (TreeInv built ∧ built.treeValid = true ∧ nsym built.freq = 3)
      ∧ TreeInv builtOne ∧ builtOne.treeValid = true ∧ nsym builtOne.freq = 1 :=
  ⟨⟨fun _ => ⟨by decide +kernel, rfl⟩, rfl, by decide +kernel⟩, fun _ => ⟨by decide +kernel, rfl⟩, rfl,
    by decide +kernel⟩

/-- CodesAreOptimal: a prefix code for the same symbols. -/
theorem witness_prefix_code :
    2 ≤ nsym (withFreq tableABC).freq
      ∧ ∀ b ∈ presentSymbols (withFreq tableABC).freq, ∀ c ∈ presentSymbols (withFreq tableABC).freq, b ≠ c →
        ¬(if b = 0x41 then [false, false] else if b = 0x42 then [false, true] else [true])
          <+: (if c = 0x41 then [false, false] else if c = 0x42 then [false, true] else [true]) := by
  refine ⟨?_, ?_⟩ <;> decide +kernel

/-- S1's input before V18's tree. -/
def packable : State := { built with inMem := (withInput inputABC).inMem, inLen := 10 }

/-- PackWritesTheCodeBits, PackPaddingIsBoundedAndExact: S1's input under V18's tree. -/
theorem witness_pack :
    packable.inLen.toNat ≤ packable.params.inCap.val ∧ packable.inLen ≠ 0 ∧ packable.treeValid = true
      ∧ (∀ b ∈ inputBytes packable, codeLenAt packable.codeLen b ≠ 0)
      ∧ (totalBits packable.codeLen (inputBytes packable) + 7) / 8 ≤ packable.params.payCap.val
      ∧ exec .pack packable = .next (complete (cmdPack packable))
      ∧ (complete (cmdPack packable)).status.err = false := by
  refine ⟨?_, ?_, ?_, ?_, ?_, rfl, ?_⟩ <;> decide +kernel

/-- PackErrorsAndEmptyInput: one state for each error, in the order of the checks. -/
theorem witness_pack_errors :
    State.reset.params.inCap.val < { State.reset with inLen := 65537 }.inLen.toNat
      ∧ State.reset.inLen = 0
      ∧ ((withInput inputABC).inLen.toNat ≤ State.reset.params.inCap.val ∧ (withInput inputABC).inLen ≠ 0
        ∧ (withInput inputABC).treeValid = false)
      ∧ (let s := { built with inMem := Memory.writeBytes [] 0 [0x41, 0x44], inLen := 2 }
        s.inLen.toNat ≤ s.params.inCap.val ∧ s.inLen ≠ 0 ∧ s.treeValid = true
          ∧ ∃ h : (inputBytes s).length = 2, codeLenAt s.codeLen ((inputBytes s)[1]) = 0
            ∧ ∀ i : Fin 1, codeLenAt s.codeLen ((inputBytes s)[i.val]) ≠ 0)
      ∧ let s := { packable with params := { packable.params with payCap := ⟨1, by decide, by decide⟩ } }
        s.treeValid = true ∧ (∀ b ∈ inputBytes s, codeLenAt s.codeLen b ≠ 0)
          ∧ s.params.payCap.val < (totalBits s.codeLen (inputBytes s) + 7) / 8 := by
  refine ⟨?_, ?_, ?_, ?_, ?_⟩
  · decide +kernel
  · decide +kernel
  · decide +kernel
  · refine ⟨?_, ?_, ?_, ?_, ?_, ?_⟩ <;> decide +kernel
  · refine ⟨?_, ?_, ?_⟩ <;> decide +kernel

/-- ContainerLayout: S1's container, its last entry and its last payload byte. -/
theorem witness_layout :
    (Container.mk tableABC 1 [0x07, 0xF4]).table.length < 2 ^ 32 ∧ 2 < (Container.mk tableABC 1 [0x07, 0xF4]).table.length
      ∧ 1 < (Container.mk tableABC 1 [0x07, 0xF4]).payload.length := by decide

/-- S1's state before SERIALIZE. -/
def serializable : State := withPayload (withFreq tableABC) [0x07, 0xF4] 1

/-- SerializeWritesTheContainer, and the premises of ParseInvertsSerialize about its first state: V47, and the empty
container of V48. -/
theorem witness_serialize :
    (serializable.pad.toNat ≤ 7 ∧ serializable.payLen.toNat ≤ serializable.params.payCap.val
      ∧ (nsym serializable.freq = 0 → serializable.payLen = 0 ∧ serializable.pad = 0)
      ∧ (serializable.payLen = 0 → serializable.pad = 0)
      ∧ 5 + 5 * nsym serializable.freq + serializable.payLen.toNat ≤ serializable.params.outCap.val)
      ∧ PayloadWritten serializable ∧ exec .serialize serializable = .next (complete (cmdSerialize serializable))
      ∧ (complete (cmdSerialize serializable)).status.err = false
      ∧ (nsym State.reset.freq = 0 ∧ State.reset.payLen = 0 ∧ State.reset.pad = 0) := by
  refine ⟨?_, ?_, rfl, ?_, ?_⟩ <;> decide +kernel

/-- SerializeErrorsInOrder: V52, V56, V53, V55 and V57. -/
theorem witness_serialize_errors :
    7 < { State.reset with pad := 8 }.pad.toNat
      ∧ ({ State.reset with payLen := 65537 }.pad.toNat ≤ 7
        ∧ State.reset.params.payCap.val < { State.reset with payLen := 65537 }.payLen.toNat)
      ∧ ({ State.reset with pad := 3 }.pad.toNat ≤ 7 ∧ nsym State.reset.freq = 0 ∧ { State.reset with pad := 3 }.pad ≠ 0)
      ∧ ((withPayload (withFreq tableABC) [] 2).payLen = 0 ∧ (withPayload (withFreq tableABC) [] 2).pad ≠ 0)
      ∧ let s := withOutCap serializable ⟨21, by decide, by decide⟩
        s.pad.toNat ≤ 7 ∧ s.payLen.toNat ≤ s.params.payCap.val ∧ (nsym s.freq = 0 → s.payLen = 0 ∧ s.pad = 0)
          ∧ (s.payLen = 0 → s.pad = 0) ∧ s.params.outCap.val < 5 + 5 * nsym s.freq + s.payLen.toNat := by
  refine ⟨?_, ?_, ?_, ?_, ?_⟩ <;> decide +kernel

/-- ParseRestoresTheFields, and the container of DecodeRecoversTheBytes: S1's container. -/
theorem witness_parse :
    (withInput containerABC).inLen.toNat ≤ (withInput containerABC).params.inCap.val
      ∧ inputBytes (withInput containerABC) = containerBytes ⟨tableABC, 1, [0x07, 0xF4]⟩
      ∧ Container.wf ⟨tableABC, 1, [0x07, 0xF4]⟩
      ∧ (Container.mk tableABC 1 [0x07, 0xF4]).payload.length ≤ (withInput containerABC).params.payCap.val := by
  refine ⟨?_, ?_, ?_, ?_⟩ <;> decide +kernel

/-- The lengths of an input and the count of its table, as ParseErrorsInOrder names them. -/
def parseCase (bs : List Byte) : Nat × Nat := ((withInput bs).inLen.toNat, (wordAt (inputBytes (withInput bs)) 0).toNat)

/-- ParseErrorsInOrder, the lengths: V74 (here one byte over the reference capacity), V62, V63 (N = 257), V65 (one byte
short of the pad). -/
theorem witness_parse_lengths :
    State.reset.params.inCap.val < { State.reset with inLen := 65537 }.inLen.toNat
      ∧ (parseCase [0, 0, 0]).1 < 4 ∧ (4 ≤ (parseCase [1, 1, 0, 0]).1 ∧ 256 < (parseCase [1, 1, 0, 0]).2)
      ∧ ((parseCase [1, 0, 0, 0, 0x41, 1, 0, 0, 0]).2 ≤ 256
        ∧ (parseCase [1, 0, 0, 0, 0x41, 1, 0, 0, 0]).1 < 4 + 5 * (parseCase [1, 0, 0, 0, 0x41, 1, 0, 0, 0]).2 + 1) := by
  refine ⟨?_, ?_, ?_, ?_⟩ <;> decide +kernel

/-- The bytes of V66 with the second entry, the first count and the tail as given. -/
def twoEntries (count0 sym1 : Byte) (tail : List Byte) : List Byte :=
  inputBytes (withInput ([2, 0, 0, 0, 0x41, count0, 0, 0, 0, sym1, 1, 0, 0, 0] ++ tail))

/-- ParseErrorsInOrder, the entries: V67 (equal to the one before), V68 (a zero count). -/
theorem witness_parse_entries :
    (EntriesPass (twoEntries 1 0x41 [6, 0x40]) 1 ∧ EntryNotAbove (twoEntries 1 0x41 [6, 0x40]) 1)
      ∧ EntriesPass (twoEntries 0 0x42 [6, 0x40]) 0 ∧ ¬EntryNotAbove (twoEntries 0 0x42 [6, 0x40]) 0
        ∧ EntryZero (twoEntries 0 0x42 [6, 0x40]) 0 := by
  unfold EntriesPass EntryNotAbove EntryZero
  refine ⟨⟨?_, ?_⟩, ?_, ?_, ?_⟩ <;> decide +kernel

/-- ParseErrorsInOrder, the pad and the payload: pad 8, pad 1 without a payload, an empty table with a payload and with a
pad (V71, V72), a payload one byte over PAY_CAP = 1 (V75). -/
theorem witness_parse_tail :
    (EntriesPass (twoEntries 1 0x42 [8, 0]) 2 ∧ 7 < (byteAt (twoEntries 1 0x42 [8, 0]) 14).toNat)
      ∧ (EntriesPass (twoEntries 1 0x42 [1]) 2 ∧ (byteAt (twoEntries 1 0x42 [1]) 14).toNat ≤ 7
        ∧ (twoEntries 1 0x42 [1]).length = 4 + 5 * 2 + 1 ∧ byteAt (twoEntries 1 0x42 [1]) 14 ≠ 0)
      ∧ (EntriesPass [0, 0, 0, 0, 0, 0x55] 0 ∧ (parseCase [0, 0, 0, 0, 0, 0x55]).1 ≠ 5
        ∧ (parseCase [0, 0, 0, 0, 0, 0x55]).2 = 0 ∧ byteAt [0, 0, 0, 0, 3] 4 ≠ 0)
      ∧ (EntriesPass (twoEntries 1 0x42 [1, 7, 0xF4]) 2 ∧ (byteAt (twoEntries 1 0x42 [1, 7, 0xF4]) 14).toNat ≤ 7
        ∧ 1 < (twoEntries 1 0x42 [1, 7, 0xF4]).length - (4 + 5 * 2 + 1)) := by
  unfold EntriesPass EntryNotAbove EntryZero
  refine ⟨⟨?_, ?_⟩, ⟨?_, ?_⟩, ⟨?_, ?_⟩, ?_, ?_⟩ <;> decide +kernel

/-- ParseInvertsSerialize, the second state: S1's container copied to the input. -/
theorem witness_parse_inverts :
    (withInput containerABC).params = serializable.params
      ∧ (withInput containerABC).inLen = (complete (cmdSerialize serializable)).outLen
      ∧ (complete (cmdSerialize serializable)).outLen.toNat ≤ (withInput containerABC).params.inCap.val
      ∧ ∀ k, k < (complete (cmdSerialize serializable)).outLen.toNat →
        (withInput containerABC).inMem.read k = (complete (cmdSerialize serializable)).outMem.read k := by
  refine ⟨?_, ?_, ?_, ?_⟩ <;> decide +kernel

/-- S1's state before UNPACK. -/
def unpackable : State := withPayload built [0x07, 0xF4] 1

/-- UnpackChecksBeforeTheWalk: V89, V90, V88, V87 and V85. -/
theorem witness_unpack_checks :
    7 < { State.reset with pad := 8 }.pad.toNat
      ∧ ({ State.reset with payLen := 65537 }.pad.toNat ≤ 7
        ∧ State.reset.params.payCap.val < { State.reset with payLen := 65537 }.payLen.toNat)
      ∧ ({ State.reset with pad := 3 }.pad.toNat ≤ 7 ∧ { State.reset with pad := 3 }.payLen = 0
        ∧ { State.reset with pad := 3 }.pad ≠ 0)
      ∧ (State.reset.payLen = 0 ∧ State.reset.pad = 0)
      ∧ serializable.pad.toNat ≤ 7 ∧ serializable.payLen ≠ 0
        ∧ serializable.payLen.toNat ≤ serializable.params.payCap.val ∧ serializable.treeValid = false := by
  refine ⟨?_, ?_, ?_, ?_, ?_⟩ <;> decide +kernel

/-- UnpackDecodesConcatenatedCodes, UnpackSucceedsOnlyOnCodes, PadBitsAreIgnored: V76, and V79's payload, which differs in
the pad bit only. -/
theorem witness_unpack :
    (TreeInv unpackable ∧ unpackable.treeValid = true ∧ unpackable.pad.toNat ≤ 7 ∧ unpackable.payLen ≠ 0
      ∧ unpackable.payLen.toNat ≤ unpackable.params.payCap.val ∧ (∀ b ∈ inputABC, tableAt unpackable.freq b ≠ 0)
      ∧ inputABC.length ≤ unpackable.params.outCap.val
      ∧ unpaddedBits (payloadBytes unpackable) unpackable.pad.toNat = inputABC.flatMap (codeOf unpackable))
      ∧ (exec .unpack unpackable = .next (complete (cmdUnpack unpackable))
        ∧ (complete (cmdUnpack unpackable)).status.err = false)
      ∧ PayloadWritten unpackable ∧ PayloadWritten { unpackable with payMem := [(0, 0x07), (1, 0xF5)] }
        ∧ unpaddedBits (payloadBytes unpackable) unpackable.pad.toNat
          = unpaddedBits (payloadBytes { unpackable with payMem := [(0, 0x07), (1, 0xF5)] }) unpackable.pad.toNat := by
  refine ⟨⟨fun _ => ⟨?_, rfl⟩, ?_, ?_, ?_, ?_, ?_, ?_, ?_⟩, ⟨rfl, ?_⟩, ?_, ?_, ?_⟩ <;> decide +kernel

/-- V77's state: the payload ends inside a codeword. -/
def truncated : State := withPayload built [0x07] 0

/-- V91's state: OUT_CAP is 9, one byte short. -/
def overfull : State := withOutCap unpackable ⟨9, by decide, by decide⟩

/-- V83's state: a 1 under a single-leaf tree. -/
def oddOne : State := withPayload builtOne [0x20] 5

/-- Three zeros under a single-leaf tree, with OUT_CAP = 2. -/
def overfullOne : State := withOutCap (withPayload builtOne [0x00] 5) ⟨2, by decide, by decide⟩

/-- UnpackWalkErrors: V77's payload ends in a proper prefix of C's code, and V91's passes OUT_CAP = 9 in C's code.
WalkErrorLeavesOutputUnspecified: V77. -/
theorem witness_unpack_errors :
    (TreeInv truncated ∧ truncated.treeValid = true ∧ 2 ≤ nsym truncated.freq ∧ truncated.pad.toNat ≤ 7
        ∧ truncated.payLen ≠ 0 ∧ truncated.payLen.toNat ≤ truncated.params.payCap.val
        ∧ unpaddedBits (payloadBytes truncated) truncated.pad.toNat
          = [0x41, 0x41, 0x41, 0x41, 0x41, 0x42].flatMap (codeOf truncated) ++ [true]
        ∧ [true] <+: codeOf truncated 0x43 ∧ [true] ≠ codeOf truncated 0x43
        ∧ exec .unpack truncated = .next (complete (cmdUnpack truncated))
        ∧ (complete (cmdUnpack truncated)).status.err = true)
      ∧ TreeInv overfull ∧ (inputABC.take 9).length = overfull.params.outCap.val
        ∧ unpaddedBits (payloadBytes overfull) overfull.pad.toNat
          = (inputABC.take 9).flatMap (codeOf overfull) ++ [true, false]
        ∧ codeOf overfull 0x43 <+: [true, false] := by
  refine ⟨⟨fun _ => ⟨?_, rfl⟩, ?_, ?_, ?_, ?_, ?_, ?_, ?_, ?_, rfl, ?_⟩, fun _ => ⟨?_, rfl⟩, ?_, ?_, ?_⟩ <;> decide +kernel

/-- UnpackSingleLeafErrors: V83, and three zeros with OUT_CAP = 2. -/
theorem witness_single_leaf_errors :
    (oddOne.treeValid = true ∧ (nodeAt oddOne.node oddOne.root).leaf = true ∧ oddOne.pad.toNat ≤ 7 ∧ oddOne.payLen ≠ 0
        ∧ oddOne.payLen.toNat ≤ oddOne.params.payCap.val ∧ 2 ≤ oddOne.params.outCap.val
        ∧ unpaddedBits (payloadBytes oddOne) oddOne.pad.toNat = List.replicate 2 false ++ true :: [])
      ∧ 2 = overfullOne.params.outCap.val
        ∧ unpaddedBits (payloadBytes overfullOne) overfullOne.pad.toNat = List.replicate 2 false ++ false :: [] := by
  refine ⟨⟨?_, ?_, ?_, ?_, ?_, ?_, ?_⟩, ?_, ?_⟩ <;> decide +kernel

/-- EncodeWritesTheContainerOfTheInput, EncodeIsDeterministic, and the first state of DecodeInvertsEncode: S1, and the empty
input of V94. -/
theorem witness_encode :
    ((withInput inputABC).inLen.toNat ≤ (withInput inputABC).params.inCap.val ∧ InputWritten (withInput inputABC)
      ∧ (totalBits (buildTree (countTable (inputBytes (withInput inputABC)))).codeLen (inputBytes (withInput inputABC)) + 7) / 8
        ≤ (withInput inputABC).params.payCap.val
      ∧ 5 + 5 * nsym (countTable (inputBytes (withInput inputABC))) + 2 ≤ (withInput inputABC).params.outCap.val)
      ∧ exec .encode (withInput inputABC) = .next (complete (cmdEncode (withInput inputABC)))
      ∧ (complete (cmdEncode (withInput inputABC))).status.err = false
      ∧ (InputWritten State.reset ∧ State.reset.inLen = 0)
      ∧ (InputWritten { built with inMem := (withInput inputABC).inMem, inLen := 10 }
        ∧ inputBytes (withInput inputABC) = inputBytes { built with inMem := (withInput inputABC).inMem, inLen := 10 }
        ∧ (withInput inputABC).params = built.params) := by
  refine ⟨?_, rfl, ?_, ?_, ?_⟩ <;> decide +kernel

/-- DecodeRecoversTheBytes: the codes of S1's table in S1's payload. -/
theorem witness_decode :
    (∀ b ∈ inputABC, ∃ e ∈ tableABC, e.sym = b) ∧ inputABC.length ≤ (withInput containerABC).params.outCap.val
      ∧ unpaddedBits [0x07, 0xF4] 1
        = inputABC.flatMap (codeOf (installTree (withInput containerABC) (buildTree (freqOfTable tableABC)))) := by
  refine ⟨?_, ?_, ?_⟩ <;> decide +kernel

/-- DecodeInvertsEncode, the second state: S1's container copied to the input. -/
theorem witness_decode_inverts :
    (withInput containerABC).inLen = (complete (cmdEncode (withInput inputABC))).outLen
      ∧ (complete (cmdEncode (withInput inputABC))).outLen.toNat ≤ (withInput containerABC).params.inCap.val
      ∧ (∀ k, k < (complete (cmdEncode (withInput inputABC))).outLen.toNat →
        (withInput containerABC).inMem.read k = (complete (cmdEncode (withInput inputABC))).outMem.read k)
      ∧ (inputBytes (withInput inputABC)).length ≤ (withInput containerABC).params.outCap.val := by
  refine ⟨?_, ?_, ?_, ?_⟩ <;> decide +kernel

/-- The invariants, and a step from a state that meets them: the statements StepKeeps…, and OnlyBuildingCommandsValidateTheTree
with a pending BUILD. -/
theorem witness_invariants :
    (MemInv unpackable ∧ TreeInv unpackable ∧ StatusInv unpackable ∧ LenInv unpackable)
      ∧ ∃ t, step { withFreq tableABC with engine := .busy 3, script := [.engineTurn] } = .next t
        ∧ (withFreq tableABC).treeValid = false ∧ t.treeValid = true ∧ t.engine = .idle :=
  ⟨⟨by decide +kernel, fun _ => ⟨by decide +kernel, rfl⟩,
    ⟨by decide +kernel, by decide +kernel, fun w h => by cases h⟩, by decide +kernel⟩,
    _, rfl, rfl, by decide +kernel, by decide +kernel⟩

end Sys2Proof.Machine.Tests
end

section
/-! PROOFS. What a command's rule, the host and one step can do to the state, said once as elementary updates. An
invariant then takes one case analysis over the updates. -/

namespace Sys2Proof.Machine

/-! ## The rule of a command -/

/-- The rule of a command, before its completion (40_command_dispatch.md R112). -/
def ruleOf : Instr → State → CmdResult
  | .clear => cmdClear
  | .count => cmdCount
  | .build => cmdBuild
  | .pack => cmdPack
  | .serialize => cmdSerialize
  | .parse => cmdParse
  | .unpack => cmdUnpack
  | .encode => cmdEncode
  | .decode => cmdDecode

/-- `exec` is the rule of its command, then completion (40_command_dispatch.md R113). -/
theorem exec_eq_ruleOf (i : Instr) (s : State) : exec i s = .next (complete (ruleOf i s)) := by
  cases i <;> rfl

/-- The state a rule ends in, its effects applied or left by an error (00_scope.md R14). -/
def CmdResult.state : CmdResult → State
  | .ok s => s
  | .raised _ _ s => s

/-- A word that selects a command is the command's word (30_encoding.md R90, R91). -/
theorem eq_encode_of_decodeWord {w : Word} {i : Instr} (h : decodeWord w = .ok i) : w = encode i := by
  have hlt : w.toNat < 16 := by
    rw [← fieldRsv_eq_zero]
    by_contra hn
    rw [decodeWord, if_pos hn] at h
    cases h
  obtain ⟨n, rfl⟩ : ∃ n : Fin 16, w = BitVec.ofNat 32 n.val := ⟨⟨w.toNat, hlt⟩, by simp⟩
  clear hlt
  revert n
  cases i <;> decide

/-! ## The updates of a rule -/

/-- The commands that run BUILD (42_tree_builder.md R140, 46_composite.md R240, R241). -/
def Builds (i : Instr) : Prop := i = .build ∨ i = .encode ∨ i = .decode

/-- One elementary effect of a command's rule. BUILD's is there for the commands that run BUILD only. -/
inductive RuleUpdate (builds : Prop) (s : State) : State → Prop
  /-- Free draws are counted (20_memory.md R72). -/
  | draw (n : Nat) : RuleUpdate builds s { s with draws := n }
  /-- CLEAR (40_command_dispatch.md R115). -/
  | clear : RuleUpdate builds s (cmdClear s).state
  /-- COUNT writes its counts (41_frequency_counter.md R130). -/
  | count (bs : List Byte) : RuleUpdate builds s { s with freq := countTable bs, treeValid := false }
  /-- BUILD installs the tree of the current FREQ (42_tree_builder.md R140). -/
  | install (hb : builds) (hn : nsym s.freq ≠ 0) : RuleUpdate builds s (installTree s (buildTree s.freq))
  /-- PACK of an empty input (43_bit_packer.md R170). -/
  | packEmpty : RuleUpdate builds s { s with payLen := 0, pad := 0 }
  /-- PACK writes a payload that fits (43_bit_packer.md R170). -/
  | pack (bs : List Byte) (hfit : bytesFor (totalBits s.codeLen bs) ≤ s.params.payCap.val) :
      RuleUpdate builds s (packed s bs)
  /-- SERIALIZE writes a container that fits (44_container_codec.md R192). -/
  | serialize (hfit : containerSize s ≤ s.params.outCap.val) : RuleUpdate builds s (serialized s)
  /-- PARSE commits a container whose payload fits (44_container_codec.md R193). -/
  | parse (c : Container) (hfit : c.payload.length ≤ s.params.payCap.val) : RuleUpdate builds s (parsed s c)
  /-- UNPACK of no bits (45_decoder.md R220). -/
  | unpackEmpty : RuleUpdate builds s { s with outLen := 0 }
  /-- UNPACK's walk raises an error (45_decoder.md R224). -/
  | walkError : RuleUpdate builds s (afterWalkError s)
  /-- UNPACK writes an output that fits (45_decoder.md R220). -/
  | unpack (out : List Byte) (hfit : out.length ≤ s.params.outCap.val) : RuleUpdate builds s (unpacked s out)

/-- A sequence of elementary effects of a rule. -/
abbrev RuleUpdates (builds : Prop) : State → State → Prop := Relation.ReflTransGen (RuleUpdate builds)

/-- What every elementary update keeps, a sequence of them keeps. -/
theorem keeps_of_updates {update : State → State → Prop} {P : State → Prop} (hP : ∀ s t, update s t → P s → P t)
    {s t : State} (h : Relation.ReflTransGen update s t) (hs : P s) : P t := by
  induction h with
  | refl => exact hs
  | tail _ hu ih => exact hP _ _ hu ih

section
variable {builds : Prop}

/-- Updates of a composite are those of its sub-commands, one after the other (60_exceptions.md R255). -/
theorem andThen_updates {r : CmdResult} {next : State → CmdResult} {s : State} (hr : RuleUpdates builds s r.state)
    (hnext : ∀ u, RuleUpdates builds u (next u).state) : RuleUpdates builds s (r.andThen next).state := by
  cases r with
  | ok u => exact hr.trans (hnext u)
  | raised e info u => exact hr

theorem cmdCount_updates (s : State) : RuleUpdates builds s (cmdCount s).state := by
  unfold cmdCount
  split_ifs
  · exact .refl
  · exact .tail (.single (.draw _)) (.count (inputBytes s))

theorem cmdBuild_updates (hb : builds) (s : State) : RuleUpdates builds s (cmdBuild s).state := by
  unfold cmdBuild
  split_ifs with hn
  · exact .refl
  · exact .single (.install hb hn)

theorem buildIfAny_updates (hb : builds) (s : State) : RuleUpdates builds s (buildIfAny s).state := by
  unfold buildIfAny
  split_ifs
  · exact cmdBuild_updates hb s
  · exact .refl

theorem packChecked_updates (s : State) (bs : List Byte) : RuleUpdates builds s (packChecked s bs).state := by
  unfold packChecked
  split
  · exact .refl
  · split_ifs with hfit
    · exact .refl
    · exact .single (.pack bs (Nat.not_lt.1 hfit))

theorem cmdPack_updates (s : State) : RuleUpdates builds s (cmdPack s).state := by
  unfold cmdPack
  split_ifs
  · exact .refl
  · exact .single .packEmpty
  · exact .refl
  · exact .head (.draw _) (packChecked_updates (afterInput s) (inputBytes s))

theorem cmdSerialize_updates (s : State) : RuleUpdates builds s (cmdSerialize s).state := by
  cases h : cmdSerialize s with
  | ok u =>
    obtain ⟨-, -, -, -, hfit, rfl⟩ := cmdSerialize_ok h
    exact .single (.serialize hfit)
  | raised e info u =>
    unfold cmdSerialize raise at h
    split_ifs at h <;> cases h <;> exact .refl

/-- A container PARSE accepts has a payload that fits (44_container_codec.md R193). -/
theorem parseContainer_payload_le {payCap : Nat} {bytes : List Byte} {c : Container}
    (h : parseContainer payCap bytes = .ok c) : c.payload.length ≤ payCap := by
  unfold parseContainer at h
  split at h
  · dsimp only at h
    split_ifs at h
    split at h
    · cases h
    · unfold parsePayload at h
      split_ifs at h with _ _ _ hfit
      cases h
      exact Nat.not_lt.1 hfit
    · cases h
  · cases h

theorem cmdParse_updates (s : State) : RuleUpdates builds s (cmdParse s).state := by
  unfold cmdParse
  split_ifs
  · exact .refl
  · split
    · exact .single (.draw _)
    · next c hc => exact .tail (.single (.draw _)) (.parse c (parseContainer_payload_le hc))

/-- The walk emits no more bytes than OUT_MEM holds, whatever the tables (45_decoder.md R221). -/
theorem walk_output_le {node : Vector Node 511} {root : BitVec 9} {cap : Nat} {bits : Bits} {st : DecoderState}
    {cur : BitVec 9} {start i o : Nat} {out : List Byte} (ho : o ≤ cap)
    (h : walk node root cap bits st cur start i o = .ok out) : o + out.length ≤ cap := by
  induction bits generalizing st cur start i o out with
  | nil =>
    unfold walk at h
    split_ifs at h
    cases h
    exact ho
  | cons b bits ih =>
    unfold walk at h
    dsimp only at h
    generalize (if st = .atRoot then i else start) = start' at h
    generalize (if b = true then (nodeAt node cur).right else (nodeAt node cur).left) = cur' at h
    split_ifs at h
    · split at h
      · next rest hrest =>
        cases h
        have := ih (by omega) hrest
        rw [List.length_cons]; omega
      · cases h
    · exact ih ho h

/-- What UNPACK's machine emits fits OUT_MEM (45_decoder.md R221, R222). -/
theorem decodeBits_length_le {s : State} {bits : Bits} {out : List Byte} (h : decodeBits s bits = .ok out) :
    out.length ≤ s.params.outCap.val := by
  unfold decodeBits at h
  split_ifs at h
  · have := (walk1_conv _ _ _ _ _ _ (Nat.zero_le _) h).2.2
    omega
  · have := walk_output_le (Nat.zero_le _) h
    omega

theorem cmdUnpack_updates (s : State) : RuleUpdates builds s (cmdUnpack s).state := by
  unfold cmdUnpack
  split_ifs
  · exact .refl
  · exact .refl
  · exact .refl
  · exact .single .unpackEmpty
  · exact .refl
  · split
    · exact .tail (.single (.draw _)) .walkError
    · next out hout => exact .tail (.single (.draw _)) (.unpack out (decodeBits_length_le hout))

/-- A rule is a sequence of elementary effects, BUILD's among them only for a command that runs BUILD. -/
theorem ruleOf_updates (i : Instr) (s : State) (hb : Builds i → builds) : RuleUpdates builds s (ruleOf i s).state := by
  cases i with
  | clear => exact .single .clear
  | count => exact cmdCount_updates s
  | build => exact cmdBuild_updates (hb (.inl rfl)) s
  | pack => exact cmdPack_updates s
  | serialize => exact cmdSerialize_updates s
  | parse => exact cmdParse_updates s
  | unpack => exact cmdUnpack_updates s
  | encode =>
    exact andThen_updates (andThen_updates (andThen_updates (cmdCount_updates s)
      (buildIfAny_updates (hb (.inr (.inl rfl))))) cmdPack_updates) cmdSerialize_updates
  | decode =>
    exact andThen_updates (andThen_updates (cmdParse_updates s)
      (buildIfAny_updates (hb (.inr (.inr rfl))))) cmdUnpack_updates

end

/-! ## The updates of the host and of the reset line -/

/-- One elementary effect of what is not the engine, but for the release of reset. -/
inductive HostUpdate (s : State) : State → Prop
  /-- The lines, the response, the host, the script and the free draws: no register, table or memory. -/
  | around (rst : Bool) (resp : Option Response) (host : HostState) (script : List Event) (draws : Nat) :
      HostUpdate s { s with rst := rst, resp := resp, host := host, script := script, draws := draws }
  /-- A CMD write is accepted while IDLE (40_command_dispatch.md R110). -/
  | accept (w : Word) (hidle : s.engine = .idle) : HostUpdate s (accept w s)
  /-- A write is dropped while BUSY (20_memory.md R68). -/
  | dropped : HostUpdate s (setOvr s)
  /-- A STATUS write (10_state.md R26). -/
  | acknowledge : HostUpdate s (acknowledge s)
  /-- An IRQ_EN write (10_state.md R27). -/
  | irqEn (b : Bool) : HostUpdate s { s with irqEn := b }
  /-- An IN_LEN write (10_state.md R28). -/
  | inLen (v : Word) : HostUpdate s { s with inLen := v }
  /-- A PAY_LEN write (10_state.md R29). -/
  | payLen (v : Word) : HostUpdate s { s with payLen := v }
  /-- A PAD write (10_state.md R30). -/
  | pad (v : Byte) : HostUpdate s { s with pad := v }
  /-- A FREQ write (10_state.md R39). -/
  | freq (b : Byte) (v : Word) : HostUpdate s { s with freq := tableSet s.freq b v, treeValid := false }
  /-- A write to the IN window (20_memory.md R63, R64). -/
  | inWin (o : Nat) (bs : List Byte) :
      HostUpdate s { s with inMem := s.inMem.writeInRange s.params.inCap.val o bs }
  /-- A write to the PAY window (20_memory.md R63, R64). -/
  | payWin (o : Nat) (bs : List Byte) :
      HostUpdate s { s with payMem := s.payMem.writeInRange s.params.payCap.val o bs }

/-- A sequence of elementary effects of the host. -/
abbrev HostUpdates : State → State → Prop := Relation.ReflTransGen HostUpdate

theorem busy_iff {s : State} : busy s = true ↔ s.engine ≠ .idle := by
  cases h : s.engine <;> simp [busy, h]

/-- A write performed while IDLE only (20_memory.md R68). -/
theorem whenIdle_updates {s : State} {f : State → State} (h : s.engine = .idle → HostUpdate s (f s)) :
    HostUpdates s (whenIdle s f) := by
  unfold whenIdle
  split_ifs with hb
  · exact .single .dropped
  · exact .single (h (by simpa [busy_iff] using hb))

theorem writeStatus_updates (v : Word) (s : State) : HostUpdates s (writeStatus v s) := by
  unfold writeStatus
  split_ifs
  · exact .single .acknowledge
  · exact .refl

theorem writeReg_updates (s : State) (r : RegLoc) (v : Word) : HostUpdates s (writeReg s r v) := by
  cases r with
  | cmd => exact whenIdle_updates (.accept v)
  | status => exact writeStatus_updates v s
  | irqEn => exact .single (.irqEn _)
  | inLen => apply whenIdle_updates; exact fun _ => .inLen v
  | payLen => apply whenIdle_updates; exact fun _ => .payLen v
  | pad => apply whenIdle_updates; exact fun _ => .pad _
  | freq b => apply whenIdle_updates; exact fun _ => .freq b v
  | _ => exact .refl

theorem writeLoc_updates (s : State) (l : Loc) (size : Size) (d : Word) : HostUpdates s (writeLoc s l size d) := by
  cases l with
  | reg r => exact writeReg_updates s r d
  | inWin o => apply whenIdle_updates; exact fun _ => .inWin o _
  | outWin o => exact .refl
  | payWin o => apply whenIdle_updates; exact fun _ => .payWin o _

theorem transact_updates (t : Txn) (s : State) : HostUpdates s (transact t s) := by
  unfold transact
  split_ifs
  · exact .single (.around ..)
  · cases t with
    | read a size =>
      dsimp only
      split_ifs <;> exact .single (.around ..)
    | write a size d =>
      dsimp only
      split_ifs
      · exact .single (.around ..)
      · exact .tail (writeLoc_updates s _ size d) (.around ..)

theorem runStmt_updates (stmt : HostStmt) (s : State) : HostUpdates s (runStmt stmt s) := by
  cases stmt with
  | halt => exact .refl
  | bnz r m t => exact .single (.around ..)
  | bz r m t => exact .single (.around ..)
  | _ => exact .tail (transact_updates _ s) (.around ..)

theorem hostStep_updates (s : State) : HostUpdates s (hostStep s) := by
  unfold hostStep
  split_ifs
  · exact .refl
  · split
    · exact runStmt_updates _ s
    · exact .refl

/-- The host leaves a BUSY engine as it is (20_memory.md R68). -/
theorem HostUpdate.keeps_busy {s t : State} {w : Word} (h : HostUpdate s t) (hs : s.engine = .busy w) :
    t.engine = .busy w := by
  cases h with
  | accept v hidle => rw [hidle] at hs; cases hs
  | _ => exact hs

/-! ## One step -/

/-- The pending word w completes in a step from s to t: the engine has the turn, outside reset, and t is the completion
of r (40_command_dispatch.md R112, R113). The effects of r are those of a rule, BUILD's among them only where w is the
word of a command that runs BUILD; the script loses at most its first event. -/
structure Completes (s t : State) (w : Word) (r : CmdResult) : Prop where
  busy : s.engine = .busy w
  rst : s.rst = false
  turn : s.script = [] ∨ ∃ rest, s.script = .engineTurn :: rest
  eq : t = complete r
  updates : RuleUpdates (∃ i, w = encode i ∧ Builds i) { s with script := s.script.tail } r.state

/-- What the engine can do when it has the turn: nothing, or the pending command's rule and its completion
(40_command_dispatch.md R112, R114). -/
theorem engineStep_cases {s t : State} (h : engineStep s = .next t) :
    t = s ∨ ∃ w r, s.engine = .busy w ∧ s.rst = false ∧ t = complete r
      ∧ RuleUpdates (∃ i, w = encode i ∧ Builds i) s r.state := by
  unfold engineStep at h
  split_ifs at h with hrst
  · exact .inl (next_inj h).symm
  · have hrst : s.rst = false := by simpa using hrst
    split at h
    · exact .inl (next_inj h).symm
    · next w hw =>
      refine .inr ⟨w, ?_⟩
      split at h
      · next i hi =>
        rw [exec_eq_ruleOf] at h
        refine ⟨ruleOf i s, hw, hrst, (next_inj h).symm, ?_⟩
        exact ruleOf_updates i s fun hb => ⟨i, eq_encode_of_decodeWord hi, hb⟩
      · exact ⟨raise .illegalCommand w.toNat s, hw, hrst, (next_inj h).symm, .refl⟩

/-- What one step can do: the engine completes the pending command, reset is released, or the host and the lines change
what they change. -/
theorem step_cases {s t : State} (h : step s = .next t) :
    (∃ w r, Completes s t w r)
      ∨ (s.rst = true ∧ ∃ rest, t = { State.resetOf s.params with host := s.host, script := rest, draws := s.draws })
      ∨ HostUpdates s t := by
  cases hs : s.script with
  | nil =>
    have htail : { s with script := s.script.tail } = s := by rw [hs, List.tail_nil, ← hs]
    rw [step_nil hs] at h
    unfold defaultStep at h
    split_ifs at h
    · obtain rfl | ⟨w, r, hw, hrst, ht, hr⟩ := engineStep_cases h
      · exact .inr (.inr .refl)
      · exact .inl ⟨w, r, hw, hrst, .inl hs, ht, by rwa [htail]⟩
    · cases next_inj h
      exact .inr (.inr (hostStep_updates s))
  | cons e rest =>
    rw [step_cons hs] at h
    have hpop : HostUpdate s { s with script := rest } := .around ..
    cases e with
    | bus tx => cases next_inj h; exact .inr (.inr (.head hpop (transact_updates tx _)))
    | hostTurn => cases next_inj h; exact .inr (.inr (.head hpop (hostStep_updates _)))
    | engineTurn =>
      obtain rfl | ⟨w, r, hw, hrst, ht, hr⟩ := engineStep_cases h
      · exact .inr (.inr (.single hpop))
      · exact .inl ⟨w, r, hw, hrst, .inr ⟨rest, hs⟩, ht, by rwa [hs]⟩
    | assertReset => cases next_inj h; exact .inr (.inr (.head hpop (.single (.around ..))))
    | releaseReset =>
      cases next_inj h
      by_cases hrst : s.rst = true
      · exact .inr (.inl ⟨hrst, rest, if_pos hrst⟩)
      · rw [releaseReset, if_neg hrst]
        exact .inr (.inr (.single hpop))

end Sys2Proof.Machine
end

section
/-! PROOFS. What every step keeps: the byte memories, the tree, the status fields and OUT_LEN (10_state.md R25 to
R46), and what validates a tree (R33). -/

namespace Sys2Proof.Machine

/-- A predicate that the updates, completion and the release of reset keep is kept by every step. -/
theorem step_keeps {P : State → Prop} (hrule : ∀ (builds : Prop) (s t : State), RuleUpdate builds s t → P s → P t)
    (hcomplete : ∀ r, P r.state → P (complete r)) (hhost : ∀ s t : State, HostUpdate s t → P s → P t)
    (hreset : ∀ s host script draws, P s →
      P { State.resetOf s.params with host := host, script := script, draws := draws })
    {s t : State} (hs : P s) (h : step s = .next t) : P t := by
  obtain ⟨w, r, hc⟩ | ⟨-, rest, rfl⟩ | hu := step_cases h
  · rw [hc.eq]
    exact hcomplete r (keeps_of_updates (hrule _) hc.updates (hhost _ _ (.around ..) hs))
  · exact hreset s _ _ _ hs
  · exact keeps_of_updates hhost hu hs

/-! ## The byte memories -/

theorem RuleUpdate.keeps_memInv {builds : Prop} {s t : State} (h : RuleUpdate builds s t) (hs : MemInv s) :
    MemInv t := by
  obtain ⟨hin, ⟨payWf, payBelow⟩, outWf, outBelow⟩ := hs
  cases h with
  | pack bs hfit =>
    exact ⟨hin, ⟨Memory.writeBytes_wf payWf _ _, Memory.writeBytes_below payBelow (by simpa [packBits] using hfit)⟩,
      outWf, outBelow⟩
  | serialize hfit =>
    refine ⟨hin, ⟨payWf, payBelow⟩, Memory.writeBytes_wf outWf _ _, Memory.writeBytes_below outBelow ?_⟩
    rw [containerBytes_length, tableOfFreq_length, payloadBytes_length]
    rw [containerSize] at hfit
    omega
  | parse c hfit =>
    exact ⟨hin, ⟨Memory.writeBytes_wf payWf _ _, Memory.writeBytes_below payBelow (by omega)⟩, outWf, outBelow⟩
  | walkError => exact ⟨hin, ⟨payWf, payBelow⟩, by simp⟩
  | unpack out hfit =>
    exact ⟨hin, ⟨payWf, payBelow⟩, Memory.writeBytes_wf outWf _ _, Memory.writeBytes_below outBelow (by omega)⟩
  | _ => exact ⟨hin, ⟨payWf, payBelow⟩, outWf, outBelow⟩

theorem HostUpdate.keeps_memInv {s t : State} (h : HostUpdate s t) (hs : MemInv s) : MemInv t := by
  obtain ⟨⟨inWf, inBelow⟩, ⟨payWf, payBelow⟩, hout⟩ := hs
  cases h with
  | inWin o bs =>
    exact ⟨⟨Memory.writeInRange_wf _ inWf _ _, Memory.writeInRange_below inBelow _ _⟩, ⟨payWf, payBelow⟩, hout⟩
  | payWin o bs =>
    exact ⟨⟨inWf, inBelow⟩, ⟨Memory.writeInRange_wf _ payWf _ _, Memory.writeInRange_below payBelow _ _⟩, hout⟩
  | _ => exact ⟨⟨inWf, inBelow⟩, ⟨payWf, payBelow⟩, hout⟩

/-- Settles O55: every update writes below the capacity of its memory, and writing keeps the canonical form. -/
theorem stepKeepsTheMemoryForm : Obligations.StepKeepsTheMemoryForm := by
  unfold Obligations.StepKeepsTheMemoryForm
  refine fun s t => step_keeps (fun _ _ _ => RuleUpdate.keeps_memInv) (fun r hr => ?_)
    (fun _ _ => HostUpdate.keeps_memInv) fun s _ _ _ _ => ?_
  · cases r <;> exact hr
  · simp [MemInv, State.resetOf]

/-! ## The tree -/

theorem RuleUpdate.keeps_treeInv {builds : Prop} {s t : State} (h : RuleUpdate builds s t) (hs : TreeInv s) :
    TreeInv t := by
  cases h with
  | install hb hn => exact fun _ => ⟨hn, rfl⟩
  | clear => exact fun hv => nomatch hv
  | count bs => exact fun hv => nomatch hv
  | parse c hfit => exact fun hv => nomatch hv
  | _ => exact hs

theorem HostUpdate.keeps_treeInv {s t : State} (h : HostUpdate s t) (hs : TreeInv s) : TreeInv t := by
  cases h with
  | freq b v => exact fun hv => nomatch hv
  | _ => exact hs

/-- Settles O56: BUILD installs the tree of the current FREQ, every other update of FREQ clears TREE_VALID, and none
writes the tables otherwise. -/
theorem stepKeepsTheCurrentTree : Obligations.StepKeepsTheCurrentTree := by
  unfold Obligations.StepKeepsTheCurrentTree
  refine fun s t => step_keeps (fun _ _ _ => RuleUpdate.keeps_treeInv) (fun r hr => ?_)
    (fun _ _ => HostUpdate.keeps_treeInv) fun s _ _ _ _ => ?_
  · cases r <;> exact hr
  · exact fun hv => nomatch hv

/-! ## The status fields and OUT_LEN -/

theorem RuleUpdate.keeps_statusInv {builds : Prop} {s t : State} (h : RuleUpdate builds s t) (hs : StatusInv s) :
    StatusInv t := by
  cases h <;> exact hs

/-- Completion makes the status fields agree, whatever they were (40_command_dispatch.md R113). -/
theorem complete_statusInv (r : CmdResult) : StatusInv (complete r) := by
  cases r <;> simp [StatusInv]

theorem HostUpdate.keeps_statusInv {s t : State} (h : HostUpdate s t) (hs : StatusInv s) : StatusInv t := by
  obtain ⟨herr, hinfo, hbusy⟩ := hs
  cases h with
  | accept w hidle => simp [StatusInv]
  | acknowledge =>
    exact ⟨herr, hinfo, fun w hw => ⟨rfl, (hbusy w hw).2⟩⟩
  | _ => exact ⟨herr, hinfo, hbusy⟩

theorem RuleUpdate.keeps_lenInv {builds : Prop} {s t : State} (h : RuleUpdate builds s t) (hs : LenInv s) :
    LenInv t := by
  cases h with
  | serialize hfit => exact (Nat.mod_le _ _).trans hfit
  | unpack out hfit => exact (Nat.mod_le _ _).trans hfit
  | clear => exact Nat.zero_le _
  | unpackEmpty => exact Nat.zero_le _
  | _ => exact hs

theorem HostUpdate.keeps_lenInv {s t : State} (h : HostUpdate s t) (hs : LenInv s) : LenInv t := by
  cases h <;> exact hs

/-- Settles O57: completion and acceptance set the status fields in agreement, nothing else sets ERR, ERRCODE, LAST_OP
or DONE, and OUT_LEN is set to 0 or to the length of what fitted OUT_MEM. -/
theorem stepKeepsStatusAndOutLen : Obligations.StepKeepsStatusAndOutLen := by
  unfold Obligations.StepKeepsStatusAndOutLen
  intro s t hstatus hlen h
  constructor
  · refine step_keeps (fun _ _ _ => RuleUpdate.keeps_statusInv) (fun r _ => complete_statusInv r)
      (fun _ _ => HostUpdate.keeps_statusInv) (fun s _ _ _ _ => ?_) hstatus h
    simp [StatusInv, State.resetOf, Status.zero]
  · refine step_keeps (fun _ _ _ => RuleUpdate.keeps_lenInv) (fun r hr => ?_)
      (fun _ _ => HostUpdate.keeps_lenInv) (fun s _ _ _ _ => ?_) hlen h
    · cases r <;> exact hr
    · simp [State.resetOf]

/-! ## What validates a tree -/

theorem RuleUpdate.keeps_params {builds : Prop} {s t : State} (h : RuleUpdate builds s t) : t.params = s.params := by
  cases h <;> rfl

theorem HostUpdate.keeps_params {s t : State} (h : HostUpdate s t) : t.params = s.params := by
  cases h <;> rfl

/-- No rule changes IN_LEN or IN_MEM (10_state.md R28, 20_memory.md R71). -/
theorem RuleUpdate.keeps_input {builds : Prop} {s t : State} (h : RuleUpdate builds s t) :
    t.inLen = s.inLen ∧ t.inMem = s.inMem := by
  cases h <;> exact ⟨rfl, rfl⟩

/-- A rule without BUILD validates no tree (10_state.md R33). -/
theorem RuleUpdate.keeps_invalid {builds : Prop} (hb : ¬builds) {s t : State} (h : RuleUpdate builds s t)
    (hs : s.treeValid = false) : t.treeValid = false := by
  cases h with
  | install hb' hn => exact absurd hb' hb
  | clear => rfl
  | count bs => rfl
  | parse c hfit => rfl
  | _ => exact hs

/-- The host validates no tree (10_state.md R39). -/
theorem HostUpdate.keeps_invalid {s t : State} (h : HostUpdate s t) (hs : s.treeValid = false) :
    t.treeValid = false := by
  cases h with
  | freq b v => rfl
  | _ => exact hs

/-- No step changes the capacities (10_state.md R37). -/
theorem step_params {s t : State} (h : step s = .next t) : t.params = s.params := by
  refine step_keeps (P := fun u => u.params = s.params) (fun _ _ _ hu hs => hu.keeps_params.trans hs) (fun r hr => ?_)
    (fun _ _ hu hs => hu.keeps_params.trans hs) (fun u _ _ _ hu => hu) rfl h
  cases r <;> exact hr

/-- A completing step validates a tree only where the pending command runs BUILD (10_state.md R33). -/
theorem Completes.builds_of_validates {s t : State} {w : Word} {r : CmdResult} (h : Completes s t w r)
    (hs : s.treeValid = false) (ht : t.treeValid = true) : ∃ i, w = encode i ∧ Builds i := by
  by_contra hb
  have hr : r.state.treeValid = false := keeps_of_updates (P := fun u => u.treeValid = false)
    (fun _ _ => RuleUpdate.keeps_invalid hb) h.updates hs
  rw [h.eq] at ht
  cases r <;> exact absurd (hr.symm.trans ht) (by decide)

/-- A completing step keeps IN_LEN and IN_MEM. -/
theorem Completes.keeps_input {s t : State} {w : Word} {r : CmdResult} (h : Completes s t w r) :
    t.inLen = s.inLen ∧ t.inMem = s.inMem := by
  have hr : r.state.inLen = s.inLen ∧ r.state.inMem = s.inMem :=
    keeps_of_updates (P := fun u => u.inLen = s.inLen ∧ u.inMem = s.inMem)
      (fun _ _ hu hs => ⟨hu.keeps_input.1.trans hs.1, hu.keeps_input.2.trans hs.2⟩) h.updates ⟨rfl, rfl⟩
  rw [h.eq]
  cases r <;> exact hr

/-- Settles O59: TREE_VALID rises in no update but BUILD's, and outside a release of reset a BUSY engine becomes IDLE
in a completing step only. -/
theorem onlyBuildingCommandsValidateTheTree : Obligations.OnlyBuildingCommandsValidateTheTree := by
  unfold Obligations.OnlyBuildingCommandsValidateTheTree
  intro s t h
  refine ⟨step_params h, ?_⟩
  obtain ⟨w, r, hc⟩ | ⟨hrst, rest, rfl⟩ | hu := step_cases h
  · refine ⟨fun hs ht => ?_, fun _ _ _ _ => hc.keeps_input⟩
    have hw : s.engine = .busy (encode .build) ∨ s.engine = .busy (encode .encode)
        ∨ s.engine = .busy (encode .decode) := by
      rw [hc.busy]
      obtain ⟨i, rfl, rfl | rfl | rfl⟩ := hc.builds_of_validates hs ht
      · exact .inl rfl
      · exact .inr (.inl rfl)
      · exact .inr (.inr rfl)
    refine ⟨hw, hc.rst, ?_, ?_, hc.turn⟩
    · rw [hc.eq, complete_engine]
    · rw [hc.eq, complete_done]
  · exact ⟨fun _ ht => (nomatch ht), fun w _ hr => absurd (hr.symm.trans hrst) (by decide)⟩
  · refine ⟨fun hs ht => ?_, fun w hw _ ht => ?_⟩
    · have ht' : t.treeValid = false :=
        keeps_of_updates (P := fun u => u.treeValid = false) (fun _ _ => HostUpdate.keeps_invalid) hu hs
      exact absurd (ht'.symm.trans ht) (by decide)
    · have hb := keeps_of_updates (P := fun u => u.engine = .busy w) (fun _ _ => HostUpdate.keeps_busy) hu hw
      rw [ht] at hb
      cases hb

end Sys2Proof.Machine
end

section
/-! PROOFS. Reads and writes of the register page (10_state.md R22 to R50), and the layouts of its words. -/

namespace Sys2Proof.Machine

/-! ## Reserved locations -/

/-- An aligned address of the register window that is no named location's reaches a reserved one (10_state.md R50). -/
theorem decodeAddr_reserved {a : Addr} (hlt : a.toNat < 0x1000000) (hal : a.toNat % 4 = 0)
    (h : ∀ r : RegLoc, r ≠ .reserved → r.offset ≠ a.toNat) : decodeAddr a = .reg .reserved := by
  have hres : decodeReg a.toNat = .reserved := by
    by_contra hn
    exact h _ hn (decodeReg_offset _ hal hn)
  rw [decodeAddr_of a 0 a.toNat (by omega) (by omega)]
  simp [hres]

/-- Settles O4: such an address decodes to RESERVED, which R69 lists as stable while BUSY and no write changes. -/
theorem reservedOffsetsReadZeroIgnoreWrites : Obligations.ReservedOffsetsReadZeroIgnoreWrites := by
  unfold Obligations.ReservedOffsetsReadZeroIgnoreWrites
  intro s a d hrst hlt hal h
  have hdec := decodeAddr_reserved hlt hal h
  have hok : refused a .word = false := by simp [refused, hal]
  constructor
  · simp [transact, hrst, hok, hdec, readLoc, readReg, stableWhileBusy, regValue]
  · exact ⟨none, by simp [transact, hrst, hok, hdec, writeLoc, writeReg]⟩

/-! ## Register writes -/

/-- A write of a named register outside reset is answered ok, and its effect is the register write's. -/
theorem answered_write_reg {s t : State} (r : RegLoc) (h : r ≠ .reserved) (hr : s.rst = false) {v : Word}
    (ht : writeReg s r v = t) : Answered false (transact (.write (Loc.reg r).addr .word v) s) t :=
  ⟨none, by rw [transact_write_reg h hr, ht]⟩

/-- A write while IDLE is performed (20_memory.md R68). -/
theorem whenIdle_idle {s : State} (h : s.engine = .idle) (f : State → State) : whenIdle s f = f s := by
  simp [whenIdle, busy, h]

theorem writeReg_status (s : State) (v : Word) : writeReg s .status v
    = { s with status := { s.status with done := if v.getLsbD 1 then false else s.status.done } } := by
  simp only [writeReg, writeStatus]
  split_ifs <;> rfl

theorem writeReg_pad {s : State} (h : s.engine = .idle) (v : Word) :
    writeReg s .pad v = { s with pad := v.extractLsb' 0 8 } := by
  simp only [writeReg, whenIdle_idle h]
  congr

/-- Settles O14: each write is the register's own, and those R68 drops while BUSY are performed while IDLE. -/
theorem registerWritesStoreTheValue : Obligations.RegisterWritesStoreTheValue := by
  unfold Obligations.RegisterWritesStoreTheValue
  intro s v hrst
  refine ⟨⟨answered_write_reg .status nofun hrst (writeReg_status s v), answered_write_reg .irqEn nofun hrst rfl⟩,
    fun hidle => ⟨answered_write_reg .inLen nofun hrst (by simp only [writeReg, whenIdle_idle hidle]),
      answered_write_reg .payLen nofun hrst (by simp only [writeReg, whenIdle_idle hidle]),
      answered_write_reg .pad nofun hrst (writeReg_pad hidle v), fun b => ⟨tableSet s.freq b v, ?_, fun c => ?_⟩⟩⟩
  · exact answered_write_reg (.freq b) nofun hrst (by simp only [writeReg, whenIdle_idle hidle])
  · exact tableAt_tableSet s.freq b c v

/-! ## The layouts of STATUS and NODE -/

/-- A field of a word, bit by bit. -/
theorem extractLsb'_eq_of_getLsbD {w n k : Nat} {x : BitVec w} {f : BitVec n}
    (h : ∀ i, i < n → x.getLsbD (k + i) = f.getLsbD i) : x.extractLsb' k n = f := by
  refine BitVec.eq_of_getLsbD_eq fun i hi => ?_
  rw [BitVec.getLsbD_extractLsb', h i hi, decide_eq_true hi, Bool.true_and]

/-- The fields of the STATUS word (10_state.md R25). -/
theorem statusWord_layout (s : State) :
    (statusWord s).extractLsb' 12 20 = 0
      ∧ (statusWord s).extractLsb' 8 4 = errcodeField s.status.errcode
      ∧ (statusWord s).extractLsb' 4 4 = s.status.lastOp
      ∧ (statusWord s).getLsbD 3 = s.status.ovr ∧ (statusWord s).getLsbD 2 = s.status.err
      ∧ (statusWord s).getLsbD 1 = s.status.done
      ∧ ((statusWord s).getLsbD 0 = true ↔ s.engine ≠ .idle) := by
  refine ⟨extractLsb'_eq_of_getLsbD fun i hi => ?_, extractLsb'_eq_of_getLsbD fun i hi => ?_,
    extractLsb'_eq_of_getLsbD fun i hi => ?_, ?_, ?_, ?_, ?_⟩ <;> simp only [statusWord, BitVec.getLsbD_append]
  · simp [show ¬8 + i < 4 by omega, show ¬8 + i - 4 < 4 by omega]
  · simp [hi]
  · simp [hi]
  · simp
  · simp
  · simp
  · simp [busy_iff]

/-- The fields of word 0 of a NODE record (10_state.md R42). -/
theorem nodeWord_zero_layout (n : Node) :
    (nodeWord n 0).getLsbD 31 = n.leaf ∧ (nodeWord n 0).getLsbD 30 = n.used
      ∧ (nodeWord n 0).extractLsb' 8 22 = 0 ∧ (nodeWord n 0).extractLsb' 0 8 = n.sym := by
  refine ⟨?_, ?_, extractLsb'_eq_of_getLsbD fun i hi => ?_, extractLsb'_eq_of_getLsbD fun i hi => ?_⟩ <;>
    simp only [nodeWord, BitVec.getLsbD_append]
  · simp
  · simp
  · simp [hi]
  · simp [hi]

/-- The fields of word 1 of a NODE record (10_state.md R42). -/
theorem nodeWord_one_layout (n : Node) :
    (nodeWord n 1).extractLsb' 25 7 = 0 ∧ (nodeWord n 1).extractLsb' 16 9 = n.right
      ∧ (nodeWord n 1).extractLsb' 9 7 = 0 ∧ (nodeWord n 1).extractLsb' 0 9 = n.left := by
  refine ⟨extractLsb'_eq_of_getLsbD fun i hi => ?_, extractLsb'_eq_of_getLsbD fun i hi => ?_,
    extractLsb'_eq_of_getLsbD fun i hi => ?_, extractLsb'_eq_of_getLsbD fun i hi => ?_⟩ <;>
    simp only [nodeWord, BitVec.getLsbD_append]
  · simp [show ¬25 + i < 9 by omega, show ¬25 + i - 9 - 7 < 9 by omega]
  · simp [hi, show ¬16 + i < 9 by omega, show ¬16 + i - 9 < 7 by omega, show 16 + i - 9 - 7 = i by omega]
  · simp [hi]
  · simp [hi]

/-- Word 3 of a NODE record is 0 but for the upper 8 bits of the weight (10_state.md R42). -/
theorem nodeWord_three_layout (n : Node) :
    (nodeWord n 3).extractLsb' 8 24 = 0 ∧ (nodeWord n 3).extractLsb' 0 8 = n.weight.extractLsb' 32 8 := by
  refine ⟨extractLsb'_eq_of_getLsbD fun i hi => ?_, extractLsb'_eq_of_getLsbD fun i hi => ?_⟩ <;>
    simp only [nodeWord, BitVec.getLsbD_append]
  · simp
  · simp [hi]

/-- Words 2 and 3 of a NODE record hold its weight (10_state.md R42). -/
theorem weight_eq_nodeWords (n : Node) :
    n.weight.toNat = (nodeWord n 2).toNat + 2 ^ 32 * ((nodeWord n 3).extractLsb' 0 8).toNat := by
  have hlow : (nodeWord n 2).toNat = n.weight.toNat % 2 ^ 32 := by simp [nodeWord, BitVec.extractLsb'_toNat]
  have hhigh : (n.weight.extractLsb' 32 8).toNat = n.weight.toNat / 2 ^ 32 % 2 ^ 8 := by
    simp [BitVec.extractLsb'_toNat, Nat.shiftRight_eq_div_pow]
  rw [(nodeWord_three_layout n).2, hlow, hhigh]
  omega

/-- Settles O17, field by field. -/
theorem statusAndNodeWordLayouts : Obligations.StatusAndNodeWordLayouts := by
  unfold Obligations.StatusAndNodeWordLayouts
  exact ⟨by decide, statusWord_layout, fun n => ⟨nodeWord_zero_layout n, nodeWord_one_layout n,
    (nodeWord_three_layout n).1, weight_eq_nodeWords n⟩⟩

/-! ## Register reads while IDLE -/

/-- NSYM is the number of present symbols (10_state.md R32). -/
theorem nsym_eq_card (freq : Vector Word 256) :
    nsym freq = (Finset.univ.filter (fun b : Fin 256 => freq[b.val] ≠ 0)).card := by
  have hset : Finset.univ.filter (fun b : Fin 256 => freq[b.val] ≠ 0)
      = ((presentSymbols freq).map BitVec.toFin).toFinset := by
    ext b
    simp only [Finset.mem_filter, Finset.mem_univ, true_and, List.mem_toFinset, List.mem_map, mem_presentSymbols]
    exact ⟨fun hb => ⟨BitVec.ofFin b, hb, rfl⟩, by rintro ⟨c, hc, rfl⟩; exact hc⟩
  have hnodup : ((presentSymbols freq).map BitVec.toFin).Nodup :=
    (presentSymbols_nodup freq).map fun _ _ h => BitVec.eq_of_toFin_eq h
  rw [hset, List.toFinset_card_of_nodup hnodup, List.length_map, nsym]

/-- A word read of a register location while IDLE returns its value and changes nothing (20_memory.md R61). -/
theorem transact_read_reg_idle {s : State} (r : RegLoc) (hrst : s.rst = false) (hidle : s.engine = .idle) :
    transact (.read (Loc.reg r).addr .word) s = { s with resp := some ⟨some (regValue s r), false⟩ } := by
  have hread : readReg s r = (regValue s r, s.draws) := by simp [readReg, busy, hidle]
  by_cases hr : r = .reserved
  · subst hr
    have hdec : decodeAddr (Loc.reg .reserved).addr = .reg .reserved := by decide
    have hok : refused (Loc.reg .reserved).addr .word = false := by decide
    simp [transact, hrst, hok, hdec, readLoc, hread]
  · rw [transact_read_reg hr hrst, hread]

/-- A one-bit register reads as its bit (10_state.md R27, R33). -/
theorem toNat_setWidth_ofBool (b : Bool) : ((BitVec.ofBool b).setWidth 32).toNat = b.toNat := by
  cases b <;> rfl

/-- A capacity register reads as its capacity (10_state.md R37). -/
theorem toNat_ofNat_cap (c : Cap) : (BitVec.ofNat 32 c.val).toNat = c.val := by
  have := c.le
  rw [BitVec.toNat_ofNat]
  omega

/-- NSYM reads as the number of present symbols (10_state.md R32). -/
theorem toNat_ofNat_nsym (freq : Vector Word 256) : (BitVec.ofNat 32 (nsym freq)).toNat = nsym freq := by
  have := nsym_le freq
  rw [BitVec.toNat_ofNat]
  omega

/-- Settles O18: while IDLE a read returns the location's value, which is the number the state holds there. -/
theorem idleReadsReturnTheRegister : Obligations.IdleReadsReturnTheRegister := by
  unfold Obligations.IdleReadsReturnTheRegister
  intro s r v hrst hidle h
  refine ⟨regValue s r, ?_, transact_read_reg_idle r hrst hidle⟩
  rcases h with ⟨rfl, rfl⟩ | ⟨rfl, rfl⟩ | ⟨rfl, rfl⟩ | ⟨rfl, rfl⟩ | ⟨rfl, rfl⟩ | ⟨rfl, rfl⟩ | ⟨rfl, rfl⟩
    | ⟨rfl, rfl⟩ | ⟨rfl, rfl⟩ | ⟨rfl, rfl⟩ | ⟨rfl, rfl⟩ | ⟨rfl, rfl⟩ | ⟨rfl, rfl⟩ | ⟨rfl, rfl⟩ | ⟨rfl, rfl⟩
    | ⟨b, rfl, rfl⟩ | ⟨b, rfl, rfl⟩ | ⟨rfl, rfl⟩ | ⟨b, w, rfl, rfl⟩ | ⟨n, k, rfl, rfl⟩ | ⟨rfl, rfl⟩
  · rfl
  · rfl
  · exact toNat_setWidth_ofBool s.irqEn
  · rfl
  · rfl
  · exact BitVec.toNat_setWidth_of_le (by decide)
  · rfl
  · exact (toNat_ofNat_nsym s.freq).trans (nsym_eq_card s.freq)
  · exact toNat_setWidth_ofBool s.treeValid
  · exact BitVec.toNat_setWidth_of_le (by decide)
  · exact BitVec.toNat_setWidth_of_le (by decide)
  · rfl
  · exact toNat_ofNat_cap s.params.inCap
  · exact toNat_ofNat_cap s.params.payCap
  · exact toNat_ofNat_cap s.params.outCap
  · rfl
  · exact BitVec.toNat_setWidth_of_le (by decide)
  · rfl
  · rfl
  · rfl
  · rfl

end Sys2Proof.Machine
end

section
/-! PROOFS. The arena BUILD leaves is a tree (10_state.md R43). -/

namespace Sys2Proof.Machine

/-- NNODES after BUILD (42_tree_builder.md R144). -/
theorem buildTree_nnodes {freq : Vector Word 256} (h : nsym freq ≠ 0) :
    (buildTree freq).nnodes.toNat = 2 * nsym freq - 1 := by
  have := nsym_le freq
  simp only [buildTree, built_length h, BitVec.toNat_ofNat]
  omega

/-- ROOT after BUILD (42_tree_builder.md R144). -/
theorem buildTree_root {freq : Vector Word 256} (h : nsym freq ≠ 0) :
    (buildTree freq).root.toNat = 2 * nsym freq - 2 := by
  have := nsym_le freq
  simp only [buildTree, (built_root h).1, BitVec.toNat_ofNat]
  omega

/-- Record m is an internal record with record i as a child. -/
def ParentIn (r : Nat → Node) (m i : Nat) : Prop :=
  (r m).leaf = false ∧ ((r m).left.toNat = i ∨ (r m).right.toNat = i)

section
variable {freq : Vector Word 256} {arena : List Node} {q : List Nat} (h : MergeInv freq arena q)
include h

/-- An internal record is the merge of two live records (42_tree_builder.md R143). -/
theorem MergeInv.mergeRec {m : Nat} (hm : m < arena.length) (hl : (recordIn arena m).leaf = false) :
    MergeRec (recordIn arena) m :=
  h.merged m (h.children m hm hl).1 hm

/-- A child of an internal record was live when that record was written (42_tree_builder.md R143). -/
theorem MergeInv.liveIn_of_parentIn {m i : Nat} (hm : m < arena.length) (hp : ParentIn (recordIn arena) m i) :
    LiveIn (recordIn arena) m i := by
  obtain ⟨hl, rfl | rfl⟩ := hp
  · exact (h.mergeRec hm hl).left
  · exact (h.mergeRec hm hl).right

/-- No record has two parents: the later one would have merged a record that was no longer live. -/
theorem MergeInv.parentIn_unique {m n i : Nat} (hm : m < arena.length) (hn : n < arena.length)
    (hmi : ParentIn (recordIn arena) m i) (hni : ParentIn (recordIn arena) n i) : m = n := by
  have notLater : ∀ {a b : Nat}, b < arena.length → ParentIn (recordIn arena) a i → ParentIn (recordIn arena) b i →
      ¬a < b := by
    rintro a b hb ⟨hl, hc⟩ hbi hab
    have := (h.liveIn_of_parentIn hb hbi).2 a hab hl
    tauto
  have := notLater hn hmi hni
  have := notLater hm hni hmi
  omega

/-- A record that is no longer live has a parent (42_tree_builder.md R140, the set Q). -/
theorem MergeInv.exists_parentIn {i : Nat} (hi : i < arena.length) (hq : i ∉ q) :
    ∃ m, m < arena.length ∧ ParentIn (recordIn arena) m i := by
  rw [h.live i, LiveIn] at hq
  push Not at hq
  obtain ⟨m, hm, hl, hc⟩ := hq hi
  refine ⟨m, hm, hl, ?_⟩
  tauto

end

/-- Settles O30: the merge of two live records makes them children, so every record but the last is merged once. -/
theorem validArenaIsATree : Obligations.ValidArenaIsATree := by
  unfold Obligations.ValidArenaIsATree
  intro s hs hvalid
  obtain ⟨hn, ht⟩ := hs hvalid
  have hnnodes : s.nnodes.toNat = 2 * nsym s.freq - 1 := by
    rw [show s.nnodes = (buildTree s.freq).nnodes from congrArg TreeTables.nnodes ht, buildTree_nnodes hn]
  have hroot : s.root.toNat = 2 * nsym s.freq - 2 := by
    rw [show s.root = (buildTree s.freq).root from congrArg TreeTables.root ht, buildTree_root hn]
  have hrec : ∀ m, recordAt s.node m = recordIn (builtArena s.freq).1 m := fun m => by
    rw [show s.node = (buildTree s.freq).node from congrArg TreeTables.node ht, recordAt_build hn]
  obtain ⟨hinv, -⟩ := built_spec hn
  have hlen := built_length hn
  simp only [hnnodes, hroot, hrec]
  refine ⟨by omega, by omega, fun m hm => ?_, fun i hi => ?_, fun i hi hne => ?_⟩
  · obtain ⟨hleaf, hused⟩ := built_leaf_iff hn m hm
    refine ⟨hused, hleaf, fun hl => ?_⟩
    have hrec := hinv.mergeRec (by omega) hl
    exact ⟨hrec.left.1, hrec.right.1, hrec.ne⟩
  · rw [built_leaf hn i hi]
    rfl
  · have hq : i ∉ (builtArena s.freq).2 := by simp [(built_root hn).2, hne]
    obtain ⟨m, hm, hp⟩ := hinv.exists_parentIn (by omega) hq
    refine ⟨m, ⟨by omega, hp⟩, fun m' ⟨hm', hp'⟩ => ?_⟩
    exact hinv.parentIn_unique (by omega) hm hp' hp

end Sys2Proof.Machine
end

section
/-! PROOFS. Host transactions (20_memory.md R60 to R69): which the bus refuses, what a read and a write leave alone,
and the bytes that pass through the windows. -/

namespace Sys2Proof.Machine

/-! ## Refused and accepted transactions -/

/-- The refusal check is the rule of R62. -/
theorem refused_iff (a : Addr) (size : Size) : refused a size = true ↔ Refusable a size := by
  cases size with
  | word => simp [refused, Refusable]
  | byte =>
    rw [show Refusable a .byte ↔ ∃ r, decodeAddr a = .reg r by simp [Refusable, decodeAddr_isReg]]
    cases hl : decodeAddr a <;> simp [refused, hl]

theorem refused_of_not_refusable {a : Addr} {size : Size} (h : ¬Refusable a size) : refused a size = false :=
  Bool.eq_false_iff.2 (mt (refused_iff a size).1 h)

/-- A read the bus accepts returns what its location gives (20_memory.md R61). -/
theorem transact_read {s : State} {a : Addr} {size : Size} (hrst : s.rst = false) (h : ¬Refusable a size) :
    transact (.read a size) s = { s with
      draws := (readLoc s (decodeAddr a) size).2
      resp := some ⟨some (readLoc s (decodeAddr a) size).1, false⟩ } := by
  simp [transact, hrst, refused_of_not_refusable h]

/-- A write the bus accepts has the effect its location gives it (20_memory.md R61). -/
theorem transact_write {s : State} {a : Addr} {size : Size} (hrst : s.rst = false) (h : ¬Refusable a size) (d : Word) :
    transact (.write a size d) s = { writeLoc s (decodeAddr a) size d with resp := some ⟨none, false⟩ } := by
  simp [transact, hrst, refused_of_not_refusable h]

theorem answered_write {s t : State} {a : Addr} {size : Size} {d : Word} (hrst : s.rst = false)
    (h : ¬Refusable a size) (ht : writeLoc s (decodeAddr a) size d = t) :
    Answered false (transact (.write a size d) s) t :=
  ⟨none, by rw [transact_write hrst h, ht]⟩

/-- Settles O11: the refusal check decides the response, and a refused transaction writes nothing else. -/
theorem refusedTransactionsChangeNothing : Obligations.RefusedTransactionsChangeNothing := by
  unfold Obligations.RefusedTransactionsChangeNothing
  intro s a size d hrst
  constructor
  · intro h
    have hr : refused a size = true := (refused_iff a size).2 h
    exact ⟨by simp [transact, hrst, hr], none, by simp [transact, hrst, hr]⟩
  · intro h
    exact ⟨⟨_, congrArg State.resp (transact_read hrst h)⟩, none, congrArg State.resp (transact_write hrst h d)⟩

/-! ## Writes that are dropped or ignored -/

/-- A write while BUSY is dropped and sets OVR (20_memory.md R68). -/
theorem whenIdle_busy {s : State} {w : Word} (h : s.engine = .busy w) (f : State → State) :
    whenIdle s f = setOvr s := by
  simp [whenIdle, busy, h]

/-- Settles O13: each of these writes is one that `whenIdle` guards. -/
theorem busyWritesAreDropped : Obligations.BusyWritesAreDropped := by
  unfold Obligations.BusyWritesAreDropped
  intro s w a size d hrst hbusy hok hloc
  suffices hdrop : writeLoc s (decodeAddr a) size d = setOvr s from answered_write hrst hok hdrop
  rcases hloc with ⟨r, hdec, rfl | rfl | rfl | rfl | ⟨b, rfl⟩⟩ | ⟨o, hdec⟩ | ⟨o, hdec⟩ <;>
    simp only [hdec, writeLoc, writeReg, whenIdle_busy hbusy]

/-- Settles O15: `writeLoc` leaves the state as it is at each of these locations. -/
theorem readOnlyWritesAreIgnored : Obligations.ReadOnlyWritesAreIgnored := by
  unfold Obligations.ReadOnlyWritesAreIgnored
  intro s a size d hrst hok hloc
  suffices hkeep : writeLoc s (decodeAddr a) size d = s from answered_write hrst hok hkeep
  rcases hloc with ⟨o, hdec⟩ | ⟨r, hdec, rfl | rfl | rfl | rfl | rfl | rfl | rfl | rfl | rfl | rfl | ⟨b, rfl⟩
    | ⟨b, w, rfl⟩ | ⟨n, k, rfl⟩⟩ <;> rw [hdec] <;> rfl

/-! ## Reads -/

/-- A read changes the response and the count of draws alone (20_memory.md R66). -/
theorem transact_read_frame (s : State) (a : Addr) (size : Size) :
    ∃ r n, transact (.read a size) s = { s with resp := r, draws := n } := by
  simp only [transact]
  split_ifs <;> exact ⟨_, _, rfl⟩

/-- A word read of a location of the register page, a reserved one too (20_memory.md R61). -/
theorem transact_read_reg_word {s : State} (r : RegLoc) (hrst : s.rst = false) :
    transact (.read (Loc.reg r).addr .word) s
      = { s with draws := (readReg s r).2, resp := some ⟨some (readReg s r).1, false⟩ } := by
  by_cases hr : r = .reserved
  · subst hr
    have hdec : decodeAddr (Loc.reg .reserved).addr = .reg .reserved := by decide
    have hok : ¬Refusable (Loc.reg .reserved).addr .word := by unfold Refusable; decide
    rw [transact_read hrst hok, hdec, readLoc]
  · exact transact_read_reg hr hrst

/-- The locations R69 lists are read as usual while BUSY. -/
theorem readReg_stable (s : State) {r : RegLoc} (h : stableWhileBusy r = true) :
    readReg s r = (regValue s r, s.draws) := by
  simp [readReg, h]

/-- Settles O16: the frame of every read, and `stableWhileBusy` at each location listed. -/
theorem hostReadsHaveNoSideEffects : Obligations.HostReadsHaveNoSideEffects := by
  unfold Obligations.HostReadsHaveNoSideEffects
  refine ⟨transact_read_frame, fun s w r hrst _ hr => ?_⟩
  have hstable : stableWhileBusy r = true := by
    rcases hr with rfl | rfl | rfl | rfl | rfl | rfl | rfl | rfl <;> rfl
  rw [transact_read_reg_word r hrst, readReg_stable s hstable]

/-! ## Accesses to a window -/

/-- The three byte windows (20_memory.md R60). -/
def IsWindow (win : Nat → Loc) : Prop := win = .inWin ∨ win = .outWin ∨ win = .payWin

section
variable {win : Nat → Loc} {s t : State} {o : Nat} {size : Size} {d : Word} (hwin : IsWindow win) (ho : o < 2 ^ 24)
  (hal : size = .word → o % 4 = 0)
include hwin ho

/-- The symbolic address of a window's offset lies above the register window and decodes to it (20_memory.md R60,
30_encoding.md R97). -/
theorem window_addr :
    ∃ k, 1 ≤ k ∧ (win o).addr.toNat = k * 2 ^ 24 + o ∧ decodeAddr (win o).addr = win o := by
  rcases hwin with rfl | rfl | rfl
  · have h : (Loc.inWin o).addr.toNat = 1 * 2 ^ 24 + o := by simp only [Loc.addr, BitVec.toNat_ofNat]; omega
    exact ⟨1, by omega, h, decodeAddr_of _ 1 o h ho⟩
  · have h : (Loc.outWin o).addr.toNat = 2 * 2 ^ 24 + o := by simp only [Loc.addr, BitVec.toNat_ofNat]; omega
    exact ⟨2, by omega, h, decodeAddr_of _ 2 o h ho⟩
  · have h : (Loc.payWin o).addr.toNat = 3 * 2 ^ 24 + o := by simp only [Loc.addr, BitVec.toNat_ofNat]; omega
    exact ⟨3, by omega, h, decodeAddr_of _ 3 o h ho⟩

theorem decodeAddr_window : decodeAddr (win o).addr = win o := by
  obtain ⟨_, -, -, hdec⟩ := window_addr hwin ho
  exact hdec

include hal

/-- A window takes byte accesses, and word accesses at aligned offsets (20_memory.md R62). -/
theorem not_refusable_window : ¬Refusable (win o).addr size := by
  obtain ⟨k, hk, haddr, -⟩ := window_addr hwin ho
  rintro (⟨hword, hmis⟩ | ⟨-, hreg⟩)
  · have := hal hword
    omega
  · omega

theorem answered_write_window (hrst : s.rst = false) (ht : writeLoc s (win o) size d = t) :
    Answered false (transact (.write (win o).addr size d) s) t :=
  answered_write hrst (not_refusable_window hwin ho hal) (by rw [decodeAddr_window hwin ho, ht])

theorem transact_read_window (hrst : s.rst = false) :
    transact (.read (win o).addr size) s = { s with
      draws := (readLoc s (win o) size).2
      resp := some ⟨some (readLoc s (win o) size).1, false⟩ } := by
  rw [transact_read hrst (not_refusable_window hwin ho hal), decodeAddr_window hwin ho]

end

/-! ## Window writes -/

/-- A byte write, read back (20_memory.md R63). -/
theorem Memory.read_writeInRange_byte (cap : Nat) (m : Memory) (o : Nat) (d : Word) (k : Nat) :
    (m.writeInRange cap o (writeData .byte d)).read k
      = if k = o ∧ k < cap then some (d.extractLsb' 0 8) else m.read k := by
  by_cases hk : k = o
  · subst hk
    by_cases hc : k < cap <;> simp [read_writeInRange, writeData, hc]
  · rw [read_writeInRange, dif_neg (by simp only [writeData, List.length_singleton]; omega),
      if_neg fun h => hk h.1]

/-- Byte i of a word's four bytes is its bits 8i .. 8i+7 (20_memory.md R64). -/
theorem le32_getElem (d : Word) {i : Nat} (hi : i < 4) : (le32 d)[i] = d.extractLsb' (8 * i) 8 := by
  interval_cases i <;> rfl

/-- A word write, read back byte by byte (20_memory.md R63, R64). -/
theorem Memory.read_writeInRange_word (cap : Nat) (m : Memory) (o : Nat) (d : Word) (k : Nat) :
    (m.writeInRange cap o (writeData .word d)).read k
      = if o ≤ k ∧ k < o + 4 ∧ k < cap then some (d.extractLsb' (8 * (k - o)) 8) else m.read k := by
  have hlen : (writeData .word d).length = 4 := le32_length d
  rw [read_writeInRange]
  by_cases h : o ≤ k ∧ k < o + 4 ∧ k < cap
  · rw [dif_pos (by omega), if_pos h]
    exact congrArg some (le32_getElem d (by omega))
  · rw [dif_neg (by omega), if_neg h]

/-- Settles O19: the write is a bounded range write of its bytes, which is read back byte by byte. -/
theorem windowWriteStoresInRangeBytes : Obligations.WindowWriteStoresInRangeBytes := by
  unfold Obligations.WindowWriteStoresInRangeBytes
  intro s o d hrst hidle ho
  have hin : ∀ size : Size, (size = .word → o % 4 = 0) →
      Answered false (transact (.write (Loc.inWin o).addr size d) s)
        { s with inMem := s.inMem.writeInRange s.params.inCap.val o (writeData size d) } :=
    fun _ hal => answered_write_window (.inl rfl) ho hal hrst (by rw [writeLoc, whenIdle_idle hidle])
  have hpay : ∀ size : Size, (size = .word → o % 4 = 0) →
      Answered false (transact (.write (Loc.payWin o).addr size d) s)
        { s with payMem := s.payMem.writeInRange s.params.payCap.val o (writeData size d) } :=
    fun _ hal => answered_write_window (.inr (.inr rfl)) ho hal hrst (by rw [writeLoc, whenIdle_idle hidle])
  exact ⟨⟨_, hin .byte nofun, Memory.read_writeInRange_byte _ _ o d⟩,
    fun hal => ⟨_, hin .word fun _ => hal, Memory.read_writeInRange_word _ _ o d⟩,
    ⟨_, hpay .byte nofun, Memory.read_writeInRange_byte _ _ o d⟩,
    fun hal => ⟨_, hpay .word fun _ => hal, Memory.read_writeInRange_word _ _ o d⟩⟩

/-! ## Window reads -/

/-- A byte read while IDLE of a written byte, or of one beyond the capacity, makes no draw (20_memory.md R63, R72). -/
theorem readWindowByte_idle {m : Memory} {cap o : Nat} (n : Nat) (h : o < cap → ∃ v, m.read o = some v) :
    ∃ b, readWindowByte false m cap o n = (b, n) ∧ (if o < cap then m.read o else some 0) = some b := by
  by_cases ho : o < cap
  · obtain ⟨v, hv⟩ := h ho
    exact ⟨v, by simp [readWindowByte, readByte, hv, Nat.not_le.2 ho], by rw [if_pos ho, hv]⟩
  · exact ⟨0, by simp [readWindowByte, Nat.not_lt.1 ho], if_neg ho⟩

/-- A byte as the word whose upper three bytes are 0. -/
theorem setWidth_eq_wordLE (b : Byte) : b.setWidth 32 = wordLE b 0 0 0 := by
  rw [BitVec.setWidth_eq_append (by decide)]
  simp [wordLE]

/-- The four bytes of a little-endian word, by index (20_memory.md R64). -/
theorem forall_extractLsb'_wordLE {f : Nat → Option Byte} {b0 b1 b2 b3 : Byte} (h0 : f 0 = some b0)
    (h1 : f 1 = some b1) (h2 : f 2 = some b2) (h3 : f 3 = some b3) :
    ∀ k, k < 4 → f k = some ((wordLE b0 b1 b2 b3).extractLsb' (8 * k) 8) := by
  intro k hk
  rw [← le32_getElem _ hk]
  simp only [le32_wordLE]
  interval_cases k
  · exact h0
  · exact h1
  · exact h2
  · exact h3

/-- A window read while IDLE whose in-range bytes are written (20_memory.md R61, R63, R64). -/
theorem readWindow_idle {s : State} {m : Memory} {cap o n : Nat} {size : Size} (hidle : s.engine = .idle)
    (hn : size = .byte ∧ n = 1 ∨ size = .word ∧ n = 4)
    (h : ∀ k, k < n → o + k < cap → ∃ v, m.read (o + k) = some v) :
    ∃ d, readWindow s m cap o size = (d, s.draws)
      ∧ ∀ k, k < 4 → (if k < n ∧ o + k < cap then m.read (o + k) else some 0) = some (d.extractLsb' (8 * k) 8) := by
  have hbusy : busy s = false := by simp [busy, hidle]
  have oneByte : ∀ k, k < n → ∃ b, readWindowByte false m cap (o + k) s.draws = (b, s.draws)
      ∧ (if k < n ∧ o + k < cap then m.read (o + k) else some 0) = some b := fun k hk => by
    simpa only [hk, true_and] using readWindowByte_idle s.draws (h k hk)
  rcases hn with ⟨rfl, rfl⟩ | ⟨rfl, rfl⟩
  · obtain ⟨b, hb, hm⟩ := oneByte 0 (by omega)
    rw [Nat.add_zero] at hb
    refine ⟨b.setWidth 32, by simp only [readWindow, hbusy, hb], ?_⟩
    rw [setWidth_eq_wordLE]
    exact forall_extractLsb'_wordLE hm rfl rfl rfl
  · obtain ⟨b0, hb0, hm0⟩ := oneByte 0 (by omega)
    obtain ⟨b1, hb1, hm1⟩ := oneByte 1 (by omega)
    obtain ⟨b2, hb2, hm2⟩ := oneByte 2 (by omega)
    obtain ⟨b3, hb3, hm3⟩ := oneByte 3 (by omega)
    refine ⟨wordLE b0 b1 b2 b3, ?_, forall_extractLsb'_wordLE hm0 hm1 hm2 hm3⟩
    rw [Nat.add_zero] at hb0
    simp only [readWindow, hbusy, hb0, hb1, hb2, hb3]

/-- Settles O20: each window's read is a bounded read of its memory, which for written bytes makes no draw. -/
theorem windowReadReturnsWrittenBytes : Obligations.WindowReadReturnsWrittenBytes := by
  unfold Obligations.WindowReadReturnsWrittenBytes
  intro s o n cap a m size hrst hidle ho hsize ha hwritten
  have hn : size = .byte ∧ n = 1 ∨ size = .word ∧ n = 4 := hsize.imp_right fun h => ⟨h.1, h.2.1⟩
  have hal : size = .word → o % 4 = 0 := by
    rintro rfl
    exact (hsize.resolve_left nofun).2.2
  obtain ⟨win, hwin, rfl, hread⟩ : ∃ win : Nat → Loc, IsWindow win ∧ a = (win o).addr
      ∧ readLoc s (win o) size = readWindow s m cap o size := by
    rcases ha with ⟨rfl, rfl, rfl⟩ | ⟨rfl, rfl, rfl⟩ | ⟨rfl, rfl, rfl⟩
    · exact ⟨.inWin, .inl rfl, rfl, rfl⟩
    · exact ⟨.outWin, .inr (.inl rfl), rfl, rfl⟩
    · exact ⟨.payWin, .inr (.inr rfl), rfl, rfl⟩
  obtain ⟨d, hd, hbytes⟩ := readWindow_idle hidle hn hwritten
  exact ⟨d, by rw [transact_read_window hwin ho hal hrst, hread, hd], hbytes⟩

end Sys2Proof.Machine
end

section
/-! PROOFS. The encodings: command words (30_encoding.md R90 to R92), Format BUS (R95), and the symbolic addresses
(R97). -/

namespace Sys2Proof.Machine

/-! ## Command words -/

/-- The facts of every command's word, gathered from those stated per command (30_encoding.md R90, R91). -/
theorem roundTrip (i : Instr) : Laws.RoundTrip.Statement i := by
  cases i with
  | clear => exact Laws.RoundTrip.clear
  | count => exact Laws.RoundTrip.count
  | build => exact Laws.RoundTrip.build
  | pack => exact Laws.RoundTrip.pack
  | serialize => exact Laws.RoundTrip.serialize
  | parse => exact Laws.RoundTrip.parse
  | unpack => exact Laws.RoundTrip.unpack
  | encode => exact Laws.RoundTrip.encode
  | decode => exact Laws.RoundTrip.decode

theorem legalWord_encode (i : Instr) : LegalWord (encode i) := by
  obtain ⟨-, hlegal, -, -⟩ := roundTrip i
  exact hlegal

theorem decodeWord_encode (i : Instr) : decodeWord (encode i) = .ok i := by
  obtain ⟨-, -, hdec, -⟩ := roundTrip i
  exact hdec

/-- A word selects a command exactly when it is the command's word (30_encoding.md R91). -/
theorem decodeWord_eq_ok_iff (w : Word) (i : Instr) : decodeWord w = .ok i ↔ w = encode i := by
  constructor
  · exact eq_encode_of_decodeWord
  · rintro rfl
    exact decodeWord_encode i

/-- Each of the nine legal words is a command's (30_encoding.md R91). -/
theorem exists_eq_encode {w : Word} (h : LegalWord w) : ∃ i, w = encode i := by
  obtain ⟨h1, h9⟩ := h
  interval_cases hw : w.toNat
  · exact ⟨.clear, BitVec.eq_of_toNat_eq hw⟩
  · exact ⟨.count, BitVec.eq_of_toNat_eq hw⟩
  · exact ⟨.build, BitVec.eq_of_toNat_eq hw⟩
  · exact ⟨.pack, BitVec.eq_of_toNat_eq hw⟩
  · exact ⟨.serialize, BitVec.eq_of_toNat_eq hw⟩
  · exact ⟨.parse, BitVec.eq_of_toNat_eq hw⟩
  · exact ⟨.unpack, BitVec.eq_of_toNat_eq hw⟩
  · exact ⟨.encode, BitVec.eq_of_toNat_eq hw⟩
  · exact ⟨.decode, BitVec.eq_of_toNat_eq hw⟩

/-- The words that select a command are the legal ones (30_encoding.md R91, R92). -/
theorem exists_decodeWord_iff (w : Word) : (∃ i, decodeWord w = .ok i) ↔ LegalWord w := by
  simp only [decodeWord_eq_ok_iff]
  constructor
  · rintro ⟨i, rfl⟩
    exact legalWord_encode i
  · exact exists_eq_encode

/-- Settles O2: a word that decodes is below 16, hence one of the opcode map, and each command's word decodes to it. -/
theorem decodeEncodeAgree : Obligations.DecodeEncodeAgree := by
  unfold Obligations.DecodeEncodeAgree
  exact ⟨decodeWord_eq_ok_iff, exists_decodeWord_iff, by decide⟩

/-- Settles O1: the decoder evaluated at each of the words. -/
theorem opcodeMapWordsDecode : Obligations.OpcodeMapWordsDecode := by
  unfold Obligations.OpcodeMapWordsDecode
  decide

/-! ## Format BUS -/

theorem decodeBus_encodeBus (t : Txn) : decodeBus (encodeBus t) = t := by
  cases t with
  | read a size => cases size <;> rfl
  | write a size d => cases size <;> rfl

/-! ## Symbolic addresses -/

/-- A named location's symbolic address is its word-aligned offset in the register window, and decodes to it. -/
theorem reg_addr_spec (r : RegLoc) (hr : r ≠ .reserved) :
    r.offset % 4 = 0 ∧ r.offset < 0x10000 ∧ (Loc.reg r).addr.toNat = r.offset
      ∧ decodeAddr (Loc.reg r).addr = .reg r := by
  obtain ⟨halign, hlt, -⟩ := r.offset_spec hr
  exact ⟨halign, by omega, decodeAddr_reg r hr⟩

/-- A sum of a window's base and an offset in the window is a 26-bit address (20_memory.md R60). -/
theorem toNat_window_addr {base o : Nat} (hbase : base ≤ 0x3000000) (ho : o < 2 ^ 24) :
    (BitVec.ofNat 26 (base + o)).toNat = base + o := by
  rw [BitVec.toNat_ofNat]
  omega

/-- Settles O3: the fields of Format BUS by cases, the offsets by definition, and each address by the address map. -/
theorem busAndAddressFormatsRoundTrip : Obligations.BusAndAddressFormatsRoundTrip := by
  unfold Obligations.BusAndAddressFormatsRoundTrip
  refine ⟨⟨decodeBus_encodeBus, fun _ _ => ⟨rfl, rfl, rfl, rfl⟩⟩,
    ⟨rfl, fun _ => ⟨rfl, rfl⟩, fun _ _ => rfl, fun _ _ => rfl⟩, reg_addr_spec, fun o ho => ⟨?_, ?_, ?_⟩⟩
  · exact ⟨decodeAddr_window (.inl rfl) ho, toNat_window_addr (by decide) ho⟩
  · exact ⟨decodeAddr_window (.inr (.inl rfl)) ho, toNat_window_addr (by decide) ho⟩
  · exact ⟨decodeAddr_window (.inr (.inr rfl)) ho, toNat_window_addr (by decide) ho⟩

end Sys2Proof.Machine
end

section
/-! PROOFS. The pseudo-instructions of the host (30_encoding.md R98 to R100): loads of a window, a command mnemonic, and
WAIT. -/

namespace Sys2Proof.Machine

/-! ## Loads of a window -/

/-- The state with bytes loaded at a location of the IN or the PAY window; any other location is left alone
(30_encoding.md R100). -/
def loadBytes (s : State) (l : Loc) (bs : List Byte) : State :=
  match l with
  | .inWin o => { s with inMem := s.inMem.writeInRange s.params.inCap.val o bs }
  | .payWin o => { s with payMem := s.payMem.writeInRange s.params.payCap.val o bs }
  | .reg _ | .outWin _ => s

@[simp] theorem loadBytes_rst (s : State) (l : Loc) (bs : List Byte) : (loadBytes s l bs).rst = s.rst := by
  cases l <;> rfl

@[simp] theorem loadBytes_engine (s : State) (l : Loc) (bs : List Byte) : (loadBytes s l bs).engine = s.engine := by
  cases l <;> rfl

theorem loadBytes_resp (s : State) (l : Loc) (bs : List Byte) (r : Option Response) :
    loadBytes { s with resp := r } l bs = { loadBytes s l bs with resp := r } := by
  cases l <;> rfl

/-- The one byte a byte write carries (30_encoding.md R95). -/
theorem writeData_byte (b : Byte) : writeData .byte (b.setWidth 32) = [b] := by
  rw [setWidth_eq_wordLE]
  exact congrArg (List.take 1) (le32_wordLE b 0 0 0)

/-- The four bytes a word write carries (20_memory.md R64). -/
theorem writeData_word (b0 b1 b2 b3 : Byte) : writeData .word (wordLE b0 b1 b2 b3) = [b0, b1, b2, b3] :=
  le32_wordLE b0 b1 b2 b3

/-- The windows the host can load (30_encoding.md R100). -/
def IsLoadWindow (win : Nat → Loc) : Prop := win = .inWin ∨ win = .payWin

section
variable {win : Nat → Loc} {s t : State} {o : Nat} (hwin : IsLoadWindow win)
include hwin

theorem IsLoadWindow.isWindow : IsWindow win := hwin.imp_right .inr

/-- Loading bytes is loading the first and then the others after it (20_memory.md R64). -/
theorem loadBytes_cons (b : Byte) (bs : List Byte) :
    loadBytes s (win o) (b :: bs) = loadBytes (loadBytes s (win o) [b]) (win (o + 1)) bs := by
  rcases hwin with rfl | rfl <;> rfl

/-- A write to such a window while IDLE loads the bytes it carries (20_memory.md R63, R64). -/
theorem writeLoc_eq_loadBytes (hidle : s.engine = .idle) (size : Size) (d : Word) :
    writeLoc s (win o) size d = loadBytes s (win o) (writeData size d) := by
  rcases hwin with rfl | rfl <;> simp only [writeLoc, whenIdle_idle hidle, loadBytes]

/-- An accepted load is answered ok. -/
theorem answered_load {size : Size} (hrst : s.rst = false) (hidle : s.engine = .idle) (ho : o < 2 ^ 24)
    (hal : size = .word → o % 4 = 0) (d : Word) :
    Answered false (transact (.write (win o).addr size d) s) (loadBytes s (win o) (writeData size d)) :=
  answered_write_window hwin.isWindow ho hal hrst (writeLoc_eq_loadBytes hwin hidle size d)

/-- A byte load is answered ok and does not depend on the response to the transaction before it. -/
theorem answered_load_byte_after {err : Bool} (ht : Answered err t s) (hrst : s.rst = false)
    (hidle : s.engine = .idle) (ho : o < 2 ^ 24) (b : Byte) :
    Answered false (transact (.write (win o).addr .byte (b.setWidth 32)) t) (loadBytes s (win o) [b]) := by
  obtain ⟨v, rfl⟩ := ht
  obtain ⟨v', h⟩ := answered_load (s := { s with resp := some ⟨v, err⟩ }) (size := .byte) hwin hrst hidle ho nofun
    (b.setWidth 32)
  exact ⟨v', by rw [h, writeData_byte, loadBytes_resp]⟩

end

/-- Settles O21: four byte loads one after the other are one load of the four bytes, which are the word's. -/
theorem byteLoadsEqualWordLoad : Obligations.ByteLoadsEqualWordLoad := by
  unfold Obligations.ByteLoadsEqualWordLoad
  intro s win o b0 b1 b2 b3 hrst hidle hwin hal ho
  replace hwin : IsLoadWindow win := hwin
  refine ⟨loadBytes s (win o) [b0, b1, b2, b3], ?_, ?_⟩
  · have h0 := answered_load (size := .byte) hwin hrst hidle (by omega : o < 2 ^ 24) nofun (b0.setWidth 32)
    rw [writeData_byte] at h0
    have h1 := answered_load_byte_after hwin h0 (by simpa using hrst) (by simpa using hidle)
      (by omega : o + 1 < 2 ^ 24) b1
    have h2 := answered_load_byte_after hwin h1 (by simpa using hrst) (by simpa using hidle)
      (by omega : o + 2 < 2 ^ 24) b2
    have h3 := answered_load_byte_after hwin h2 (by simpa using hrst) (by simpa using hidle)
      (by omega : o + 3 < 2 ^ 24) b3
    rw [loadBytes_cons hwin b0, loadBytes_cons hwin b1, loadBytes_cons hwin b2]
    exact h3
  · rw [← writeData_word]
    exact answered_load hwin hrst hidle (by omega) (fun _ => hal) (wordLE b0 b1 b2 b3)

/-! ## Statements of the host -/

/-- Outside reset the host's turn runs its next statement (30_encoding.md R96). -/
theorem hostStep_eq_runStmt {s : State} {stmt : HostStmt} (hrst : s.rst = false)
    (h : s.host.prog[s.host.next]? = some stmt) : hostStep s = runStmt stmt s := by
  simp [hostStep, hrst, h]

/-- A CMD write statement while IDLE accepts its word (30_encoding.md R98, 40_command_dispatch.md R110). -/
theorem runStmt_cmd {s : State} (hrst : s.rst = false) (hidle : s.engine = .idle) (w : Word) :
    runStmt (.wr32 symCmd w) s
      = { accept w s with resp := some ⟨none, false⟩, host := s.host.advance } := by
  have hcmd : transact (.write symCmd .word w) s = { accept w s with resp := some ⟨none, false⟩ } := by
    rw [symCmd, transact_write_reg (r := .cmd) nofun hrst, writeReg, whenIdle_idle hidle]
  rw [runStmt, hostWrite, hcmd]
  rfl

/-- The state after a statement that reads STATUS into a scratch variable (30_encoding.md R99). -/
def statusRead (r : Scratch) (s : State) : State :=
  { s with
    resp := some ⟨some (statusWord s), false⟩
    host := { s.host.advance with regs := s.host.regs.set r.val (statusWord s) } }

/-- STATUS is read as usual also while BUSY (20_memory.md R69). -/
theorem runStmt_readStatus {s : State} (hrst : s.rst = false) (r : Scratch) :
    runStmt (.rd32 r symStatus) s = statusRead r s := by
  have hread : transact (.read symStatus .word) s = { s with resp := some ⟨some (statusWord s), false⟩ } := by
    rw [symStatus, transact_read_reg_word .status hrst, readReg_stable s rfl, regValue]
  rw [runStmt, hostRead, hread]
  rfl

@[simp] theorem statusRead_reg (r : Scratch) (s : State) : (statusRead r s).host.reg r = statusWord s := by
  simp [statusRead, HostState.reg]

/-- The mask BUSY picks the bit of STATUS that is 1 unless the engine is IDLE (30_encoding.md R97, 10_state.md R25). -/
theorem statusWord_and_maskBusy (s : State) : statusWord s &&& maskBusy = 0 ↔ s.engine = .idle := by
  obtain ⟨-, -, -, -, -, -, hbusy⟩ := statusWord_layout s
  rw [show maskBusy = 1#32 from rfl, BitVec.and_one_eq_setWidth_ofBool_getLsbD, ← not_iff_not, ← ne_eq s.engine,
    ← hbusy]
  cases (statusWord s).getLsbD 0 <;> decide

/-- One round of WAIT: the STATUS word is in r7, and the host goes back exactly while BUSY (30_encoding.md R99). -/
theorem hostStep_wait {s : State} (hrst : s.rst = false)
    (hread : s.host.prog[s.host.next]? = some (.rd32 7 symStatus))
    (hbranch : s.host.prog[s.host.next + 1]? = some (.bnz 7 maskBusy s.host.next)) :
    hostStep (hostStep s) = { statusRead 7 s with
      host := { (statusRead 7 s).host with
        next := if s.engine = .idle then s.host.next + 2 else s.host.next } } := by
  rw [hostStep_eq_runStmt hrst hread, runStmt_readStatus hrst,
    hostStep_eq_runStmt (s := statusRead 7 s) hrst hbranch, runStmt, hostBranch, statusRead_reg]
  by_cases hidle : s.engine = .idle
  · rw [decide_eq_false (not_not.2 ((statusWord_and_maskBusy s).2 hidle)), if_pos hidle]
    rfl
  · rw [decide_eq_true (mt (statusWord_and_maskBusy s).1 hidle), if_neg hidle]
    rfl

/-- Settles O22: the assembler evaluated on each line, and the rules of the CMD write and of a round of WAIT. -/
theorem mnemonicsAndWaitDriveTheBlock : Obligations.MnemonicsAndWaitDriveTheBlock := by
  unfold Obligations.MnemonicsAndWaitDriveTheBlock
  refine ⟨fun i s => ⟨rfl, fun hrst hidle hprog => ⟨_, rfl, ?_⟩⟩, rfl,
    fun s hrst hread hbranch => ⟨_, hostStep_wait hrst hread hbranch, statusRead_reg 7 s, rfl, rfl⟩⟩
  rw [hostStep_eq_runStmt hrst hprog, show (4 : Addr) = symCmd from rfl, runStmt_cmd hrst hidle]
  exact ⟨rfl, rfl, rfl⟩

end Sys2Proof.Machine
end

section
/-! PROOFS. Command dispatch (40_command_dispatch.md): acceptance, the engine's step, what every command leaves as it
is, and CLEAR. -/

namespace Sys2Proof.Machine

/-! ## Acceptance -/

/-- Acceptance lets irq fall, because it clears DONE (40_command_dispatch.md R111). -/
@[simp] theorem irq_accept (w : Word) (s : State) : irq (accept w s) = false := rfl

/-- Settles O12: R68 guards the CMD write, which is acceptance while IDLE and sets OVR while BUSY. -/
theorem cmdWriteWhileIdleAccepts : Obligations.CmdWriteWhileIdleAccepts := by
  unfold Obligations.CmdWriteWhileIdleAccepts
  intro s w hrst
  refine ⟨fun hidle => ?_, fun p hbusy => answered_write_reg .cmd nofun hrst (whenIdle_busy hbusy _)⟩
  have haccept : writeReg s .cmd w = accept w s := whenIdle_idle hidle _
  refine ⟨answered_write_reg .cmd nofun hrst haccept, ?_⟩
  rw [transact_write_reg (r := .cmd) nofun hrst, haccept]
  exact irq_accept w s

/-! ## The engine's step -/

/-- The engine executes a pending command (40_command_dispatch.md R112). -/
theorem engineStep_eq_exec {s : State} {w : Word} {i : Instr} (hrst : s.rst = false) (hbusy : s.engine = .busy w)
    (hdec : decodeWord w = .ok i) : engineStep s = exec i s := by
  simp [engineStep, hrst, hbusy, hdec]

/-- The engine completes a pending word of no command as illegal (40_command_dispatch.md R114). -/
theorem engineStep_eq_illegalWord {s : State} {w : Word} (hrst : s.rst = false) (hbusy : s.engine = .busy w)
    (hillegal : ¬LegalWord w) : engineStep s = .next (illegalWord w s) := by
  cases hdec : decodeWord w with
  | ok i => exact absurd ((exists_decodeWord_iff w).1 ⟨i, hdec⟩) hillegal
  | error e => simp [engineStep, hrst, hbusy, hdec]

/-- The engine's turn in the script is its step (20_memory.md R73). -/
theorem step_engineTurn {s : State} {rest : List Event} (h : s.script = .engineTurn :: rest) :
    step s = engineStep { s with script := rest } :=
  step_cons h

/-- With an empty script a BUSY engine takes its step (70_reset_and_hazards.md R292). -/
theorem step_busy_of_nil {s : State} {w : Word} (h : s.script = []) (hbusy : s.engine = .busy w) :
    step s = engineStep s := by
  rw [step_nil h, defaultStep, if_pos (busy_iff.2 (by simp [hbusy]))]

/-- A 32-bit word is placed as it is. -/
theorem withFetchWord_toNat (s : State) (w : Word) : s.withFetchWord 32 w.toNat = placeCommand w s := by
  rw [State.withFetchWord, Nat.mod_eq_of_lt w.isLt, BitVec.ofNat_toNat, BitVec.setWidth_eq]

/-- Settles O5: each way the engine gets the turn leads to its step, which executes the pending command. -/
theorem stepRunsPendingCommand : Obligations.StepRunsPendingCommand := by
  unfold Obligations.StepRunsPendingCommand
  refine ⟨fun s w i rest hrst hbusy hdec => ⟨fun hscript => ?_, fun hscript => ?_⟩, fun s i => ?_⟩
  · rw [step_engineTurn hscript]
    exact engineStep_eq_exec hrst hbusy hdec
  · rw [step_busy_of_nil hscript hbusy, engineStep_eq_exec hrst hbusy hdec]
  · rw [withFetchWord_toNat, step_engineTurn (s := placeCommand _ s) rfl]
    exact engineStep_eq_exec rfl rfl (decodeWord_encode i)

/-- An illegal word fails with ILLEGAL_COMMAND and the word as ERR_INFO (40_command_dispatch.md R114). -/
theorem illegalWord_failedWith (w : Word) (s : State) : FailedWith .illegalCommand w.toNat s (illegalWord w s) :=
  ⟨rfl, by simp [illegalWord, raise], rfl⟩

/-- Settles O6: the engine's turn completes an illegal word by raising ILLEGAL_COMMAND on the state as it is. -/
theorem illegalWordCompletesWithError : Obligations.IllegalWordCompletesWithError := by
  unfold Obligations.IllegalWordCompletesWithError
  intro s w rest hrst hbusy hillegal hscript
  refine ⟨illegalWord w { s with script := rest }, ?_, illegalWord_failedWith w _, rfl⟩
  rw [step_engineTurn hscript]
  exact engineStep_eq_illegalWord hrst hbusy hillegal

/-! ## Every run goes on -/

theorem eventStep_next (e : Event) (s : State) : ∃ t, eventStep e s = .next t := by
  cases e with
  | engineTurn => exact engineStep_next s
  | _ => exact ⟨_, rfl⟩

theorem defaultStep_next (s : State) : ∃ t, defaultStep s = .next t := by
  unfold defaultStep
  split_ifs
  · exact engineStep_next s
  · exact ⟨_, rfl⟩

/-- Every state has a next one (40_command_dispatch.md R112, 60_exceptions.md R256). -/
theorem step_next (s : State) : ∃ t, step s = .next t := by
  cases hs : s.script with
  | nil => rw [step_nil hs]; exact defaultStep_next s
  | cons e rest => rw [step_cons hs]; exact eventStep_next e _

/-- Settles O7, by induction on the number of steps: each of them has a next state. -/
theorem everyRunIsSafe : Obligations.EveryRunIsSafe := by
  unfold Obligations.EveryRunIsSafe
  intro s k
  induction k generalizing s with
  | zero => exact ⟨s, rfl⟩
  | succ k ih =>
    obtain ⟨t, ht⟩ := step_next s
    rw [core_run_succ ht]
    exact ih t

/-! ## What every command leaves as it is -/

/-- What no command changes: the capacities, LAST_OP and OVR, what only the host writes, the lines, the host and the
script (40_command_dispatch.md R113, 20_memory.md R71). -/
structure CommandFrame (s t : State) : Prop where
  params : t.params = s.params
  lastOp : t.status.lastOp = s.status.lastOp
  ovr : t.status.ovr = s.status.ovr
  irqEn : t.irqEn = s.irqEn
  inLen : t.inLen = s.inLen
  inMem : t.inMem = s.inMem
  rst : t.rst = s.rst
  resp : t.resp = s.resp
  host : t.host = s.host
  script : t.script = s.script

theorem CommandFrame.refl (s : State) : CommandFrame s s := by constructor <;> rfl

theorem CommandFrame.trans {s t u : State} (h : CommandFrame s t) (h' : CommandFrame t u) : CommandFrame s u where
  params := h'.params.trans h.params
  lastOp := h'.lastOp.trans h.lastOp
  ovr := h'.ovr.trans h.ovr
  irqEn := h'.irqEn.trans h.irqEn
  inLen := h'.inLen.trans h.inLen
  inMem := h'.inMem.trans h.inMem
  rst := h'.rst.trans h.rst
  resp := h'.resp.trans h.resp
  host := h'.host.trans h.host
  script := h'.script.trans h.script

theorem RuleUpdate.commandFrame {builds : Prop} {s t : State} (h : RuleUpdate builds s t) : CommandFrame s t := by
  cases h <;> constructor <;> rfl

theorem complete_commandFrame (r : CmdResult) : CommandFrame r.state (complete r) := by
  cases r <;> constructor <;> rfl

/-- A rule keeps the frame, since its elementary effects do. -/
theorem ruleOf_commandFrame (i : Instr) (s : State) : CommandFrame s (ruleOf i s).state :=
  keeps_of_updates (P := CommandFrame s) (fun _ _ hu hs => hs.trans hu.commandFrame) (ruleOf_updates i s id) (.refl s)

/-- After a completion irq is DONE_IE, because DONE is set (40_command_dispatch.md R113, 10_state.md R49). -/
theorem irq_complete (r : CmdResult) : irq (complete r) = (complete r).irqEn := by
  rw [irq, complete_done, Bool.true_and]

/-- Settles O23: a command is its rule and then completion, which both keep the frame; completion writes the status. -/
theorem everyCommandCompletes : Obligations.EveryCommandCompletes := by
  unfold Obligations.EveryCommandCompletes
  intro i s
  obtain ⟨herr, hinfo, -⟩ := complete_statusInv (ruleOf i s)
  have hf := (ruleOf_commandFrame i s).trans (complete_commandFrame (ruleOf i s))
  exact ⟨_, exec_eq_ruleOf i s, complete_engine _, complete_done _, hf.lastOp, hf.ovr, herr, hinfo (complete_engine _),
    (irq_complete _).trans hf.irqEn, hf.irqEn, hf.inLen, hf.inMem, hf.params, hf.rst, hf.resp, hf.host, hf.script⟩

/-! ## CLEAR -/

/-- A rule that ends with its effects applied succeeds (40_command_dispatch.md R113). -/
theorem succeeded_complete_ok {s u : State} (h : u.status = s.status) : Succeeded s (complete (.ok u)) :=
  ⟨rfl, rfl, by rw [complete_ok_status, h]⟩

/-- Settles O25: CLEAR's rule raises nothing, and it replaces each table by one that is zero throughout. -/
theorem clearEmptiesTheDatapath : Obligations.ClearEmptiesTheDatapath := by
  unfold Obligations.ClearEmptiesTheDatapath
  intro s
  refine ⟨_, rfl, succeeded_complete_ok rfl, fun b => ⟨?_, ?_, ?_⟩, fun n => ?_, rfl, rfl, rfl, rfl, rfl, rfl, ?_, rfl⟩
  · exact tableAt_replicate 0 b
  · exact tableAt_replicate 0 b
  · exact tableAt_replicate _ b
  · exact Vector.getElem_replicate n.isLt
  · exact nsym_eq_zero.2 (tableAt_replicate 0)

end Sys2Proof.Machine
end

section
/-! PROOFS. The Frequency Counter (41_frequency_counter.md): COUNT's result, as counts of the positions and of the
multiset of the input. -/

namespace Sys2Proof.Machine

/-! ## The command -/

/-- The state COUNT's rule ends in when the input fits (41_frequency_counter.md R130). -/
def counted (s : State) : State := { afterInput s with freq := countTable (inputBytes s), treeValid := false }

/-- COUNT of an input that fits (41_frequency_counter.md R130). -/
theorem cmdCount_of_le {s : State} (h : s.inLen.toNat ≤ s.params.inCap.val) : cmdCount s = .ok (counted s) :=
  if_neg (Nat.not_lt.2 h)

/-- COUNT of too long an input (41_frequency_counter.md R130). -/
theorem cmdCount_of_gt {s : State} (h : s.params.inCap.val < s.inLen.toNat) :
    cmdCount s = raise .capacity s.inLen.toNat s :=
  if_pos h

theorem exec_count_of_le {s : State} (h : s.inLen.toNat ≤ s.params.inCap.val) :
    exec .count s = .next (complete (.ok (counted s))) := by
  rw [exec_eq_ruleOf, ruleOf, cmdCount_of_le h]

/-- COUNT without an error left the counts of an input that fits (41_frequency_counter.md R130). -/
theorem exec_count_ok {s t : State} (h : exec .count s = .next t) (hok : t.status.err = false) :
    t.freq = countTable (inputBytes s) := by
  by_cases hfit : s.inLen.toNat ≤ s.params.inCap.val
  · rw [exec_count_of_le hfit] at h
    rw [← next_inj h, complete_ok_freq, counted]
  · rw [exec_eq_ruleOf, ruleOf, cmdCount_of_gt (Nat.not_le.1 hfit)] at h
    rw [← next_inj h, raise, complete_raised_status] at hok
    cases hok

/-! ## The counts -/

/-- An entry of FREQ holds every count of the input, because IN_LEN is a 32-bit word (10_state.md R28, R38). -/
theorem inputBytes_length_lt (s : State) : (inputBytes s).length < 2 ^ 32 := by
  rw [inputBytes_length]
  exact s.inLen.isLt

/-- The occurrences of a byte are the positions that hold it. -/
theorem card_positions_eq_count (l : List Byte) (b : Byte) :
    ((Finset.range l.length).filter (fun j => l[j]? = some b)).card = l.count b := by
  rw [← Nat.count_eq_card_filter_range]
  induction l with
  | nil => rfl
  | cons c l ih => simp [Nat.count_succ', List.count_cons, ih]

/-- The counts of all byte values sum to the length (41_frequency_counter.md R132). -/
theorem sum_count_allBytes (l : List Byte) : (allBytes.map (fun b => l.count b)).sum = l.length := by
  have hnodup : allBytes.Nodup := allBytes_sorted.imp fun h e => by simp [e] at h
  simp only [← List.sum_toFinset _ hnodup, ← Multiset.coe_count, ← Multiset.coe_card]
  exact Multiset.sum_count_eq_card fun b _ => List.mem_toFinset.2 (mem_allBytes b)

/-- A permutation has the same counts (41_frequency_counter.md R131). -/
theorem countTable_perm {l l' : List Byte} (h : l.Perm l') : countTable l = countTable l' :=
  table_ext fun b => by simp only [countTable, tableAt_tableOf, h.count_eq]

/-! ## The obligations -/

/-- Settles O26: the rule's two branches; the entries are the counts of the input, which are counts of positions. -/
theorem countCountsOccurrences : Obligations.CountCountsOccurrences := by
  unfold Obligations.CountCountsOccurrences
  intro s
  refine ⟨fun hfit => ⟨_, exec_count_of_le hfit, succeeded_complete_ok rfl, rfl, fun b => ?_, rfl⟩,
    fun hlong => ?_, inputBytes_length s, fun j hj v hv => ?_⟩
  · rw [complete_ok_freq, counted, countTable_toNat _ (inputBytes_length_lt s), ← card_positions_eq_count,
      inputBytes_length]
  · exact failsCleanly_of_raise (exec_eq_ruleOf .count s) (cmdCount_of_gt hlong) s.inLen.isLt rfl
  · exact readBytes_getElem hj (by rwa [Nat.zero_add])

/-- Settles O27: the counts are invariant under permutation, sum to the length, and are 0 for absent bytes alone. -/
theorem countsAreOfTheInputMultiset : Obligations.CountsAreOfTheInputMultiset := by
  unfold Obligations.CountsAreOfTheInputMultiset
  refine ⟨fun s s' t t' hfit hfit' hperm ht ht' => ?_, fun s t ht hok => ?_⟩
  · rw [exec_count_of_le hfit] at ht
    rw [exec_count_of_le hfit'] at ht'
    rw [← next_inj ht, ← next_inj ht']
    exact countTable_perm hperm
  · have hlt := inputBytes_length_lt s
    rw [exec_count_ok ht hok]
    refine ⟨?_, countTable_ne_zero hlt⟩
    calc (allBytes.map fun b => (tableAt (countTable (inputBytes s)) b).toNat).sum
        = (allBytes.map fun b => (inputBytes s).count b).sum := by simp only [countTable_toNat _ hlt]
      _ = s.inLen.toNat := by rw [sum_count_allBytes, inputBytes_length]

end Sys2Proof.Machine
end

section
/-! PROOFS. The Tree Builder (42_tree_builder.md): what BUILD leaves in the arena and in the code tables. -/

namespace Sys2Proof.Machine

/-! ## The command -/

/-- BUILD with a present symbol (42_tree_builder.md R140). -/
theorem exec_build_of_present {s : State} (h : nsym s.freq ≠ 0) :
    exec .build s = .next (complete (.ok (installTree s (buildTree s.freq)))) := by
  rw [exec_eq_ruleOf, ruleOf, cmdBuild, if_neg h]

/-- BUILD without a present symbol (42_tree_builder.md R140). -/
theorem cmdBuild_of_empty {s : State} (h : nsym s.freq = 0) : cmdBuild s = raise .emptyInput 0 s := if_pos h

/-- BUILD without an error had a present symbol and left the tables of the tree (42_tree_builder.md R140). -/
theorem exec_build_ok {s t : State} (h : exec .build s = .next t) (hok : t.status.err = false) :
    nsym s.freq ≠ 0 ∧ treeTables t = buildTree s.freq := by
  by_cases hn : nsym s.freq = 0
  · rw [exec_eq_ruleOf, ruleOf, cmdBuild_of_empty hn] at h
    rw [← next_inj h, raise, complete_raised_status] at hok
    cases hok
  · rw [exec_build_of_present hn] at h
    rw [← next_inj h]
    exact ⟨hn, rfl⟩

/-! ## The arena -/

/-- NODE after BUILD holds the records of the finished arena, then zero records (42_tree_builder.md R144). -/
theorem recordAt_build_eq {freq : Vector Word 256} (h : nsym freq ≠ 0) :
    recordAt (buildTree freq).node = recordIn (builtArena freq).1 :=
  funext (recordAt_build h)

theorem recordIn_of_length_le {arena : List Node} {m : Nat} (h : arena.length ≤ m) : recordIn arena m = .zero :=
  List.getD_eq_default _ _ h

/-- Settles O28: the finished arena keeps the seed, has 2*NSYM - 1 records and leaves the last of them in Q. -/
theorem buildSeedsAndFinishesTheArena : Obligations.BuildSeedsAndFinishesTheArena := by
  unfold Obligations.BuildSeedsAndFinishesTheArena
  intro s
  refine ⟨fun hn => ⟨_, exec_build_of_present hn, succeeded_complete_ok rfl, rfl, buildTree_root hn,
      buildTree_nnodes hn, fun i hi => ?_, fun m hm => ?_, rfl⟩,
    fun hn => failsCleanly_of_raise (exec_eq_ruleOf .build s) (cmdBuild_of_empty hn) (by decide) rfl⟩
  · exact (recordAt_build hn i).trans (built_leaf hn i hi)
  · exact (recordAt_build hn m).trans (recordIn_of_length_le ((built_length hn).trans_le hm))

/-- Settles O29: the loop's invariant says of every record it wrote that it merges the two least of Q. -/
theorem buildMergesTheTwoLeast : Obligations.BuildMergesTheTwoLeast := by
  unfold Obligations.BuildMergesTheTwoLeast
  intro s t hexec hok m hge hlt
  obtain ⟨hn, ht⟩ := exec_build_ok hexec hok
  have hnode : t.node = (buildTree s.freq).node := congrArg TreeTables.node ht
  have hrec : MergeRec (recordAt t.node) m := by
    rw [hnode, recordAt_build_eq hn]
    exact (built_spec hn).1.merged m hge (by rwa [built_length hn])
  exact ⟨hrec.leaf, hrec.used, hrec.sym, hrec.left, hrec.right, hrec.ne, hrec.first, hrec.second, hrec.weight⟩

/-! ## The code tables -/

theorem length_codeOf (s : State) (b : Byte) : (codeOf s b).length = codeLenAt s.codeLen b := by simp [codeOf]

section
variable {s : State} {freq : Vector Word 256} (hn : nsym freq ≠ 0) (ht : treeTables s = buildTree freq)
include hn ht

/-- The tables hold each code of the code list, with zeros after it (42_tree_builder.md R147). -/
theorem codeOf_of_mem {e : Byte × Bits} (he : e ∈ codeList freq) :
    codeOf s e.1 = e.2 ∧ ∀ i, i < 256 → codeBitAt s.codeBits e.1 i = e.2.getD i false :=
  (codeOf_eq hn (congrArg TreeTables.codeLen ht) (congrArg TreeTables.codeBits ht) ((lookup_mem hn).2 he)).2

/-- The code list pairs each present symbol with its stored code. -/
theorem codeList_perm : (codeList freq).Perm ((presentSymbols freq).map fun b => (b, codeOf s b)) := by
  have hcodes : ((codeList freq).map (·.1)).map (fun b => (b, codeOf s b)) = codeList freq := by
    rw [List.map_map]
    exact (List.map_congr_left fun e he => by simp [(codeOf_of_mem hn ht he).1]).trans (List.map_id _)
  rw [← hcodes]
  exact (codeList_syms hn).map _

theorem codeOf_mem_codeList {b : Byte} (hb : tableAt freq b ≠ 0) : (b, codeOf s b) ∈ codeList freq :=
  (codeList_perm hn ht).mem_iff.2 (List.mem_map_of_mem (mem_presentSymbols.2 hb))

/-- The stored bits after a code are 0 (42_tree_builder.md R147, 10_state.md R41). -/
theorem codeBitAt_of_length_le {b : Byte} {i : Nat} (hi : codeLenAt s.codeLen b ≤ i) (hlt : i < 256) :
    codeBitAt s.codeBits b i = false := by
  by_cases hb : tableAt freq b = 0
  · have hzero := (noCode_eq hn (congrArg TreeTables.codeLen ht) (congrArg TreeTables.codeBits ht) hb).2
    simp [codeBitAt, hzero, show i / 32 < 8 by omega]
  · rw [(codeOf_of_mem hn ht (codeOf_mem_codeList hn ht hb)).2 i hlt]
    exact List.getD_eq_default _ _ ((length_codeOf s b).trans_le hi)

end

/-- With one present symbol every code is "0" (42_tree_builder.md R146). -/
theorem codeList_of_single {freq : Vector Word 256} (h : nsym freq = 1) {e : Byte × Bits} (he : e ∈ codeList freq) :
    e.2 = [false] := by
  rw [codeList] at he
  simp only [h, if_true, List.mem_singleton] at he
  rw [he]

/-- Settles O31: the stored codes are those of the code list, which are the paths of the finished arena. -/
theorem codesAreTreePaths : Obligations.CodesAreTreePaths := by
  unfold Obligations.CodesAreTreePaths
  intro s t hexec hok
  obtain ⟨hn, ht⟩ := exec_build_ok hexec hok
  refine ⟨fun b hb => ?_, fun h2 b hb => ?_, fun h1 b hb => ?_, fun b i => codeBitAt_of_length_le hn ht⟩
  · exact noCode_eq hn (congrArg TreeTables.codeLen ht) (congrArg TreeTables.codeBits ht) hb
  · have hmem := codeOf_mem_codeList hn ht hb
    obtain ⟨hpos, hle, -⟩ := codeList_bound hn _ hmem
    have hpath := codeList_follow h2 _ hmem
    rw [← ht] at hpath
    obtain ⟨hleaf, hsym, hinternal⟩ := hpath
    simp only [length_codeOf] at hpos hle hinternal
    exact ⟨hpos, Nat.le_sub_one_of_lt (hle h2), hleaf, hsym, hinternal⟩
  · have hcode : codeOf t b = [false] := codeList_of_single h1 (codeOf_mem_codeList hn ht hb)
    exact ⟨by rw [← length_codeOf, hcode]; rfl, hcode⟩

/-- No code of the code list begins another (42_tree_builder.md R149). -/
theorem codeList_prefixFree {freq : Vector Word 256} (h : 2 ≤ nsym freq) {e e' : Byte × Bits} (he : e ∈ codeList freq)
    (he' : e' ∈ codeList freq) (hne : e ≠ e') : ¬e.2 <+: e'.2 := by
  rw [codeList_eq h] at he he'
  have hsymm : Std.Symm fun e e' : Byte × Bits => ¬e.2 <+: e'.2 ∧ ¬e'.2 <+: e.2 := ⟨fun _ _ => And.symm⟩
  exact ((builtTree freq).codes_prefix.forall he he' hne).1

/-- A table with two distinct present symbols has NSYM at least 2 (10_state.md R32). -/
theorem two_le_nsym {freq : Vector Word 256} {b c : Byte} (hb : tableAt freq b ≠ 0) (hc : tableAt freq c ≠ 0)
    (hne : b ≠ c) : 2 ≤ nsym freq := by
  have hpair : [b, c] ⊆ presentSymbols freq :=
    List.cons_subset.2 ⟨mem_presentSymbols.2 hb, List.cons_subset.2 ⟨mem_presentSymbols.2 hc, List.nil_subset _⟩⟩
  exact (List.subperm_of_subset (by simpa using hne) hpair).length_le

/-- Settles O32: the code list is the list of codes of a tree, so none begins another and their Kraft sum is 1. -/
theorem codesArePrefixFree : Obligations.CodesArePrefixFree := by
  unfold Obligations.CodesArePrefixFree
  intro s t hexec hok
  obtain ⟨hn, ht⟩ := exec_build_ok hexec hok
  refine ⟨fun b c hb hc hne => ?_, fun h2 => ?_⟩
  · exact codeList_prefixFree (two_le_nsym hb hc hne) (codeOf_mem_codeList hn ht hb) (codeOf_mem_codeList hn ht hc)
      fun h => hne (congrArg Prod.fst h)
  · have hkraft := (builtTree s.freq).kraft 255
      (by rw [← codeList_eq h2]; exact fun e he => (codeList_bound hn e he).2.2)
    rw [← codeList_eq h2, ((codeList_perm hn ht).map _).sum_eq, List.map_map] at hkraft
    simpa only [Function.comp_def, length_codeOf] using hkraft

end Sys2Proof.Machine
end

section
/-! PROOFS. The codes BUILD makes are optimal (42_tree_builder.md R150). A rival code, in which no codeword begins
another, is met only through its lengths, which satisfy Kraft's inequality. Huffman's exchange argument then follows the
loop of BUILD: lengths for the trees of Q can be made equal on the two trees SELECT takes, at no cost, so that they give
lengths for the trees after the merge. -/

namespace Sys2Proof.Machine

/-! ## Kraft's inequality -/

/-- The lengths ℓ satisfy Kraft's inequality over s. -/
def KraftLe {ι : Type} (s : Finset ι) (ℓ : ι → Nat) : Prop := ∑ i ∈ s, (1 / 2 : ℝ) ^ ℓ i ≤ 1

/-- Strings of which none begins another can be told apart in a concatenation. -/
theorem uniquelyDecodable_of_prefixFree {S : Set Bits} (hnil : [] ∉ S) (hS : ∀ u ∈ S, ∀ v ∈ S, u <+: v → u = v) :
    InformationTheory.UniquelyDecodable S := by
  intro us
  induction us with
  | nil =>
    rintro (_ | ⟨v, vs⟩) - hvs h
    · rfl
    · have hv : v = [] := (List.append_eq_nil_iff.1 h.symm).1
      exact absurd (hv ▸ hvs v List.mem_cons_self) hnil
  | cons u us ih =>
    rintro (_ | ⟨v, vs⟩) hus hvs h
    · have hu : u = [] := (List.append_eq_nil_iff.1 h).1
      exact absurd (hu ▸ hus u List.mem_cons_self) hnil
    · obtain ⟨hu, hus⟩ := List.forall_mem_cons.1 hus
      obtain ⟨hv, hvs'⟩ := List.forall_mem_cons.1 hvs
      rw [List.flatten_cons, List.flatten_cons] at h
      have huv : u = v := by
        rcases List.prefix_or_prefix_of_prefix (List.prefix_append u _) (h ▸ List.prefix_append v _) with hp | hp
        · exact hS u hu v hv hp
        · exact (hS v hv u hu hp).symm
      subst huv
      rw [ih vs hus hvs' (List.append_cancel_left h)]

/-- The lengths of a code for two or more symbols satisfy Kraft's inequality if no codeword begins another. -/
theorem kraftLe_of_prefixFree {s : Finset Byte} (hs : 1 < s.card) {code : Byte → Bits}
    (hcode : ∀ b ∈ s, ∀ c ∈ s, b ≠ c → ¬code b <+: code c) : KraftLe s fun b => (code b).length := by
  have hinj : ∀ b ∈ s, ∀ c ∈ s, code b <+: code c → b = c := fun b hb c hc hp =>
    not_not.1 fun hne => hcode b hb c hc hne hp
  have hdec : InformationTheory.UniquelyDecodable (s.image code : Set Bits) := by
    refine uniquelyDecodable_of_prefixFree (fun hnil => ?_) fun u hu v hv hp => ?_
    · obtain ⟨b, hb, hnil⟩ := Finset.mem_image.1 hnil
      obtain ⟨c, hc, hne⟩ := Finset.exists_mem_ne hs b
      exact hcode b hb c hc hne.symm (hnil ▸ List.nil_prefix)
    · obtain ⟨b, hb, rfl⟩ := Finset.mem_image.1 hu
      obtain ⟨c, hc, rfl⟩ := Finset.mem_image.1 hv
      rw [hinj b hb c hc hp]
  have hkraft := InformationTheory.kraft_mcmillan_inequality hdec
  rw [Finset.sum_image fun b hb c hc (h : code b = code c) => hinj b hb c hc (by rw [h])] at hkraft
  simpa [KraftLe] using hkraft

/-- Terms 2^-ℓ with ℓ at most d are multiples of 2^-d, so a sum of them below 1 leaves room for one more 2^-d. -/
theorem half_pow_add_sum_le_one {ι : Type} {s : Finset ι} {ℓ : ι → Nat} {d : Nat} (hd : ∀ i ∈ s, ℓ i ≤ d)
    (hlt : ∑ i ∈ s, (1 / 2 : ℝ) ^ ℓ i < 1) : (1 / 2 : ℝ) ^ d + ∑ i ∈ s, (1 / 2 : ℝ) ^ ℓ i ≤ 1 := by
  have hpow : (0 : ℝ) < 2 ^ d := by positivity
  have hsum : ∑ i ∈ s, (1 / 2 : ℝ) ^ ℓ i = (∑ i ∈ s, 2 ^ (d - ℓ i) : Nat) / 2 ^ d := by
    rw [Nat.cast_sum, Finset.sum_div]
    refine Finset.sum_congr rfl fun i hi => ?_
    rw [Nat.cast_pow, Nat.cast_ofNat, pow_sub₀ _ two_ne_zero (hd i hi), mul_div_cancel_left₀ _ hpow.ne', one_div,
      inv_pow]
  rw [hsum, div_lt_one hpow] at hlt
  rw [hsum, one_div_pow, ← add_div, div_le_one hpow, add_comm]
  exact_mod_cast hlt

/-! ## The exchange argument -/

section
variable {ι : Type} [DecidableEq ι] {s : Finset ι} {w ℓ : ι → Nat} {a c x : ι}

/-- Exchanging two lengths keeps Kraft's inequality. -/
theorem KraftLe.swap (h : KraftLe s ℓ) (ha : a ∈ s) (hx : x ∈ s) : KraftLe s (ℓ ∘ Equiv.swap a x) := by
  have hmoved : {i | Equiv.swap a x i ≠ i} ⊆ (s : Set ι) := fun i hi => by
    rcases (Equiv.swap_apply_ne_self_iff.1 hi).2 with rfl | rfl <;> assumption
  exact (Equiv.Perm.sum_comp _ s (fun i => (1 / 2 : ℝ) ^ ℓ i) hmoved).trans_le h

/-- Giving the longer of two lengths to the lighter index does not raise the weighted length. -/
theorem sum_mul_swap_le (ha : a ∈ s) (hx : x ∈ s) (hw : w a ≤ w x) (hℓ : ℓ a ≤ ℓ x) :
    ∑ i ∈ s, w i * (ℓ ∘ Equiv.swap a x) i ≤ ∑ i ∈ s, w i * ℓ i := by
  by_cases hax : x = a
  · simp [hax]
  have hx' : x ∈ s.erase a := Finset.mem_erase.2 ⟨hax, hx⟩
  have hrest : ∑ i ∈ (s.erase a).erase x, w i * (ℓ ∘ Equiv.swap a x) i = ∑ i ∈ (s.erase a).erase x, w i * ℓ i := by
    refine Finset.sum_congr rfl fun i hi => ?_
    simp only [Finset.mem_erase] at hi
    rw [Function.comp, Equiv.swap_apply_of_ne_of_ne hi.2.1 hi.1]
  have hpair := mul_add_mul_le_mul_add_mul hw hℓ
  rw [← Finset.add_sum_erase s _ ha, ← Finset.add_sum_erase s _ ha, ← Finset.add_sum_erase _ _ hx',
    ← Finset.add_sum_erase _ _ hx', hrest]
  simp only [Function.comp, Equiv.swap_apply_left, Equiv.swap_apply_right]
  omega

/-- A longest length can be cut to the longest of the others. -/
theorem KraftLe.update (h : KraftLe s ℓ) (ha : a ∈ s) {d : Nat} (hd : ∀ i ∈ s.erase a, ℓ i ≤ d) :
    KraftLe s (Function.update ℓ a d) := by
  have hlt : ∑ i ∈ s.erase a, (1 / 2 : ℝ) ^ ℓ i < 1 := by
    have hpos : (0 : ℝ) < (1 / 2) ^ ℓ a := by positivity
    have hsum := (Finset.add_sum_erase s _ ha).trans_le h
    linarith
  have hrest : ∑ i ∈ s.erase a, (1 / 2 : ℝ) ^ Function.update ℓ a d i = ∑ i ∈ s.erase a, (1 / 2 : ℝ) ^ ℓ i :=
    Finset.sum_congr rfl fun i hi => by rw [Function.update_of_ne (Finset.ne_of_mem_erase hi)]
  rw [KraftLe, ← Finset.add_sum_erase s _ ha, hrest, Function.update_self]
  exact half_pow_add_sum_le_one hd hlt

/-- A longest length can be given to the lightest index. -/
theorem KraftLe.exists_longest (h : KraftLe s ℓ) (ha : a ∈ s) (hw : ∀ i ∈ s, w a ≤ w i) :
    ∃ ℓ', KraftLe s ℓ' ∧ (∀ i ∈ s, ℓ' i ≤ ℓ' a) ∧ ∑ i ∈ s, w i * ℓ' i ≤ ∑ i ∈ s, w i * ℓ i := by
  obtain ⟨x, hx, hmax⟩ := s.exists_max_image ℓ ⟨a, ha⟩
  refine ⟨_, h.swap ha hx, fun i hi => ?_, sum_mul_swap_le ha hx (hw x hx) (hmax a ha)⟩
  have hmem : Equiv.swap a x i ∈ s := by
    rw [Equiv.swap_apply_def]
    split_ifs <;> assumption
  simpa using hmax _ hmem

/-- Beside a second index, an index cannot have length 0. -/
theorem KraftLe.length_pos (h : KraftLe s ℓ) (ha : a ∈ s) (hc : c ∈ s.erase a) : ℓ a ≠ 0 := by
  intro hzero
  have hrest : (1 / 2 : ℝ) ^ ℓ c ≤ ∑ i ∈ s.erase a, (1 / 2 : ℝ) ^ ℓ i :=
    Finset.single_le_sum (f := fun i => (1 / 2 : ℝ) ^ ℓ i) (fun i _ => by positivity) hc
  have hpos : (0 : ℝ) < (1 / 2) ^ ℓ c := by positivity
  have hsum := (Finset.add_sum_erase s _ ha).trans_le h
  rw [hzero, pow_zero] at hsum
  linarith

/-- Lengths can be made equal and positive on the two lightest indices, keeping Kraft's inequality and not raising the
weighted length. -/
theorem KraftLe.exists_siblings (h : KraftLe s ℓ) (ha : a ∈ s) (hc : c ∈ s.erase a) (hwa : ∀ i ∈ s, w a ≤ w i)
    (hwc : ∀ i ∈ s.erase a, w c ≤ w i) :
    ∃ ℓ' d, KraftLe s ℓ' ∧ ℓ' a = d + 1 ∧ ℓ' c = d + 1 ∧ ∑ i ∈ s, w i * ℓ' i ≤ ∑ i ∈ s, w i * ℓ i := by
  obtain ⟨ℓ₁, h₁, htop, hcost₁⟩ := h.exists_longest ha hwa
  obtain ⟨y, hy, hmax⟩ := (s.erase a).exists_max_image ℓ₁ ⟨c, hc⟩
  obtain ⟨hca, hcs⟩ := Finset.mem_erase.1 hc
  obtain ⟨hya, hys⟩ := Finset.mem_erase.1 hy
  have hcost₂ : ∑ i ∈ s, w i * Function.update ℓ₁ a (ℓ₁ y) i ≤ ∑ i ∈ s, w i * ℓ₁ i :=
    Finset.sum_le_sum fun i _ => Nat.mul_le_mul_left _
      (update_le_iff.2 ⟨htop y hys, fun _ _ => le_rfl⟩ i)
  have h₃ := (h₁.update ha hmax).swap hcs hys
  have hcost₃ : ∑ i ∈ s, w i * (Function.update ℓ₁ a (ℓ₁ y) ∘ Equiv.swap c y) i
      ≤ ∑ i ∈ s, w i * Function.update ℓ₁ a (ℓ₁ y) i :=
    sum_mul_swap_le hcs hys (hwc y hy) (by simpa [hca, hya] using hmax c hc)
  have hℓa : (Function.update ℓ₁ a (ℓ₁ y) ∘ Equiv.swap c y) a = ℓ₁ y := by
    simp [Equiv.swap_apply_of_ne_of_ne hca.symm hya.symm]
  have hℓc : (Function.update ℓ₁ a (ℓ₁ y) ∘ Equiv.swap c y) c = ℓ₁ y := by simp [hya]
  obtain ⟨d, hd⟩ := Nat.exists_eq_succ_of_ne_zero (hℓa ▸ h₃.length_pos ha hc)
  exact ⟨_, d, h₃, hℓa.trans hd, hℓc.trans hd, hcost₃.trans (hcost₂.trans hcost₁)⟩

/-- Equal lengths of two indices give a length for the index that replaces both. -/
theorem KraftLe.merge (h : KraftLe s ℓ) (ha : a ∈ s) (hc : c ∈ s.erase a) {n : ι} (hn : n ∉ s) {d : Nat}
    (hda : ℓ a = d + 1) (hdc : ℓ c = d + 1) :
    KraftLe (insert n ((s.erase a).erase c)) (Function.update ℓ n d) := by
  have hn' : n ∉ (s.erase a).erase c := by simp [hn]
  have hrest : ∑ i ∈ (s.erase a).erase c, (1 / 2 : ℝ) ^ Function.update ℓ n d i
      = ∑ i ∈ (s.erase a).erase c, (1 / 2 : ℝ) ^ ℓ i :=
    Finset.sum_congr rfl fun i hi => by rw [Function.update_of_ne (ne_of_mem_of_not_mem hi hn')]
  rw [KraftLe, ← Finset.add_sum_erase s _ ha, ← Finset.add_sum_erase _ _ hc, hda, hdc, pow_succ] at h
  rw [KraftLe, Finset.sum_insert hn', hrest, Function.update_self]
  linarith

end

/-! ## The weighted length of a tree -/

/-- The sum of the weights of the internal nodes of a tree. -/
def CodeTree.cost : CodeTree → Nat
  | .leaf _ _ => 0
  | .node l r => l.cost + r.cost + (l.weight + r.weight)

/-- The weight of a tree is the weight of the symbols of its codes. -/
theorem CodeTree.weight_eq_sum (f : Byte → Nat) (t : CodeTree) (h : ∀ e ∈ t.leaves, e.2 = f e.1) :
    t.weight = (t.codes.map fun e => f e.1).sum := by
  induction t with
  | leaf b w => simpa [leaves, weight, codes] using h
  | node l r hl hr =>
    obtain ⟨h₁, h₂⟩ := List.forall_mem_append.1 h
    simp [weight, codes, hl h₁, hr h₂, Function.comp_def]

/-- The cost of a tree is the weighted length of its codes. -/
theorem CodeTree.cost_eq_sum (f : Byte → Nat) (t : CodeTree) (h : ∀ e ∈ t.leaves, e.2 = f e.1) :
    t.cost = (t.codes.map fun e => f e.1 * e.2.length).sum := by
  induction t with
  | leaf b w => simp [cost, codes]
  | node l r hl hr =>
    obtain ⟨h₁, h₂⟩ := List.forall_mem_append.1 h
    simp only [cost, codes, hl h₁, hr h₂, weight_eq_sum f l h₁, weight_eq_sum f r h₂, List.map_append, List.map_map,
      List.sum_append, Function.comp_def, List.length_cons, Nat.mul_add_one, List.sum_map_add]
    omega

/-- The cost of the trees at the indices s, joined so that the root of tree i comes to depth ℓ i. -/
def forestCost (arena : List Node) (s : Finset Nat) (ℓ : Nat → Nat) : Nat :=
  ∑ i ∈ s, ((treeOf arena i).cost + (treeOf arena i).weight * ℓ i)

theorem forestCost_zero_le (arena : List Node) (s : Finset Nat) (ℓ : Nat → Nat) :
    forestCost arena s 0 ≤ forestCost arena s ℓ :=
  Finset.sum_le_sum fun _ _ => Nat.add_le_add_left (Nat.mul_le_mul_left _ (Nat.zero_le _)) _

/-! ## The loop of BUILD -/

/-- The index SELECT gives has the least weight (42_tree_builder.md R142). -/
theorem select_weight_le (arena : List Node) {q : List Nat} {j : Nat} (hj : j ∈ q) :
    (recordIn arena (select arena q)).weight.toNat ≤ (recordIn arena j).weight.toNat := by
  by_cases hne : j = select arena q
  · rw [← hne]
  · rcases (select_spec arena (List.ne_nil_of_mem hj)).2 j hj hne with hlt | ⟨heq, -⟩
    · exact hlt.le
    · exact heq.le

/-- Q after one round of the loop, as a set (42_tree_builder.md R140). -/
theorem toFinset_nextQ {q : List Nat} (hq : q.Nodup) (a c n : Nat) :
    ((q.erase a).erase c ++ [n]).toFinset = insert n ((q.toFinset.erase a).erase c) := by
  ext i
  simp only [List.mem_toFinset, List.mem_append, List.mem_singleton, Finset.mem_insert, Finset.mem_erase,
    (hq.erase a).mem_erase_iff, hq.mem_erase_iff]
  exact or_comm

/-- Joining two trees at depth d + 1 to one at depth d keeps the cost (42_tree_builder.md R143). -/
theorem forestCost_merge {arena arena' : List Node} {s : Finset Nat} {ℓ : Nat → Nat} {a c n d : Nat} (ha : a ∈ s)
    (hc : c ∈ s.erase a) (hn : ∀ i ∈ s, i < n) (hnew : treeOf arena' n = .node (treeOf arena a) (treeOf arena c))
    (hold : ∀ i, i < n → treeOf arena' i = treeOf arena i) (hda : ℓ a = d + 1) (hdc : ℓ c = d + 1) :
    forestCost arena' (insert n ((s.erase a).erase c)) (Function.update ℓ n d) = forestCost arena s ℓ := by
  have hlt : ∀ i ∈ (s.erase a).erase c, i < n := fun i hi =>
    hn i (Finset.mem_of_mem_erase (Finset.mem_of_mem_erase hi))
  have hrest : ∀ i ∈ (s.erase a).erase c,
      (treeOf arena' i).cost + (treeOf arena' i).weight * Function.update ℓ n d i
        = (treeOf arena i).cost + (treeOf arena i).weight * ℓ i := fun i hi => by
    rw [hold i (hlt i hi), Function.update_of_ne (hlt i hi).ne]
  rw [forestCost, Finset.sum_insert fun hi => (hlt n hi).false, Finset.sum_congr rfl hrest, hnew, Function.update_self,
    forestCost, ← Finset.add_sum_erase s _ ha, ← Finset.add_sum_erase _ _ hc, hda, hdc, CodeTree.cost, CodeTree.weight]
  ring

section
variable {freq : Vector Word 256} {arena : List Node} {q : List Nat} {ℓ : Nat → Nat} (h : ForestInv freq arena q)
include h

/-- Of some trees of Q, SELECT takes one of the least weight (42_tree_builder.md R142). -/
theorem ForestInv.weight_select_le {p : List Nat} (hp : p ⊆ q) {i : Nat} (hi : i ∈ p) :
    (treeOf arena (select arena p)).weight ≤ (treeOf arena i).weight := by
  have hlt : ∀ j ∈ p, j < arena.length := fun j hj => ((h.m.live j).1 (hp hj)).1
  rw [h.weight _ (hlt _ (select_spec arena (List.ne_nil_of_mem hi)).1), h.weight _ (hlt _ hi)]
  exact select_weight_le arena hi

/-- Lengths for the trees of Q give lengths for the trees after one merge, at no higher cost. -/
theorem forestCost_step (h2 : 2 ≤ q.length) {a c : Nat} (hA : select arena q = a) (hC : select arena (q.erase a) = c)
    (hk : KraftLe q.toFinset ℓ) :
    ∃ ℓ', KraftLe ((q.erase a).erase c ++ [arena.length]).toFinset ℓ'
      ∧ forestCost (arena ++ [mergeNode arena a c]) ((q.erase a).erase c ++ [arena.length]).toFinset ℓ'
        ≤ forestCost arena q.toFinset ℓ := by
  have hnodup : q.Nodup := h.m.asc.imp Nat.ne_of_lt
  have haq : a ∈ q := hA ▸ (select_spec arena (List.ne_nil_of_length_pos (by omega))).1
  have hlen : (q.erase a).length = q.length - 1 := List.length_erase_of_mem haq
  have hcq : c ∈ q.erase a := hC ▸ (select_spec arena (List.ne_nil_of_length_pos (by omega))).1
  have herase : ∀ {i}, i ∈ q.toFinset.erase a ↔ i ∈ q.erase a := by simp [hnodup.mem_erase_iff]
  have ha : a ∈ q.toFinset := List.mem_toFinset.2 haq
  have hc : c ∈ q.toFinset.erase a := herase.2 hcq
  have hlt : ∀ i ∈ q.toFinset, i < arena.length := fun i hi => ((h.m.live i).1 (List.mem_toFinset.1 hi)).1
  obtain ⟨ℓ₁, d, hk₁, hda, hdc, hle⟩ := hk.exists_siblings (w := fun i => (treeOf arena i).weight) ha hc
    (fun i hi => hA ▸ h.weight_select_le (List.Subset.refl q) (List.mem_toFinset.1 hi))
    (fun i hi => hC ▸ h.weight_select_le List.erase_subset (herase.1 hi))
  obtain ⟨-, hnew, hold⟩ := forestInv_step h h2 hA hC
  rw [toFinset_nextQ hnodup]
  refine ⟨_, hk₁.merge ha hc (fun hi => (hlt _ hi).false) hda hdc, ?_⟩
  rw [forestCost_merge ha hc hlt hnew hold hda hdc, forestCost, forestCost, Finset.sum_add_distrib,
    Finset.sum_add_distrib]
  exact Nat.add_le_add_left hle _

/-- Lengths for the trees of Q cost at least as much as the trees the loop ends with. -/
theorem forestCost_loop_le (k : Nat) (hk : KraftLe q.toFinset ℓ) :
    forestCost (mergeLoop k arena q).1 (mergeLoop k arena q).2.toFinset 0 ≤ forestCost arena q.toFinset ℓ := by
  induction k generalizing arena q ℓ with
  | zero => exact forestCost_zero_le arena q.toFinset ℓ
  | succ k ih =>
    rw [mergeLoop]
    split_ifs with h2
    · obtain ⟨ℓ', hk', hle⟩ := forestCost_step h h2 rfl rfl hk
      exact (ih (forestInv_step h h2 rfl rfl).1 hk').trans hle
    · exact forestCost_zero_le arena q.toFinset ℓ

end

/-! ## The codes of BUILD -/

/-- The tree of a seeded leaf (42_tree_builder.md R141). -/
theorem treeOf_seed {freq : Vector Word 256} {i : Nat} (hi : i < nsym freq) :
    treeOf (seed freq) i = .leaf ((presentSymbols freq).getD i 0)
      (tableAt freq ((presentSymbols freq).getD i 0)).toNat := by
  have hlt := (tableAt freq ((presentSymbols freq)[i]'hi)).isLt
  rw [treeOf, treeAt, recordIn_seed hi, List.getD_eq_getElem (presentSymbols freq) 0 hi]
  simp only [leafNode, if_true, BitVec.toNat_setWidth]
  rw [Nat.mod_eq_of_lt (by omega)]

/-- A sum over the indices of the seed is one over the present symbols (42_tree_builder.md R141). -/
theorem sum_range_presentSymbols {M : Type} [AddCommMonoid M] (freq : Vector Word 256) (g : Byte → M) :
    ∑ i ∈ Finset.range (nsym freq), g ((presentSymbols freq).getD i 0) = ((presentSymbols freq).map g).sum := by
  rw [Finset.sum_range, nsym, ← Fin.sum_univ_fun_getElem]
  exact Finset.sum_congr rfl fun i _ => by rw [List.getD_eq_getElem _ _ i.isLt]

/-- The tree of BUILD costs no more than any lengths of the present symbols (42_tree_builder.md R150). -/
theorem builtTree_cost_le {freq : Vector Word 256} (hn : nsym freq ≠ 0) {len : Byte → Nat}
    (hk : KraftLe (presentSymbols freq).toFinset len) :
    (builtTree freq).cost ≤ ((presentSymbols freq).map fun b => (tableAt freq b).toNat * len b).sum := by
  have hk' : KraftLe (List.range (nsym freq)).toFinset fun i => len ((presentSymbols freq).getD i 0) := by
    rw [KraftLe, List.toFinset_range, sum_range_presentSymbols freq fun b => (1 / 2 : ℝ) ^ len b,
      ← List.sum_toFinset _ (presentSymbols_nodup freq)]
    exact hk
  have hseed : forestCost (seed freq) (List.range (nsym freq)).toFinset
      (fun i => len ((presentSymbols freq).getD i 0))
      = ((presentSymbols freq).map fun b => (tableAt freq b).toNat * len b).sum := by
    rw [forestCost, List.toFinset_range, ← sum_range_presentSymbols]
    refine Finset.sum_congr rfl fun i hi => ?_
    rw [treeOf_seed (Finset.mem_range.1 hi), CodeTree.cost, CodeTree.weight, Nat.zero_add]
  have hroot : forestCost (builtArena freq).1 (builtArena freq).2.toFinset 0 = (builtTree freq).cost := by
    simp [(built_root hn).2, forestCost, builtTree]
  rw [← hseed, ← hroot]
  exact forestCost_loop_le (forestInv_init hn) _ hk'

/-- The cost of BUILD's tree is the weighted length of the codes (42_tree_builder.md R150). -/
theorem builtTree_cost_eq {freq : Vector Word 256} (h2 : 2 ≤ nsym freq) :
    (builtTree freq).cost = ((codeList freq).map fun e => (tableAt freq e.1).toNat * e.2.length).sum := by
  rw [codeList_eq h2]
  refine CodeTree.cost_eq_sum (fun b => (tableAt freq b).toNat) _ fun e he => ?_
  obtain ⟨b, -, rfl⟩ := List.mem_map.1 ((builtTree_leaves (by omega)).subset he)
  rfl

/-- Settles O33: the rival code's lengths satisfy Kraft's inequality, and the loop of BUILD ends in a tree that costs
no more than such lengths. -/
theorem codesAreOptimal : Obligations.CodesAreOptimal := by
  unfold Obligations.CodesAreOptimal
  intro s t hexec hok h2 code hcode
  obtain ⟨hn, ht⟩ := exec_build_ok hexec hok
  have hkraft : KraftLe (presentSymbols s.freq).toFinset fun b => (code b).length := by
    refine kraftLe_of_prefixFree ?_ fun b hb c hc => ?_
    · rwa [List.toFinset_card_of_nodup (presentSymbols_nodup s.freq)]
    · rw [List.mem_toFinset, mem_presentSymbols] at hb hc
      exact hcode b c hb hc
  have hcost := builtTree_cost_le hn hkraft
  rw [builtTree_cost_eq h2, ((codeList_perm hn ht).map _).sum_eq, List.map_map] at hcost
  simpa only [Function.comp_def, length_codeOf] using hcost

end Sys2Proof.Machine
end

section
/-! PROOFS. The Bit Packer (43_bit_packer.md): PACK's payload is its code bits and a pad that trimming removes, its
errors, and UNPACK's indifference to the values of the pad bits. -/

namespace Sys2Proof.Machine

/-! ## The payload of a packed state -/

/-- PACK's bytes hold all the code bits (43_bit_packer.md R170). -/
theorem le_eight_mul_bytesFor (total : Nat) : total ≤ 8 * bytesFor total := by
  unfold bytesFor
  omega

/-- PACK's last byte is needed (43_bit_packer.md R170, R175). -/
theorem eight_mul_bytesFor_sub_le (total : Nat) : 8 * bytesFor total - total ≤ 7 := by
  unfold bytesFor
  omega

/-- Packing no bytes is what PACK does with an empty input (43_bit_packer.md R170). -/
theorem packed_nil (s : State) : packed s [] = { s with payLen := 0, pad := 0 } := by
  simp [packed, totalBits, bytesFor, packBits, Memory.writeBytes]

theorem packed_pad_toNat (s : State) (bs : List Byte) :
    (packed s bs).pad.toNat = 8 * bytesFor (totalBits s.codeLen bs) - totalBits s.codeLen bs := by
  have := eight_mul_bytesFor_sub_le (totalBits s.codeLen bs)
  rw [packed_pad, BitVec.toNat_ofNat, Nat.mod_eq_of_lt (by omega)]

theorem packBits_length (p : Bits) (n : Nat) : (packBits p n).length = n := by simp [packBits]

/-- Bit 7 - (i mod 8) of packed byte i div 8 is symbol i of the bit string, then zeros (43_bit_packer.md R171). -/
theorem Holds.packBits_bit {m : Memory} {p : Bits} {n i : Nat} (h : Holds m (packBits p n)) (hi : i < 8 * n) :
    (m.read (i / 8)).map (fun v => v.getLsbD (7 - i % 8)) = some (p.getD i false) := by
  have hbyte : i / 8 < (packBits p n).length := by rw [packBits_length]; omega
  have hget : (packBits p n)[i / 8] = byteOfBits p (i / 8) := by simp [packBits]
  rw [h _ hbyte, hget, Option.map_some, byteOfBits_getLsbD p _ (Nat.mod_lt i (by decide)), Nat.div_add_mod]

section
variable {s : State} {bs : List Byte} (hfit : bytesFor (totalBits s.codeLen bs) ≤ s.params.payCap.val)
include hfit

/-- PAY_LEN has room for a payload that fits (10_state.md R29, 00_scope.md R7). -/
theorem bytesFor_lt_of_fits : bytesFor (totalBits s.codeLen bs) < 2 ^ 32 := by
  have := s.params.payCap.le
  omega

theorem packed_payLen_toNat : (packed s bs).payLen.toNat = bytesFor (totalBits s.codeLen bs) := by
  rw [packed_payLen, BitVec.toNat_ofNat, Nat.mod_eq_of_lt (bytesFor_lt_of_fits hfit)]

/-- Expanding and trimming the payload PACK wrote gives back the code bits (43_bit_packer.md R175). -/
theorem unpaddedBits_packed :
    unpaddedBits (payloadBytes (packed s bs)) (packed s bs).pad.toNat = codeBitsOf s bs := by
  have hlen : (codeBitsOf s bs).length = totalBits s.codeLen bs := codeBits_length s bs
  rw [payloadBytes_packed _ _ (bytesFor_lt_of_fits hfit) _ (packed_payMem s bs) (packed_payLen s bs),
    packed_pad_toNat, ← hlen]
  exact unpaddedBits_packBits _ _ (le_eight_mul_bytesFor _)

end

/-! ## The command -/

section
variable {s : State}

/-- PACK of too long an input (43_bit_packer.md R170). -/
theorem cmdPack_of_gt (h : s.params.inCap.val < s.inLen.toNat) : cmdPack s = raise .capacity s.inLen.toNat s :=
  if_pos h

/-- PACK of an empty input (43_bit_packer.md R170). -/
theorem cmdPack_of_empty (h : s.inLen = 0) : cmdPack s = .ok { s with payLen := 0, pad := 0 } := by
  rw [cmdPack, if_neg (by simp [h]), if_pos h]

section
variable (hle : s.inLen.toNat ≤ s.params.inCap.val) (hne : s.inLen ≠ 0)
include hle hne

/-- PACK of an input that is not empty, without a tree (43_bit_packer.md R170). -/
theorem cmdPack_of_noTree (h : s.treeValid = false) : cmdPack s = raise .noTree 0 s := by
  rw [cmdPack, if_neg (Nat.not_lt.2 hle), if_neg hne, if_pos h]

variable (htree : s.treeValid = true)
include htree

/-- PACK of an input whose first uncoded byte is at j (43_bit_packer.md R170). -/
theorem cmdPack_of_uncoded {j : Nat} (h : firstUncoded s.codeLen (inputBytes s) = some j) :
    cmdPack s = raise .uncodedSymbol j (afterInput s) := by
  rw [cmdPack_checked hle hne htree, packChecked, afterInput_codeLen, h]

variable (hcoded : ∀ b ∈ inputBytes s, codeLenAt s.codeLen b ≠ 0)
include hcoded

/-- PACK of a coded input compares the size of the payload with PAY_CAP last (43_bit_packer.md R170). -/
theorem cmdPack_of_coded :
    cmdPack s =
      if bytesFor (totalBits s.codeLen (inputBytes s)) > s.params.payCap.val then
        raise .capacity (bytesFor (totalBits s.codeLen (inputBytes s))) (afterInput s)
      else .ok (packed (afterInput s) (inputBytes s)) := by
  rw [cmdPack_checked hle hne htree, packChecked, afterInput_codeLen, (firstUncoded_none _ _).2 hcoded]
  rfl

/-- PACK of a coded input whose payload fits (43_bit_packer.md R170). -/
theorem exec_pack_of_fits (hfit : bytesFor (totalBits s.codeLen (inputBytes s)) ≤ s.params.payCap.val) :
    exec .pack s = .next (complete (.ok (packed (afterInput s) (inputBytes s)))) := by
  rw [exec_eq_ruleOf, ruleOf, cmdPack_of_coded hle hne htree hcoded, if_neg (Nat.not_lt.2 hfit)]

end

/-- The payload of an input that fits in IN_MEM has a size that ERR_INFO can hold (00_scope.md R7, 10_state.md R36). -/
theorem bytesFor_input_lt (hle : s.inLen.toNat ≤ s.params.inCap.val) :
    bytesFor (totalBits s.codeLen (inputBytes s)) < 2 ^ 32 := by
  have hbits := totalBits_le s.codeLen (inputBytes s)
  have hcap := s.params.inCap.le
  rw [inputBytes_length] at hbits
  unfold bytesFor
  omega

/-- PACK without an error packed its input; for an empty one that is no bits in no bytes (43_bit_packer.md R170). -/
theorem exec_pack_ok {t : State} (h : exec .pack s = .next t) (hok : t.status.err = false) :
    t = complete (.ok (packed (afterInput s) (inputBytes s)))
      ∧ bytesFor (totalBits s.codeLen (inputBytes s)) ≤ s.params.payCap.val := by
  rw [exec_eq_ruleOf] at h
  obtain rfl := next_inj h
  obtain ⟨u, hu⟩ := complete_err_false hok
  rw [hu]
  obtain ⟨hempty, rfl⟩ | ⟨-, -, -, -, hfit, rfl⟩ := cmdPack_ok hu
  · have hbs : inputBytes s = [] := List.eq_nil_of_length_eq_zero (by simp [inputBytes_length, hempty])
    have hwritten : InputWritten s := by simp [InputWritten, hempty, Memory.written]
    rw [hbs, afterInput_written hwritten, packed_nil]
    exact ⟨rfl, by simp [totalBits, bytesFor]⟩
  · exact ⟨rfl, hfit⟩

end

/-! ## PACK's obligations -/

/-- Settles O34: the bytes written are the packed code bits, read bit by bit. -/
theorem packWritesTheCodeBits : Obligations.PackWritesTheCodeBits := by
  unfold Obligations.PackWritesTheCodeBits
  intro s hle hne htree hcoded hfit
  have hlen : (packed (afterInput s) (inputBytes s)).payLen.toNat = bytesFor (totalBits s.codeLen (inputBytes s)) :=
    packed_payLen_toNat hfit
  obtain ⟨hholds, hsame⟩ := holds_writeBytes s.payMem
    (packBits (codeBitsOf s (inputBytes s)) (bytesFor (totalBits s.codeLen (inputBytes s))))
  rw [packBits_length] at hsame
  refine ⟨_, exec_pack_of_fits hle hne htree hcoded hfit, succeeded_complete_ok rfl, ?_⟩
  rw [complete_ok_payLen, complete_ok_pad, complete_ok_payMem, hlen]
  exact ⟨rfl, packed_pad_toNat _ _, fun i hi => hholds.packBits_bit hi, hsame, rfl⟩

/-- Settles O35: each premise selects one branch of the rule, and the branches that raise do so on the state as it is. -/
theorem packErrorsAndEmptyInput : Obligations.PackErrorsAndEmptyInput := by
  unfold Obligations.PackErrorsAndEmptyInput
  intro s
  have hexec := exec_eq_ruleOf .pack s
  refine ⟨fun hlong => failsCleanly_of_raise hexec (cmdPack_of_gt hlong) s.inLen.isLt rfl, fun hempty => ?_,
    fun hle hne => ⟨fun hnone => failsCleanly_of_raise hexec (cmdPack_of_noTree hle hne hnone) (by decide) rfl,
      fun htree => ⟨fun j hj huncoded hbefore => ?_, fun hcoded hbig => ?_⟩⟩⟩
  · rw [hexec, ruleOf, cmdPack_of_empty hempty]
    exact ⟨_, rfl, succeeded_complete_ok rfl, rfl, rfl, rfl⟩
  · have hfirst := firstUncoded_some s.codeLen (inputBytes s) j hj huncoded hbefore
    have hlt := inputBytes_length_lt s
    exact failsCleanly_of_raise hexec (cmdPack_of_uncoded hle hne htree hfirst) (by omega) rfl
  · exact failsCleanly_of_raise hexec ((cmdPack_of_coded hle hne htree hcoded).trans (if_pos hbig))
      (bytesFor_input_lt hle) rfl

/-- Settles O36: what PACK left, with an empty input or not, is its packed input, whose pad trimming removes. -/
theorem packPaddingIsBoundedAndExact : Obligations.PackPaddingIsBoundedAndExact := by
  unfold Obligations.PackPaddingIsBoundedAndExact
  intro s t hexec hok
  obtain ⟨rfl, hfit⟩ := exec_pack_ok hexec hok
  have hpad := packed_pad_toNat (afterInput s) (inputBytes s)
  refine ⟨?_, ?_, unpaddedBits_packed (s := afterInput s) hfit⟩
  · rw [complete_ok_pad, hpad]
    exact eight_mul_bytesFor_sub_le _
  · rw [complete_ok_payLen, complete_ok_pad, hpad, packed_payLen_toNat (s := afterInput s) hfit]
    exact Nat.sub_sub_self (le_eight_mul_bytesFor _)

/-! ## The pad bits -/

/-- Reading a written payload makes no free draw. -/
theorem afterPayload_written {s : State} (h : PayloadWritten s) : afterPayload s = s := by
  rw [afterPayload, readBytes_draws s.draws h]

/-- UNPACK uses of the payload its unpadded bits alone, and keeps PAY_MEM (43_bit_packer.md R173, R174). -/
theorem complete_cmdUnpack_payMem {s : State} {m : Memory} (hs : PayloadWritten s)
    (hm : PayloadWritten { s with payMem := m })
    (hbits : unpaddedBits (payloadBytes s) s.pad.toNat
      = unpaddedBits (payloadBytes { s with payMem := m }) s.pad.toNat) :
    complete (cmdUnpack { s with payMem := m }) = { complete (cmdUnpack s) with payMem := m } := by
  unfold cmdUnpack
  rw [afterPayload_written hs, afterPayload_written hm, ← hbits]
  split_ifs
  · rfl
  · rfl
  · rfl
  · rfl
  · rfl
  · have hdecode : decodeBits { s with payMem := m } = decodeBits s := rfl
    rw [hdecode]
    cases decodeBits s (unpaddedBits (payloadBytes s) s.pad.toNat) with
    | error e => rfl
    | ok out => rfl

/-- Settles O50: the checks do not read the payload, and the walk reads its unpadded bits. -/
theorem padBitsAreIgnored : Obligations.PadBitsAreIgnored := by
  unfold Obligations.PadBitsAreIgnored
  intro s m hs hm hbits
  refine ⟨_, exec_eq_ruleOf .unpack s, ?_⟩
  rw [exec_eq_ruleOf, ruleOf, complete_cmdUnpack_payMem hs hm hbits]

end Sys2Proof.Machine
end

section
/-! PROOFS. The Container Codec (44_container_codec.md): the layout of a container, what SERIALIZE writes, what PARSE
accepts and how it rejects the rest, and that PARSE reads back what SERIALIZE wrote. -/

namespace Sys2Proof.Machine

/-! ## Reading a container by offset -/

theorem byteAt_drop (bytes : List Byte) (a k : Nat) : byteAt (bytes.drop a) k = byteAt bytes (a + k) := by
  simp [byteAt, List.getD_eq_getElem?_getD]

theorem wordAt_drop (bytes : List Byte) (a k : Nat) : wordAt (bytes.drop a) k = wordAt bytes (a + k) := by
  simp only [wordAt, byteAt_drop, Nat.add_assoc]

/-- A word written little-endian is the word at its offset (00_scope.md R13). -/
theorem wordAt_le32_append (w : Word) (rest : List Byte) : wordAt (le32 w ++ rest) 0 = w := wordLE_le32 w

theorem drop_eq_byteAt_cons {bytes : List Byte} {k : Nat} (h : k < bytes.length) :
    bytes.drop k = byteAt bytes k :: bytes.drop (k + 1) := by
  rw [List.drop_eq_getElem_cons h, byteAt, List.getD_eq_getElem _ _ h]

/-- The four bytes at an offset are those of the word read there (00_scope.md R13). -/
theorem drop_eq_le32_append {bytes : List Byte} {k : Nat} (h : k + 4 ≤ bytes.length) :
    bytes.drop k = le32 (wordAt bytes k) ++ bytes.drop (k + 4) := by
  rw [wordAt, le32_wordLE, drop_eq_byteAt_cons (by omega), drop_eq_byteAt_cons (by omega),
    drop_eq_byteAt_cons (by omega), drop_eq_byteAt_cons (by omega)]
  rfl

/-- The five bytes at an offset are those of the entry read there (44_container_codec.md R190). -/
theorem drop_eq_entryBytes_append {bytes : List Byte} {k : Nat} (h : k + 5 ≤ bytes.length) :
    bytes.drop k = entryBytes ⟨byteAt bytes k, wordAt bytes (k + 1)⟩ ++ bytes.drop (k + 5) := by
  rw [drop_eq_byteAt_cons (by omega), drop_eq_le32_append (by omega)]
  rfl

/-! ## The layout -/

/-- From the offset of entry e on, a container holds its entries from e on, its pad and its payload
(44_container_codec.md R190). -/
theorem drop_containerBytes (c : Container) {e : Nat} (h : e ≤ c.table.length) :
    (containerBytes c).drop (4 + 5 * e) = (c.table.drop e).flatMap entryBytes ++ c.pad :: c.payload := by
  have hsplit : containerBytes c = (le32 (BitVec.ofNat 32 c.table.length) ++ (c.table.take e).flatMap entryBytes)
      ++ ((c.table.drop e).flatMap entryBytes ++ c.pad :: c.payload) := by
    rw [containerBytes, ← List.append_assoc, List.append_assoc _ _ (List.flatMap _ _), ← List.flatMap_append,
      List.take_append_drop]
  rw [hsplit, List.drop_left']
  rw [List.length_append, le32_length, flatMap_entryBytes_length, List.length_take, Nat.min_eq_left h]

/-- The entry count of a container (44_container_codec.md R190). -/
theorem wordAt_containerBytes (c : Container) :
    wordAt (containerBytes c) 0 = BitVec.ofNat 32 c.table.length := by
  rw [containerBytes, List.append_assoc, wordAt_le32_append]

/-- After the table of a container come its pad and its payload (44_container_codec.md R190). -/
theorem drop_table_containerBytes (c : Container) :
    (containerBytes c).drop (4 + 5 * c.table.length) = c.pad :: c.payload := by
  rw [drop_containerBytes c le_rfl, List.drop_length]
  rfl

theorem byteAt_pad_containerBytes (c : Container) :
    byteAt (containerBytes c) (4 + 5 * c.table.length) = c.pad := by
  rw [← Nat.add_zero (4 + _), ← byteAt_drop, drop_table_containerBytes]
  rfl

theorem drop_payload_containerBytes (c : Container) :
    (containerBytes c).drop (4 + 5 * c.table.length + 1) = c.payload := by
  rw [← List.drop_drop, drop_table_containerBytes]
  rfl

/-- Settles O37: what follows each offset of the layout is a suffix of the container, which begins with the field. -/
theorem containerLayout : Obligations.ContainerLayout := by
  unfold Obligations.ContainerLayout
  intro c hcount
  refine ⟨containerBytes_length c, ?_, fun e he => ?_, byteAt_pad_containerBytes c, fun i hi => ?_⟩
  · rw [wordAt_containerBytes, BitVec.toNat_ofNat, Nat.mod_eq_of_lt hcount]
  · have hentry : (containerBytes c).drop (4 + 5 * e)
        = c.table[e].sym :: (le32 c.table[e].count
          ++ ((c.table.drop (e + 1)).flatMap entryBytes ++ c.pad :: c.payload)) := by
      rw [drop_containerBytes c he.le, List.drop_eq_getElem_cons he, List.flatMap_cons, List.append_assoc]
      rfl
    constructor
    · rw [← Nat.add_zero (4 + _), ← byteAt_drop, hentry]
      rfl
    · rw [← Nat.add_zero (4 + _ + _), ← wordAt_drop, ← List.drop_drop, hentry]
      exact wordAt_le32_append _ _
  · rw [← byteAt_drop, drop_payload_containerBytes, byteAt, List.getD_eq_getElem _ _ hi]

/-! ## SERIALIZE -/

/-- The container of a state's FREQ, PAD and payload (44_container_codec.md R192). -/
abbrev containerOf (s : State) : Container := ⟨tableOfFreq s.freq, s.pad, payloadBytes s⟩

/-- size as R195 writes it (44_container_codec.md R192, R195). -/
theorem containerSize_eq (s : State) : containerSize s = 5 + 5 * nsym s.freq + s.payLen.toNat := by
  rw [containerSize]
  omega

/-- size is the number of bytes SERIALIZE writes (44_container_codec.md R192, R195). -/
theorem containerBytes_containerOf_length (s : State) : (containerBytes (containerOf s)).length = containerSize s := by
  rw [containerBytes_length, tableOfFreq_length, payloadBytes_length, containerSize_eq]

theorem payloadBytes_eq_nil {s : State} : payloadBytes s = [] ↔ s.payLen = 0 := by
  rw [← List.length_eq_zero_iff, payloadBytes_length]
  exact BitVec.toNat_inj (y := 0)

theorem tableOfFreq_eq_nil {freq : Vector Word 256} : tableOfFreq freq = [] ↔ nsym freq = 0 := by
  rw [← List.length_eq_zero_iff, tableOfFreq_length]

/-- SERIALIZE's checks before the size make its container well formed (44_container_codec.md R191, R192). -/
theorem containerOf_wf {s : State} (hpad : s.pad.toNat ≤ 7) (hempty : nsym s.freq = 0 → s.payLen = 0 ∧ s.pad = 0)
    (hnopay : s.payLen = 0 → s.pad = 0) : (containerOf s).wf :=
  ⟨tableOfFreq_wf s.freq, hpad,
    fun ht => (hempty (tableOfFreq_eq_nil.1 ht)).imp_left payloadBytes_eq_nil.2,
    fun hp => hnopay (payloadBytes_eq_nil.1 hp)⟩

/-- The size of a container whose payload fits is a number a word can hold (00_scope.md R7). -/
theorem containerSize_lt {s : State} (hpay : s.payLen.toNat ≤ s.params.payCap.val) : containerSize s < 2 ^ 32 := by
  have hn := nsym_le s.freq
  have hcap := s.params.payCap.le
  rw [containerSize]
  omega

theorem serialized_outLen_toNat {s : State} (hpay : s.payLen.toNat ≤ s.params.payCap.val) :
    (serialized s).outLen.toNat = containerSize s := by
  rw [serialized_outLen, BitVec.toNat_ofNat, Nat.mod_eq_of_lt (containerSize_lt hpay)]

/-- Settles O38: every check passes, and the range write leaves the container at the start of OUT_MEM. -/
theorem serializeWritesTheContainer : Obligations.SerializeWritesTheContainer := by
  unfold Obligations.SerializeWritesTheContainer
  intro s hpad hpay hempty hnopay hfit
  rw [← containerSize_eq] at hfit ⊢
  have hexec : exec .serialize s = .next (complete (.ok (serialized s))) := by
    rw [exec_eq_ruleOf, ruleOf, cmdSerialize_checked hpad hpay hempty hnopay, if_neg (Nat.not_lt.2 hfit)]
  obtain ⟨hholds, hsame⟩ := holds_writeBytes s.outMem (containerBytes (containerOf s))
  rw [containerBytes_containerOf_length] at hsame
  refine ⟨_, hexec, succeeded_complete_ok rfl, ?_⟩
  rw [complete_ok_outLen, complete_ok_outMem, serialized_outLen_toNat hpay]
  exact ⟨rfl, hholds, containerOf_wf hpad hempty hnopay, containerBytes_containerOf_length s, hsame, rfl⟩

/-- Settles O39: each premise selects one branch of the rule, which raises its error on the state as it is. -/
theorem serializeErrorsInOrder : Obligations.SerializeErrorsInOrder := by
  unfold Obligations.SerializeErrorsInOrder
  intro s
  rw [← containerSize_eq]
  have hexec := exec_eq_ruleOf .serialize s
  refine ⟨fun hpad => ?_, fun hpad hbig => ?_, fun hpad hpay => ⟨fun hbad => ?_, fun hempty hnopay hbig => ?_⟩⟩
  · exact failsCleanly_of_raise hexec (if_pos hpad) (by omega) rfl
  · exact failsCleanly_of_raise hexec ((if_neg (Nat.not_lt.2 hpad)).trans (if_pos hbig)) s.payLen.isLt rfl
  · have hrule : cmdSerialize s = raise .malformedContainer 0 s := by
      rw [cmdSerialize, if_neg (Nat.not_lt.2 hpad), if_neg (Nat.not_lt.2 hpay), ← ite_or, if_pos hbad]
    exact failsCleanly_of_raise hexec hrule (by decide) rfl
  · exact failsCleanly_of_raise hexec ((cmdSerialize_checked hpad hpay hempty hnopay).trans (if_pos hbig))
      (containerSize_lt hpay) rfl

/-! ## What PARSE reads -/

/-- PARSE's last checks pass exactly when the pad and payload agree with the table and the payload fits
(44_container_codec.md R193). -/
theorem parsePayload_eq_ok {poff payCap : Nat} {table : List Entry} {pad : Byte} {payload : List Byte} {c : Container} :
    parsePayload table.length poff payCap table pad payload = .ok c ↔
      c = ⟨table, pad, payload⟩ ∧ PayloadWf c ∧ c.payload.length ≤ payCap := by
  constructor
  · intro h
    unfold parsePayload at h
    split_ifs at h with hpad hempty hnopay hbig
    cases h
    exact ⟨rfl, ⟨Nat.not_lt.1 hpad, by simpa using hempty, by simpa using hnopay⟩, Nat.not_lt.1 hbig⟩
  · rintro ⟨rfl, ⟨hpad, hempty, hnopay⟩, hfit⟩
    rw [parsePayload, if_neg (Nat.not_lt.2 hpad), if_neg (by simpa using hempty), if_neg (by simpa using hnopay),
      if_neg (Nat.not_lt.2 hfit)]

/-- The bytes left after the entries are those past n entries of five bytes (44_container_codec.md R190). -/
theorem parseEntries_tail {n off : Nat} {prev : Option Byte} {bs : List Byte} {table : List Entry} {tail : List Byte}
    (h : parseEntries n off prev bs = .ok (table, tail)) : tail = bs.drop (5 * n) := by
  obtain ⟨hcount, hsplit, -⟩ := (parseEntries_ok _ _ _ _ _ _).1 h
  rw [hsplit, List.drop_left' (by rw [flatMap_entryBytes_length, hcount])]

/-- Fewer than four bytes hold no entry count (44_container_codec.md R193). -/
theorem parseContainer_of_length_lt {payCap : Nat} {bytes : List Byte} (h : bytes.length < 4) :
    parseContainer payCap bytes = .error (.malformedContainer, bytes.length) := by
  unfold parseContainer
  split
  · simp only [List.length_cons] at h
    omega
  · rfl

/-- PARSE's reading of four bytes or more: the count, the length of the table, the entries, and the pad and payload that
stand after them (44_container_codec.md R193). -/
theorem parseContainer_of_four_le {payCap n : Nat} {bytes : List Byte} (hn : n = (wordAt bytes 0).toNat)
    (hlen : 4 ≤ bytes.length) :
    parseContainer payCap bytes =
      if 256 < n then .error (.malformedContainer, 0)
      else if bytes.length < 4 + 5 * n + 1 then .error (.malformedContainer, bytes.length)
      else (parseEntries n 4 none (bytes.drop 4)).bind fun r =>
        parsePayload n (4 + 5 * n) payCap r.1 (byteAt bytes (4 + 5 * n)) (bytes.drop (4 + 5 * n + 1)) := by
  obtain ⟨b0, b1, b2, b3, rest, rfl⟩ : ∃ b0 b1 b2 b3 rest, bytes = b0 :: b1 :: b2 :: b3 :: rest :=
    ⟨_, _, _, _, _, drop_eq_le32_append (k := 0) hlen⟩
  have hword : (wordLE b0 b1 b2 b3).toNat = n := hn.symm
  have hrest : rest = (b0 :: b1 :: b2 :: b3 :: rest).drop 4 := rfl
  rw [parseContainer, hword]
  refine if_congr Iff.rfl rfl (ite_congr rfl (fun _ => rfl) fun hlong => ?_)
  rw [← hrest]
  cases hparse : parseEntries n 4 none rest with
  | error e => rfl
  | ok r =>
    obtain ⟨table, tail⟩ := r
    have htail : tail = byteAt (b0 :: b1 :: b2 :: b3 :: rest) (4 + 5 * n)
        :: (b0 :: b1 :: b2 :: b3 :: rest).drop (4 + 5 * n + 1) := by
      rw [parseEntries_tail hparse, ← drop_eq_byteAt_cons (by omega), ← List.drop_drop, ← hrest]
    rw [htail]
    rfl

/-- Settles O40: the parser of entries accepts exactly well-formed tables, and the checks after it exactly the pads and
payloads that agree with the table. -/
theorem parseAcceptsExactlyContainers : Obligations.ParseAcceptsExactlyContainers := by
  unfold Obligations.ParseAcceptsExactlyContainers
  intro payCap bytes c
  constructor
  · intro h
    by_cases hlen : bytes.length < 4
    · rw [parseContainer_of_length_lt hlen] at h
      cases h
    rw [parseContainer_of_four_le rfl (Nat.not_lt.1 hlen)] at h
    split_ifs at h with hcount hlong
    cases hparse : parseEntries (wordAt bytes 0).toNat 4 none (bytes.drop 4) with
    | error e => rw [hparse] at h; cases h
    | ok r =>
      obtain ⟨table, tail⟩ := r
      obtain ⟨hn, hsplit, hwf, -⟩ := (parseEntries_ok _ _ _ _ _ _).1 hparse
      have htail := parseEntries_tail hparse
      rw [hparse, ← hn] at h
      rw [← hn, List.drop_drop, drop_eq_byteAt_cons (by omega)] at htail
      obtain ⟨rfl, hpay, hfit⟩ := parsePayload_eq_ok.1 h
      refine ⟨⟨hwf, hpay⟩, hfit, ?_⟩
      calc bytes = le32 (wordAt bytes 0) ++ bytes.drop 4 := drop_eq_le32_append (k := 0) (by omega)
        _ = le32 (BitVec.ofNat 32 table.length) ++ (table.flatMap entryBytes ++ tail) := by
          rw [hsplit, hn, BitVec.ofNat_toNat, BitVec.setWidth_eq]
        _ = containerBytes _ := by rw [htail, containerBytes, List.append_assoc]
  · rintro ⟨⟨hwf, hpay⟩, hfit, rfl⟩
    have hlen := tableWf_length hwf
    have hn : c.table.length = (wordAt (containerBytes c) 0).toNat := by
      rw [wordAt_containerBytes, BitVec.toNat_ofNat, Nat.mod_eq_of_lt (by omega)]
    have hbytes := containerBytes_length c
    have hentries : parseEntries c.table.length 4 none ((containerBytes c).drop 4)
        = .ok (c.table, c.pad :: c.payload) :=
      (parseEntries_ok _ _ _ _ _ _).2 ⟨rfl, drop_containerBytes c (Nat.zero_le _), hwf, fun p hp => nomatch hp⟩
    rw [parseContainer_of_four_le hn (by omega), if_neg (by omega), if_neg (by omega), hentries,
      byteAt_pad_containerBytes, drop_payload_containerBytes]
    exact parsePayload_eq_ok.2 ⟨rfl, hpay, hfit⟩

/-! ## PARSE -/

section
variable {s : State} {c : Container}

/-- PARSE of the bytes of a well-formed container that fits (44_container_codec.md R193). -/
theorem exec_parse_of_container (hle : s.inLen.toNat ≤ s.params.inCap.val) (hbytes : inputBytes s = containerBytes c)
    (hwf : c.wf) (hfit : c.payload.length ≤ s.params.payCap.val) :
    exec .parse s = .next (complete (.ok (parsed (afterInput s) c))) := by
  rw [exec_eq_ruleOf, ruleOf, cmdParse_accepts hle ((parseAcceptsExactlyContainers _ _ c).2 ⟨hwf, hfit, hbytes⟩)]

theorem parsed_payLen_toNat (hfit : c.payload.length ≤ s.params.payCap.val) :
    (parsed s c).payLen.toNat = c.payload.length := by
  have hcap := s.params.payCap.le
  rw [parsed_payLen, BitVec.toNat_ofNat, Nat.mod_eq_of_lt (by omega)]

end

/-- Settles O41: PARSE's reading yields the container, and FREQ gives its table back. -/
theorem parseRestoresTheFields : Obligations.ParseRestoresTheFields := by
  unfold Obligations.ParseRestoresTheFields
  intro s c hle hbytes hwf hfit
  obtain ⟨hholds, hsame⟩ := holds_writeBytes s.payMem c.payload
  have htable := tableOfFreq_freqOfTable hwf.1
  refine ⟨_, exec_parse_of_container hle hbytes hwf hfit, succeeded_complete_ok rfl, htable, ?_,
    freqOfTable_ne_zero hwf.1, rfl, rfl, parsed_payLen_toNat (s := afterInput s) hfit, hholds, hsame, rfl⟩
  rw [complete_ok_freq, parsed_freq, ← tableOfFreq_length, htable]

/-- SERIALIZE without an error wrote the well-formed container of a payload that fits (44_container_codec.md R192). -/
theorem exec_serialize_ok {s t : State} (h : exec .serialize s = .next t) (hok : t.status.err = false) :
    t = complete (.ok (serialized s)) ∧ (containerOf s).wf ∧ s.payLen.toNat ≤ s.params.payCap.val := by
  rw [exec_eq_ruleOf] at h
  obtain rfl := next_inj h
  obtain ⟨u, hu⟩ := complete_err_false hok
  obtain ⟨hpad, hpay, hempty, hnopay, -, rfl⟩ := cmdSerialize_ok hu
  exact ⟨congrArg complete hu, containerOf_wf hpad hempty hnopay, hpay⟩

/-- Settles O43: the copied input is the container SERIALIZE wrote, which PARSE accepts; FREQ comes back from its table
and a written payload from its bytes. -/
theorem parseInvertsSerialize : Obligations.ParseInvertsSerialize := by
  unfold Obligations.ParseInvertsSerialize
  intro s t u hwritten hexec hok hparams hlen hle hcopy
  obtain ⟨rfl, hwf, hpay⟩ := exec_serialize_ok hexec hok
  have hout : (serialized s).outLen.toNat = (containerBytes (containerOf s)).length := by
    rw [serialized_outLen_toNat hpay, containerBytes_containerOf_length]
  rw [complete_ok_outLen] at hlen hle hcopy
  have hinput : inputBytes u = containerBytes (containerOf s) :=
    inputBytes_of_holds (holds_writeBytes s.outMem _).1 (by rw [hlen, hout]) (by rwa [← hout])
  have hfit : (containerOf s).payload.length ≤ u.params.payCap.val := by
    rwa [payloadBytes_length, hparams]
  refine ⟨_, exec_parse_of_container (by rwa [hlen]) hinput hwf hfit, succeeded_complete_ok rfl,
    freqOfTable_tableOfFreq s.freq, rfl, ?_, fun k hk => ?_⟩
  · rw [complete_ok_payLen, parsed_payLen, payloadBytes_length, BitVec.ofNat_toNat, BitVec.setWidth_eq]
  · obtain ⟨v, hread, hbyte⟩ := readBytes_written hwritten hk s.draws
    have hk' : k < (payloadBytes s).length := by rwa [payloadBytes_length]
    have hv : (payloadBytes s)[k] = v := (List.getElem?_eq_some_iff.1 hbyte).2
    rw [hread, ← hv]
    exact (holds_writeBytes u.payMem (payloadBytes s)).1 k hk'

/-! ## PARSE's errors -/

/-- The byte value PARSE compares that of entry e with (44_container_codec.md R193, prev). -/
def prevSym (bytes : List Byte) : Nat → Option Byte
  | 0 => none
  | e + 1 => some (byteAt bytes (4 + 5 * e))

theorem notAbove_prevSym {bytes : List Byte} {e : Nat} :
    notAbove (byteAt bytes (4 + 5 * e)) (prevSym bytes e) = true ↔ EntryNotAbove bytes e := by
  cases e <;> simp [notAbove, prevSym, EntryNotAbove]

/-- PARSE's reading of m entries of a container from entry e on (44_container_codec.md R193). -/
def parseFrom (bytes : List Byte) (e m : Nat) : Except (Err × Nat) (List Entry × List Byte) :=
  parseEntries m (4 + 5 * e) (prevSym bytes e) (bytes.drop (4 + 5 * e))

/-- PARSE's checks on one entry (44_container_codec.md R193). -/
theorem parseEntries_entryBytes_append (n off : Nat) (prev : Option Byte) (x : Entry) (rest : List Byte) :
    parseEntries (n + 1) off prev (entryBytes x ++ rest) =
      if notAbove x.sym prev then .error (.malformedContainer, off)
      else if x.count = 0 then .error (.malformedContainer, off + 1)
      else (parseEntries n (off + 5) (some x.sym) rest).map fun r => (x :: r.1, r.2) := by
  simp only [entryBytes, le32, List.cons_append, List.nil_append, parseEntries, wordLE_le32]
  cases parseEntries n (off + 5) (some x.sym) rest <;> rfl

section
variable {bytes : List Byte} {e m : Nat}

/-- PARSE's checks on entry e, in their order (44_container_codec.md R193). -/
theorem parseFrom_succ (hlen : 4 + 5 * (e + 1) ≤ bytes.length) :
    parseFrom bytes e (m + 1) =
      if notAbove (byteAt bytes (4 + 5 * e)) (prevSym bytes e) then .error (.malformedContainer, 4 + 5 * e)
      else if wordAt bytes (4 + 5 * e + 1) = 0 then .error (.malformedContainer, 4 + 5 * e + 1)
      else (parseFrom bytes (e + 1) m).map fun r =>
        (⟨byteAt bytes (4 + 5 * e), wordAt bytes (4 + 5 * e + 1)⟩ :: r.1, r.2) := by
  rw [parseFrom, drop_eq_entryBytes_append (by omega), parseEntries_entryBytes_append]
  rfl

theorem parseFrom_of_notAbove (hlen : 4 + 5 * (e + 1) ≤ bytes.length) (habove : EntryNotAbove bytes e) :
    parseFrom bytes e (m + 1) = .error (.malformedContainer, 4 + 5 * e) :=
  (parseFrom_succ hlen).trans (if_pos (notAbove_prevSym.2 habove))

theorem parseFrom_of_zero (hlen : 4 + 5 * (e + 1) ≤ bytes.length) (habove : ¬EntryNotAbove bytes e)
    (hzero : EntryZero bytes e) : parseFrom bytes e (m + 1) = .error (.malformedContainer, 4 + 5 * e + 1) :=
  (parseFrom_succ hlen).trans ((if_neg (mt notAbove_prevSym.1 habove)).trans (if_pos hzero))

theorem parseFrom_of_pass (hlen : 4 + 5 * (e + 1) ≤ bytes.length) (habove : ¬EntryNotAbove bytes e)
    (hzero : ¬EntryZero bytes e) :
    parseFrom bytes e (m + 1) = (parseFrom bytes (e + 1) m).map fun r =>
      (⟨byteAt bytes (4 + 5 * e), wordAt bytes (4 + 5 * e + 1)⟩ :: r.1, r.2) :=
  (parseFrom_succ hlen).trans ((if_neg (mt notAbove_prevSym.1 habove)).trans (if_neg hzero))

/-- Once the entries before entry e pass, the reading goes on from entry e (44_container_codec.md R193). -/
theorem exists_parseFrom_eq_map (hpass : EntriesPass bytes e) (hlen : 4 + 5 * (e + m) ≤ bytes.length) :
    ∃ es, parseFrom bytes 0 (e + m) = (parseFrom bytes e m).map fun r => (es ++ r.1, r.2) := by
  induction e generalizing m with
  | zero =>
    refine ⟨[], ?_⟩
    rw [Nat.zero_add]
    cases parseFrom bytes 0 m <;> rfl
  | succ e ih =>
    obtain ⟨es, hes⟩ := ih (m := m + 1) (fun d hd => hpass d (by omega)) (by omega)
    obtain ⟨habove, hcount⟩ := hpass e (Nat.lt_succ_self e)
    rw [Nat.add_right_comm, Nat.add_assoc, hes, parseFrom_of_pass (by omega) habove hcount]
    refine ⟨es ++ [⟨byteAt bytes (4 + 5 * e), wordAt bytes (4 + 5 * e + 1)⟩], ?_⟩
    cases parseFrom bytes (e + 1) m <;> simp [Except.map]

/-- Once the length and the entries before entry e pass, PARSE's reading is that of the entries from e on and then of
the pad and the payload (44_container_codec.md R193). -/
theorem exists_parseContainer_eq_bind {payCap n : Nat} (hn : n = (wordAt bytes 0).toNat) (hcount : n ≤ 256)
    (hlen : 4 + 5 * n + 1 ≤ bytes.length) (hle : e ≤ n) (hpass : EntriesPass bytes e) :
    ∃ es, parseContainer payCap bytes = (parseFrom bytes e (n - e)).bind fun r =>
      parsePayload n (4 + 5 * n) payCap (es ++ r.1) (byteAt bytes (4 + 5 * n)) (bytes.drop (4 + 5 * n + 1)) := by
  obtain ⟨es, hes⟩ := exists_parseFrom_eq_map (m := n - e) hpass (by omega)
  rw [Nat.add_sub_cancel' hle] at hes
  refine ⟨es, ?_⟩
  rw [parseContainer_of_four_le hn (by omega), if_neg (by omega), if_neg (by omega)]
  change (parseFrom bytes 0 n).bind _ = _
  rw [hes]
  cases parseFrom bytes e (n - e) <;> rfl

/-- PARSE's reading ends with the error of the first entry that fails (44_container_codec.md R193). -/
theorem parseContainer_of_parseFrom_error {payCap n : Nat} {x : Err × Nat} (hn : n = (wordAt bytes 0).toNat)
    (hcount : n ≤ 256) (hlen : 4 + 5 * n + 1 ≤ bytes.length) (hlt : e < n) (hpass : EntriesPass bytes e)
    (herr : ∀ m, parseFrom bytes e (m + 1) = .error x) : parseContainer payCap bytes = .error x := by
  obtain ⟨m, hm⟩ := Nat.exists_eq_add_of_lt hlt
  obtain ⟨es, hes⟩ := exists_parseContainer_eq_bind (payCap := payCap) hn hcount hlen hlt.le hpass
  rw [hes, show n - e = m + 1 by omega, herr]
  rfl

/-- When every entry passes, PARSE's reading ends as its checks on the pad and the payload do
(44_container_codec.md R193). -/
theorem exists_parseContainer_eq_parsePayload {payCap n : Nat} (hn : n = (wordAt bytes 0).toNat) (hcount : n ≤ 256)
    (hlen : 4 + 5 * n + 1 ≤ bytes.length) (hpass : EntriesPass bytes n) :
    ∃ es, parseContainer payCap bytes =
      parsePayload n (4 + 5 * n) payCap es (byteAt bytes (4 + 5 * n)) (bytes.drop (4 + 5 * n + 1)) := by
  obtain ⟨es, hes⟩ := exists_parseContainer_eq_bind (payCap := payCap) hn hcount hlen le_rfl hpass
  rw [Nat.sub_self] at hes
  exact ⟨es ++ [], hes⟩

end

section
variable {n poff payCap : Nat} {table : List Entry} {pad : Byte} {payload : List Byte}

theorem parsePayload_of_pad_gt (h : 7 < pad.toNat) :
    parsePayload n poff payCap table pad payload = .error (.invalidPadding, pad.toNat) :=
  if_pos h

theorem parsePayload_of_inconsistent (hpad : pad.toNat ≤ 7)
    (h : n = 0 ∧ (payload.length ≠ 0 ∨ pad ≠ 0) ∨ payload.length = 0 ∧ pad ≠ 0) :
    parsePayload n poff payCap table pad payload = .error (.malformedContainer, poff) := by
  rw [parsePayload, if_neg (Nat.not_lt.2 hpad), ← ite_or, if_pos h]

theorem parsePayload_of_gt (hpad : pad.toNat ≤ 7) (hn : n ≠ 0) (hne : payload.length ≠ 0)
    (h : payCap < payload.length) :
    parsePayload n poff payCap table pad payload = .error (.capacity, payload.length) := by
  rw [parsePayload, if_neg (Nat.not_lt.2 hpad), if_neg (mt And.left hn), if_neg (mt And.left hne), if_pos h]

end

/-- A PARSE whose reading fails completes with that error alone (44_container_codec.md R193, 60_exceptions.md R252). -/
theorem parse_failsCleanly {s : State} {e : Err} {info : Nat} (hle : s.inLen.toNat ≤ s.params.inCap.val)
    (hinfo : info < 2 ^ 32) (h : parseContainer s.params.payCap.val (inputBytes s) = .error (e, info)) :
    FailsCleanly .parse e info s := by
  have hrule : cmdParse s = raise e info (afterInput s) := by
    rw [cmdParse, if_neg (Nat.not_lt.2 hle), h]
  exact failsCleanly_of_raise (exec_eq_ruleOf .parse s) hrule hinfo rfl

/-- Settles O42: the length and the count are read first, then the first entry that fails decides, then the pad and the
payload. -/
theorem parseErrorsInOrder : Obligations.ParseErrorsInOrder := by
  unfold Obligations.ParseErrorsInOrder
  intro s bytes n hbytes hn
  have hlen : bytes.length = s.inLen.toNat := by rw [hbytes, inputBytes_length]
  have hlt := s.inLen.isLt
  refine ⟨fun hbig => failsCleanly_of_raise (exec_eq_ruleOf .parse s) (if_pos hbig) hlt rfl, fun hle => ?_⟩
  have hfails {e : Err} {info : Nat} (hinfo : info < 2 ^ 32)
      (h : parseContainer s.params.payCap.val bytes = .error (e, info)) : FailsCleanly .parse e info s :=
    parse_failsCleanly hle hinfo (hbytes ▸ h)
  rw [← hlen] at hlt ⊢
  refine ⟨fun hshort => hfails hlt (parseContainer_of_length_lt hshort), fun hfour hcount => ?_,
    fun hfour hcount hshort => ?_, fun hcount hlong => ⟨fun e he hpass habove => ?_,
      fun e he hpass habove hzero => ?_, fun hpass hpad => ?_, fun hpass hpad => ?_⟩⟩
  · exact hfails (by decide) ((parseContainer_of_four_le hn hfour).trans (if_pos hcount))
  · exact hfails hlt ((parseContainer_of_four_le hn hfour).trans
      ((if_neg (Nat.not_lt.2 hcount)).trans (if_pos hshort)))
  · exact hfails (by omega) (parseContainer_of_parseFrom_error hn hcount hlong he hpass fun _ =>
      parseFrom_of_notAbove (by omega) habove)
  · exact hfails (by omega) (parseContainer_of_parseFrom_error hn hcount hlong he hpass fun _ =>
      parseFrom_of_zero (by omega) habove hzero)
  all_goals obtain ⟨es, hread⟩ := exists_parseContainer_eq_parsePayload hn hcount hlong hpass
  · exact hfails (by omega) (hread.trans (parsePayload_of_pad_gt hpad))
  · have hpayload : (bytes.drop (4 + 5 * n + 1)).length = bytes.length - (4 + 5 * n + 1) := List.length_drop
    refine ⟨fun hbad => hfails (by omega) (hread.trans (parsePayload_of_inconsistent hpad ?_)),
      fun hzero hne hbig => ?_⟩
    · rw [hpayload]
      obtain ⟨rfl, hbad⟩ | ⟨hend, hne⟩ := hbad
      · exact .inl ⟨rfl, hbad.imp_left fun hne => by omega⟩
      · exact .inr ⟨by omega, hne⟩
    · rw [← hpayload] at hbig ⊢
      exact hfails (by omega) (hread.trans (parsePayload_of_gt hpad (by omega) (by omega) hbig))

end Sys2Proof.Machine
end

section
/-! PROOFS. The Decoder State Machine (45_decoder.md): UNPACK's checks, the codes a walk reads and the errors it ends
with. -/

namespace Sys2Proof.Machine

/-! ## The checks before the walk -/

section
variable {s : State}

/-- UNPACK of too large a pad (45_decoder.md R220). -/
theorem cmdUnpack_of_pad_gt (h : 7 < s.pad.toNat) : cmdUnpack s = raise .invalidPadding s.pad.toNat s := if_pos h

/-- UNPACK of no payload bytes (45_decoder.md R220, 43_bit_packer.md R173). -/
theorem cmdUnpack_of_empty (h : s.payLen = 0) (hpad : s.pad = 0) : cmdUnpack s = .ok { s with outLen := 0 } := by
  rw [cmdUnpack, if_neg (by simp [hpad]), if_neg (by simp [h]), if_neg (mt And.right (not_not.2 hpad)),
    if_pos (by simp [h])]

section
variable (hpad : s.pad.toNat ≤ 7)
include hpad

/-- UNPACK of too long a payload (45_decoder.md R220). -/
theorem cmdUnpack_of_gt (h : s.params.payCap.val < s.payLen.toNat) :
    cmdUnpack s = raise .capacity s.payLen.toNat s := by
  rw [cmdUnpack, if_neg (Nat.not_lt.2 hpad), if_pos h]

/-- UNPACK of a pad without payload bytes (45_decoder.md R220). -/
theorem cmdUnpack_of_pad_of_empty (h : s.payLen = 0) (hne : s.pad ≠ 0) :
    cmdUnpack s = raise .malformedContainer 0 s := by
  rw [cmdUnpack, if_neg (Nat.not_lt.2 hpad), if_neg (by simp [h]), if_pos ⟨h, hne⟩]

variable (hne : s.payLen ≠ 0) (hle : s.payLen.toNat ≤ s.params.payCap.val)
include hne hle

/-- UNPACK of payload bits without a tree (45_decoder.md R220). -/
theorem cmdUnpack_of_noTree (h : s.treeValid = false) : cmdUnpack s = raise .noTree 0 s := by
  have hpos : s.payLen.toNat ≠ 0 := fun hz => hne (BitVec.eq_of_toNat_eq hz)
  rw [cmdUnpack, if_neg (Nat.not_lt.2 hpad), if_neg (Nat.not_lt.2 hle), if_neg (mt And.left hne), if_neg (by omega),
    if_pos h]

variable (htree : s.treeValid = true)
include htree

/-- UNPACK of bits its machine decodes (45_decoder.md R220). -/
theorem cmdUnpack_of_decoded {out : List Byte}
    (h : decodeBits s (unpaddedBits (payloadBytes s) s.pad.toNat) = .ok out) :
    cmdUnpack s = .ok (unpacked (afterPayload s) out) := by
  rw [cmdUnpack_walks hpad hne hle htree, h]

/-- UNPACK of bits its machine fails on (45_decoder.md R224). -/
theorem cmdUnpack_of_walkError {e : Err × Nat}
    (h : decodeBits s (unpaddedBits (payloadBytes s) s.pad.toNat) = .error e) :
    cmdUnpack s = raise e.1 e.2 (afterWalkError (afterPayload s)) := by
  rw [cmdUnpack_walks hpad hne hle htree, h]

/-- The machine's error is UNPACK's; its information value, an index of a payload bit, fits ERR_INFO
(45_decoder.md R221, R222, 10_state.md R36). -/
theorem unpack_failedWith {e : Err} {info : Nat}
    (h : decodeBits s (unpaddedBits (payloadBytes s) s.pad.toNat) = .error (e, info))
    (hinfo : info ≤ (unpaddedBits (payloadBytes s) s.pad.toNat).length) :
    ∃ t, exec .unpack s = .next t ∧ FailedWith e info s t := by
  have hbits := unpaddedBits_length_le s s.pad.toNat
  have hcap := s.params.payCap.le
  exact failedWith_of_raise (exec_eq_ruleOf .unpack s) (cmdUnpack_of_walkError hpad hne hle htree h) (by omega) rfl

end

end

/-- Settles O44: each premise selects one branch of the rule, and a branch that raises does so on the state as it is. -/
theorem unpackChecksBeforeTheWalk : Obligations.UnpackChecksBeforeTheWalk := by
  unfold Obligations.UnpackChecksBeforeTheWalk
  intro s
  have hexec := exec_eq_ruleOf .unpack s
  have hpadLt : s.pad.toNat < 2 ^ 32 := s.pad.isLt.trans (by decide)
  refine ⟨fun hpad => failsCleanly_of_raise hexec (cmdUnpack_of_pad_gt hpad) hpadLt rfl,
    fun hpad hlong => failsCleanly_of_raise hexec (cmdUnpack_of_gt hpad hlong) s.payLen.isLt rfl,
    fun hpad hempty hne => failsCleanly_of_raise hexec (cmdUnpack_of_pad_of_empty hpad hempty hne) (by decide) rfl,
    fun hempty hpad => ?_,
    fun hpad hne hle hnone => failsCleanly_of_raise hexec (cmdUnpack_of_noTree hpad hne hle hnone) (by decide) rfl⟩
  rw [hexec, ruleOf, cmdUnpack_of_empty hempty hpad]
  exact ⟨_, rfl, succeeded_complete_ok rfl, rfl, rfl⟩

/-- Settles O49: past the checks UNPACK raises in the walk only, which leaves OUT_MEM as if never written. -/
theorem walkErrorLeavesOutputUnspecified : Obligations.WalkErrorLeavesOutputUnspecified := by
  unfold Obligations.WalkErrorLeavesOutputUnspecified
  intro s t hpad hne hle htree hexec herr
  rw [exec_eq_ruleOf, ruleOf] at hexec
  obtain rfl := next_inj hexec
  cases hdecode : decodeBits s (unpaddedBits (payloadBytes s) s.pad.toNat) with
  | ok out =>
    rw [cmdUnpack_of_decoded hpad hne hle htree hdecode, complete_ok_status] at herr
    cases herr
  | error e =>
    rw [cmdUnpack_of_walkError hpad hne hle htree hdecode]
    exact ⟨Memory.read_nil, rfl, rfl⟩

/-! ## The single-leaf machine -/

theorem decodeBits_of_leaf {s : State} (h : (nodeAt s.node s.root).leaf = true) (bits : Bits) :
    decodeBits s bits = walk1 (nodeAt s.node s.root).sym s.params.outCap.val bits 0 0 := if_pos h

theorem decodeBits_of_internal {s : State} (h : (nodeAt s.node s.root).leaf = false) (bits : Bits) :
    decodeBits s bits = walk s.node s.root s.params.outCap.val bits .atRoot s.root 0 0 0 :=
  if_neg (by simp [h])

/-- After k zeros that fit, WALK1 ends with an error it meets there (45_decoder.md R222). -/
theorem walk1_zeros_error {sym : Byte} {cap k : Nat} {rest : Bits} {e : Err × Nat} (hk : k ≤ cap)
    (h : walk1 sym cap rest k k = .error e) : walk1 sym cap (List.replicate k false ++ rest) 0 0 = .error e := by
  rw [walk1_zeros _ _ _ _ _ _ (by omega), Nat.zero_add, h]

/-- Settles O48: WALK1 passes the zeros before the bit, and fails on the bit. -/
theorem unpackSingleLeafErrors : Obligations.UnpackSingleLeafErrors := by
  unfold Obligations.UnpackSingleLeafErrors
  intro s k rest htree hleaf hpad hne hle
  refine ⟨fun hk hbits => ?_, fun hk hbits => ?_⟩
  all_goals
    refine unpack_failedWith hpad hne hle htree ?_ (by simp [hbits])
    rw [hbits, decodeBits_of_leaf hleaf]
    refine walk1_zeros_error (by omega) ?_
  · rfl
  · exact if_pos hk

/-! ## The codes of a valid tree -/

section
variable {s : State} (hn : nsym s.freq ≠ 0) (ht : treeTables s = buildTree s.freq)
include hn ht

/-- ROOT is a leaf exactly for a single present symbol (42_tree_builder.md R144). -/
theorem rootLeaf_iff : (nodeAt s.node s.root).leaf = true ↔ nsym s.freq = 1 := by
  rw [← root_leaf_iff hn, ← ht]
  rfl

/-- No stored code begins that of another symbol (42_tree_builder.md R149). -/
theorem codeOf_prefixFree {b c : Byte} (hb : tableAt s.freq b ≠ 0) (hc : tableAt s.freq c ≠ 0)
    (h : codeOf s b <+: codeOf s c) : b = c := by
  by_contra hne
  exact codeList_prefixFree (two_le_nsym hb hc hne) (codeOf_mem_codeList hn ht hb) (codeOf_mem_codeList hn ht hc)
    (fun he => hne (congrArg Prod.fst he)) h

/-- Two concatenations of codes are equal for equal bytes only, since no code begins another (45_decoder.md R226). -/
theorem flatMap_codeOf_injective {l l' : List Byte} (hl : ∀ b ∈ l, tableAt s.freq b ≠ 0)
    (hl' : ∀ b ∈ l', tableAt s.freq b ≠ 0) (h : l'.flatMap (codeOf s) = l.flatMap (codeOf s)) : l' = l := by
  induction l generalizing l' with
  | nil =>
    cases l' with
    | nil => rfl
    | cons c l' =>
      have hnil : codeOf s c = [] := (List.append_eq_nil_iff.1 h).1
      exact absurd hnil (codeOf_ne_nil hn ht (hl' c List.mem_cons_self))
  | cons b l ih =>
    obtain ⟨hb, htail⟩ := List.forall_mem_cons.1 hl
    cases l' with
    | nil =>
      have hnil : codeOf s b = [] := (List.append_eq_nil_iff.1 h.symm).1
      exact absurd hnil (codeOf_ne_nil hn ht hb)
    | cons c l' =>
      obtain ⟨hc, htail'⟩ := List.forall_mem_cons.1 hl'
      rw [List.flatMap_cons, List.flatMap_cons] at h
      have hcb : c = b := by
        obtain hpre | hpre := List.prefix_or_prefix_of_prefix (List.prefix_append (codeOf s c) _)
          (h ▸ List.prefix_append (codeOf s b) _)
        · exact codeOf_prefixFree hn ht hc hb hpre
        · exact (codeOf_prefixFree hn ht hb hc hpre).symm
      subst hcb
      rw [ih htail htail' (List.append_cancel_left h)]

end

section
variable {s : State} (h1 : nsym s.freq = 1) (ht : treeTables s = buildTree s.freq)
include h1 ht

/-- The symbol of the single leaf is the one present (42_tree_builder.md R146). -/
theorem present_iff_of_single {b : Byte} : tableAt s.freq b ≠ 0 ↔ b = (nodeAt s.node s.root).sym := by
  obtain ⟨c, hpresent, -, rfl⟩ := single_code h1 ht
  rw [← mem_presentSymbols, hpresent, List.mem_singleton]

/-- Under a single leaf, codes are zeros, one for each byte (42_tree_builder.md R146). -/
theorem flatMap_codeOf_of_single (n : Nat) :
    (List.replicate n (nodeAt s.node s.root).sym).flatMap (codeOf s) = List.replicate n false := by
  obtain ⟨c, -, hcode, rfl⟩ := single_code h1 ht
  rw [List.flatMap_replicate, hcode, List.flatten_replicate_singleton]

end

section
variable {s : State} (h2 : 2 ≤ nsym s.freq) (ht : treeTables s = buildTree s.freq)
include h2 ht

theorem rootInternal_of_two_le : (nodeAt s.node s.root).leaf = false := by
  rw [← Bool.not_eq_true, rootLeaf_iff (by omega) ht]
  omega

/-- A stored code leads from ROOT to a leaf, through internal records (42_tree_builder.md R145). -/
theorem codeOf_follow {b : Byte} (hb : tableAt s.freq b ≠ 0) :
    (nodeAt s.node (follow s.node s.root (codeOf s b))).leaf = true
      ∧ ∀ j, j < (codeOf s b).length → (nodeAt s.node (follow s.node s.root ((codeOf s b).take j))).leaf = false := by
  have hpath := codeList_follow h2 _ (codeOf_mem_codeList (by omega) ht hb)
  rw [← ht] at hpath
  obtain ⟨hleaf, -, hinternal⟩ := hpath
  exact ⟨hleaf, hinternal⟩

/-- After the codes of bytes that fit, WALK ends with an error it meets there (45_decoder.md R221). -/
theorem decodeBits_codes_error {out : List Byte} {rest : Bits} {e : Err × Nat}
    (hout : ∀ c ∈ out, tableAt s.freq c ≠ 0) (hfit : out.length ≤ s.params.outCap.val)
    (h : walk s.node s.root s.params.outCap.val rest .atRoot s.root 0 (out.flatMap (codeOf s)).length out.length
      = .error e) :
    decodeBits s (out.flatMap (codeOf s) ++ rest) = .error e := by
  rw [decodeBits_of_internal (rootInternal_of_two_le h2 ht), walk_codes h2 ht _ _ hout _ _ _ _ (by omega),
    Nat.zero_add, Nat.zero_add, h]

/-- WALK over a part of a code fails at its first bit (45_decoder.md R223). -/
theorem walk_unfinished_code {b : Byte} {p : Bits} (hb : tableAt s.freq b ≠ 0) (hne : p ≠ [])
    (hpre : p <+: codeOf s b) (hpart : p ≠ codeOf s b) (cap start i o : Nat) :
    walk s.node s.root cap p .atRoot s.root start i o = .error (.truncatedBitstream, i) := by
  have hlt : p.length < (codeOf s b).length :=
    lt_of_le_of_ne hpre.length_le fun hlen => hpart (hpre.eq_of_length hlen)
  have hinternal : ∀ j, j ≤ p.length → (nodeAt s.node (follow s.node s.root (p.take j))).leaf = false := by
    intro j hj
    have htake : p.take j = (codeOf s b).take j := by
      rw [List.prefix_iff_eq_take.1 hpre, List.take_take, min_eq_left hj]
    rw [htake]
    exact (codeOf_follow h2 ht hb).2 j (by omega)
  cases p with
  | nil => exact absurd rfl hne
  | cons x p =>
    have hchild : (nodeAt s.node (child s.node s.root x)).leaf = false := hinternal 1 (by simp)
    rw [walk]
    refine (if_neg (by rw [← child, hchild]; decide)).trans ?_
    exact walk_partial s.node s.root cap p .descending _ _ _ _ rfl fun j _ hj => hinternal (j + 1) (by simpa using hj)

/-- WALK over a code fails at its last bit when OUT_MEM is full (45_decoder.md R221). -/
theorem walk_code_of_full {b : Byte} {p : Bits} (hb : tableAt s.freq b ≠ 0) (hpre : codeOf s b <+: p)
    (cap start i : Nat) :
    walk s.node s.root cap p .atRoot s.root start i cap = .error (.capacity, i + (codeOf s b).length - 1) := by
  obtain ⟨rest, rfl⟩ := hpre
  obtain ⟨hleaf, hinternal⟩ := codeOf_follow h2 ht hb
  rw [walk_code _ _ _ _ _ (codeOf_ne_nil (by omega) ht hb) _ _ _ _ _ hleaf fun j _ hj => hinternal j hj, if_pos rfl]

end

/-- Settles O47: WALK passes the codes of `out`, and fails in the code of b. -/
theorem unpackWalkErrors : Obligations.UnpackWalkErrors := by
  unfold Obligations.UnpackWalkErrors
  intro s out b p hinv htree h2 hpad hne hle hout hb hbits
  obtain ⟨-, ht⟩ := hinv htree
  refine ⟨fun hfit hp hpre hpart => ?_, fun hfull hpre => ?_⟩
  · refine unpack_failedWith hpad hne hle htree ?_ (by simp [hbits])
    rw [hbits]
    exact decodeBits_codes_error h2 ht hout hfit (walk_unfinished_code h2 ht hb hp hpre hpart _ _ _ _)
  · have hlen := hpre.length_le
    refine unpack_failedWith hpad hne hle htree ?_ (by rw [hbits, List.length_append]; omega)
    rw [hbits]
    refine decodeBits_codes_error h2 ht hout hfull.le ?_
    rw [hfull]
    exact walk_code_of_full h2 ht hb hpre _ _ _

/-! ## Decoding exactly the codes -/

section
variable {s : State} (hn : nsym s.freq ≠ 0) (ht : treeTables s = buildTree s.freq)
include hn ht

/-- UNPACK's machine decodes the codes of bytes that fit to these bytes (45_decoder.md R226). -/
theorem decodeBits_codes {out : List Byte} (hout : ∀ b ∈ out, tableAt s.freq b ≠ 0)
    (hfit : out.length ≤ s.params.outCap.val) : decodeBits s (out.flatMap (codeOf s)) = .ok out := by
  by_cases h1 : nsym s.freq = 1
  · have hsym : out = List.replicate out.length (nodeAt s.node s.root).sym :=
      List.eq_replicate_of_mem fun b hb => (present_iff_of_single h1 ht).1 (hout b hb)
    rw [decodeBits_of_leaf ((rootLeaf_iff hn ht).2 h1), hsym, flatMap_codeOf_of_single h1 ht,
      ← List.append_nil (List.replicate _ false), walk1_zeros _ _ _ _ _ _ (by omega), walk1]
    exact congrArg _ (List.append_nil _)
  · have h2 : 2 ≤ nsym s.freq := by omega
    rw [decodeBits_of_internal (rootInternal_of_two_le h2 ht), ← List.append_nil (List.flatMap _ _),
      walk_codes h2 ht _ _ hout _ _ _ _ (by omega)]
    simp [walk]

/-- Bits that UNPACK's machine decodes are the codes of the bytes it emits (45_decoder.md R226). -/
theorem codes_of_decodeBits {bits : Bits} {out : List Byte} (h : decodeBits s bits = .ok out) :
    (∀ b ∈ out, tableAt s.freq b ≠ 0) ∧ bits = out.flatMap (codeOf s) := by
  by_cases h1 : nsym s.freq = 1
  · rw [decodeBits_of_leaf ((rootLeaf_iff hn ht).2 h1)] at h
    obtain ⟨hbits, hsym, -⟩ := walk1_conv _ _ _ _ _ _ (Nat.zero_le _) h
    constructor
    · rw [hsym]
      exact fun b hb => (present_iff_of_single h1 ht).2 (List.eq_of_mem_replicate hb)
    · rw [hbits, hsym, flatMap_codeOf_of_single h1 ht, List.length_replicate]
  · have h2 : 2 ≤ nsym s.freq := by omega
    have hroot := rootInternal_of_two_le h2 ht
    rw [decodeBits_of_internal hroot] at h
    obtain ⟨hout, hbits, -⟩ := walk_conv h2 ht _ bits [] .atRoot _ _ _ out (Nat.zero_le _) (by simp)
      (fun j _ => by rwa [List.take_nil]) h
    exact ⟨hout, hbits⟩

end

/-- OUT_LEN has room for an output that fits (10_state.md R31, 00_scope.md R7). -/
theorem unpacked_outLen_toNat {s : State} {out : List Byte} (hfit : out.length ≤ s.params.outCap.val) :
    (unpacked s out).outLen.toNat = out.length := by
  have hcap := s.params.outCap.le
  rw [unpacked_outLen, BitVec.toNat_ofNat, Nat.mod_eq_of_lt (by omega)]

/-- Settles O45: the machine decodes the codes of `out` to `out`, which UNPACK writes. -/
theorem unpackDecodesConcatenatedCodes : Obligations.UnpackDecodesConcatenatedCodes := by
  unfold Obligations.UnpackDecodesConcatenatedCodes
  intro s out hinv htree hpad hne hle hout hfit hbits
  obtain ⟨hn, ht⟩ := hinv htree
  obtain ⟨hholds, hsame⟩ := holds_writeBytes s.outMem out
  rw [exec_eq_ruleOf, ruleOf,
    cmdUnpack_of_decoded hpad hne hle htree ((congrArg _ hbits).trans (decodeBits_codes hn ht hout hfit))]
  exact ⟨_, rfl, succeeded_complete_ok rfl, unpacked_outLen_toNat (s := afterPayload s) hfit, hholds, hsame, rfl⟩

/-- How UNPACK succeeds: there are no payload bytes, or its machine decodes their bits (45_decoder.md R220). -/
theorem cmdUnpack_ok {s u : State} (h : cmdUnpack s = .ok u) :
    (s.payLen = 0 ∧ u = { s with outLen := 0 })
      ∨ ∃ out, decodeBits s (unpaddedBits (payloadBytes s) s.pad.toNat) = .ok out
        ∧ u = unpacked (afterPayload s) out := by
  unfold cmdUnpack at h
  split_ifs at h with hpad hlong hmal hbits htree
  · cases h
  · cases h
  · cases h
  · cases h
    exact .inl ⟨BitVec.eq_of_toNat_eq (by simp; omega), rfl⟩
  · cases h
  · split at h
    · cases h
    · next out hout =>
      cases h
      exact .inr ⟨out, hout, rfl⟩

/-- What UNPACK without an error read and wrote: the codes of the bytes in OUT_MEM (45_decoder.md R226). -/
theorem exec_unpack_ok {s t : State} (hn : nsym s.freq ≠ 0) (ht : treeTables s = buildTree s.freq)
    (h : exec .unpack s = .next t) (hok : t.status.err = false) :
    ∃ out, (∀ b ∈ out, tableAt s.freq b ≠ 0)
      ∧ unpaddedBits (payloadBytes s) s.pad.toNat = out.flatMap (codeOf s)
      ∧ t.outLen.toNat = out.length ∧ Holds t.outMem out := by
  rw [exec_eq_ruleOf] at h
  obtain rfl := next_inj h
  obtain ⟨u, hu⟩ := complete_err_false hok
  rw [hu]
  obtain ⟨hempty, rfl⟩ | ⟨out, hdecode, rfl⟩ := cmdUnpack_ok hu
  · have hbits := unpaddedBits_length_le s s.pad.toNat
    rw [hempty] at hbits
    exact ⟨[], List.forall_mem_nil _, List.eq_nil_of_length_eq_zero (Nat.le_zero.1 hbits), rfl,
      fun k hk => absurd hk (Nat.not_lt_zero k)⟩
  · obtain ⟨hout, hbits⟩ := codes_of_decodeBits hn ht hdecode
    exact ⟨out, hout, hbits, unpacked_outLen_toNat (s := afterPayload s) (decodeBits_length_le hdecode),
      (holds_writeBytes s.outMem out).1⟩

/-- Settles O46: the machine emits the bytes whose codes it reads, and a concatenation of codes determines them. -/
theorem unpackSucceedsOnlyOnCodes : Obligations.UnpackSucceedsOnlyOnCodes := by
  unfold Obligations.UnpackSucceedsOnlyOnCodes
  intro s t hinv htree hexec hok
  obtain ⟨hn, ht⟩ := hinv htree
  obtain ⟨out, hout, hbits, hlen, hholds⟩ := exec_unpack_ok hn ht hexec hok
  exact ⟨out, hout, hbits, hlen, hholds, fun out' hout' h => flatMap_codeOf_injective hn ht hout hout' h⟩

end Sys2Proof.Machine
end

section
/-! PROOFS. The composite commands (46_composite.md): what ENCODE writes and how it fails on a written input, what
DECODE writes for a container of codes, and the round trip. -/

namespace Sys2Proof.Machine

/-! ## A composite's frame -/

/-- The fields the command frame leaves out are those a composite may change (46_composite.md R240, R241). -/
theorem CommandFrame.eq_update {s t : State} (h : CommandFrame s t) :
    t = { s with
      engine := t.engine, status := t.status, errInfo := t.errInfo, freq := t.freq, treeValid := t.treeValid,
      node := t.node, root := t.root, nnodes := t.nnodes, codeLen := t.codeLen, codeBits := t.codeBits,
      payMem := t.payMem, payLen := t.payLen, pad := t.pad, outMem := t.outMem, outLen := t.outLen,
      draws := t.draws } := by
  obtain ⟨hparams, -, -, hirqEn, hinLen, hinMem, hrst, hresp, hhost, hscript⟩ := h
  rw [← hparams, ← hirqEn, ← hinLen, ← hinMem, ← hrst, ← hresp, ← hhost, ← hscript]

/-- A rule that ends with its effects applied succeeds, and its completion keeps the command frame
(40_command_dispatch.md R113). -/
theorem succeeded_of_rule {i : Instr} {s u : State} (h : ruleOf i s = .ok u) :
    Succeeded s (complete (.ok u)) ∧ CommandFrame s (complete (.ok u)) := by
  have hframe : CommandFrame s u := by
    have := ruleOf_commandFrame i s
    rwa [h] at this
  refine ⟨⟨rfl, rfl, ?_⟩, hframe.trans (complete_commandFrame (.ok u))⟩
  rw [complete_ok_status, ← hframe.lastOp, ← hframe.ovr]

/-! ## BUILD as a sub-command -/

/-- The tables BUILD leaves as a sub-command, which is skipped without a present symbol (46_composite.md R240, R241). -/
def treedTables (s : State) : TreeTables := if nsym s.freq = 0 then treeTables s else buildTree s.freq

/-- The state BUILD leaves as a sub-command (46_composite.md R240, R241), written so that every field it keeps is that
of `s` by definition. -/
def treed (s : State) : State :=
  { installTree s (treedTables s) with treeValid := s.treeValid || decide (nsym s.freq ≠ 0) }

section
variable {s : State}

theorem treed_of_empty (h : nsym s.freq = 0) : treed s = s := by
  simp [treed, treedTables, h, installTree, treeTables]

theorem treed_of_present (h : nsym s.freq ≠ 0) : treed s = installTree s (buildTree s.freq) := by
  simp [treed, treedTables, h, installTree]

end

/-- The tables of a state a tree was installed in are the tree's (42_tree_builder.md R144, R147). -/
theorem treeTables_installTree (s : State) (t : TreeTables) : treeTables (installTree s t) = t := rfl

/-- BUILD as a sub-command cannot fail (46_composite.md R240, R241). -/
theorem buildIfAny_eq_treed (s : State) : buildIfAny s = .ok (treed s) := by
  by_cases h : nsym s.freq = 0
  · rw [buildIfAny, if_neg (not_not.2 h), treed_of_empty h]
  · rw [buildIfAny, if_pos h, cmdBuild, if_neg h, treed_of_present h]

/-! ## The container of an input

ENCODE's container is a function of the input bytes alone (46_composite.md R243). -/

/-- The codes of the bytes of an input, in order, under the tree of its counts. Only the tables of the state they are
read in matter, so the other fields are those of reset. -/
def encodedBits (bytes : List Byte) : Bits :=
  bytes.flatMap (codeOf (installTree State.reset (buildTree (countTable bytes))))

theorem flatMap_codeOf_installTree (s : State) (bytes : List Byte) :
    bytes.flatMap (codeOf (installTree s (buildTree (countTable bytes)))) = encodedBits bytes := rfl

/-- The number of payload bytes these codes need (43_bit_packer.md R170). -/
def encodedLength (bytes : List Byte) : Nat := bytesFor (encodedBits bytes).length

/-- The container ENCODE writes for an input (46_composite.md R240). -/
def encodedContainer (bytes : List Byte) : Container where
  table := tableOfFreq (countTable bytes)
  pad := BitVec.ofNat 8 (8 * encodedLength bytes - (encodedBits bytes).length)
  payload := packBits (encodedBits bytes) (encodedLength bytes)

/-- `total` of PACK inside ENCODE (43_bit_packer.md R170). -/
theorem encodedBits_length (bytes : List Byte) :
    (encodedBits bytes).length = totalBits (buildTree (countTable bytes)).codeLen bytes :=
  codeBits_length _ bytes

/-- The state PACK starts from inside ENCODE: counted, and with its tree where there is one (46_composite.md R240). -/
def coded (s : State) : State := treed (counted s)

/-- The state SERIALIZE starts from inside ENCODE (46_composite.md R240). -/
def packedInput (s : State) : State := packed (coded s) (inputBytes s)

section
variable {s : State}

theorem inputBytes_eq_nil : inputBytes s = [] ↔ s.inLen = 0 := by
  rw [← List.length_eq_zero_iff, inputBytes_length]
  exact BitVec.toNat_inj (y := 0)

/-- ENCODE's table is empty exactly for an empty input (46_composite.md R240). -/
theorem nsym_counted : nsym (counted s).freq = 0 ↔ inputBytes s = [] := nsym_countTable (inputBytes_length_lt s)

theorem coded_of_empty (h : inputBytes s = []) : coded s = counted s := treed_of_empty (nsym_counted.2 h)

theorem coded_of_nonempty (h : inputBytes s ≠ []) :
    coded s = installTree (counted s) (buildTree (countTable (inputBytes s))) :=
  treed_of_present (mt nsym_counted.1 h)

/-! What COUNT and BUILD leave in the fields that PACK and SERIALIZE read (46_composite.md R240). -/

theorem coded_params : (coded s).params = s.params := by simp [coded, treed, counted]
theorem coded_inLen : (coded s).inLen = s.inLen := by simp [coded, treed, counted]
theorem coded_freq : (coded s).freq = countTable (inputBytes s) := by simp [coded, treed, counted]
theorem coded_inMem : (coded s).inMem = s.inMem := by simp [coded, treed, counted]
theorem coded_payMem : (coded s).payMem = s.payMem := by simp [coded, treed, counted]
theorem coded_outMem : (coded s).outMem = s.outMem := by simp [coded, treed, counted]
theorem coded_draws : (coded s).draws = (afterInput s).draws := by simp [coded, treed, counted]

/-- PACK inside ENCODE packs the codes of the input's own tree; an empty input has none (46_composite.md R240). -/
theorem codeBitsOf_coded : codeBitsOf (coded s) (inputBytes s) = encodedBits (inputBytes s) := by
  by_cases h : inputBytes s = []
  · rw [h, codeBitsOf, encodedBits, List.flatMap_nil, List.flatMap_nil]
  · rw [coded_of_nonempty h, codeBitsOf, flatMap_codeOf_installTree]

theorem totalBits_coded : totalBits (coded s).codeLen (inputBytes s) = (encodedBits (inputBytes s)).length := by
  rw [← codeBits_length, ← codeBitsOf_coded, codeBitsOf]

/-- Every byte of the input has a code under the tree of its counts (42_tree_builder.md R146, R148). -/
theorem codeLenAt_coded_ne_zero {b : Byte} (hb : b ∈ inputBytes s) : codeLenAt (coded s).codeLen b ≠ 0 := by
  have hne := List.ne_nil_of_mem hb
  have hpresent : tableAt (counted s).freq b ≠ 0 := (countTable_ne_zero (inputBytes_length_lt s) b).2 hb
  rw [← codeOf_len, Ne, List.length_eq_zero_iff, coded_of_nonempty hne]
  exact codeOf_ne_nil (s := installTree (counted s) _) (mt nsym_counted.1 hne) (treeTables_installTree _ _) hpresent

theorem packedInput_payMem :
    (packedInput s).payMem = s.payMem.writeBytes 0 (encodedContainer (inputBytes s)).payload := by
  rw [packedInput, packed_payMem, codeBitsOf_coded, totalBits_coded, coded_payMem]
  rfl

section
variable (hfit : encodedLength (inputBytes s) ≤ s.params.payCap.val)
include hfit

theorem totalBits_coded_fits :
    bytesFor (totalBits (coded s).codeLen (inputBytes s)) ≤ (coded s).params.payCap.val := by
  rwa [totalBits_coded]

theorem packedInput_payLen_toNat : (packedInput s).payLen.toNat = encodedLength (inputBytes s) := by
  rw [packedInput, packed_payLen_toNat (totalBits_coded_fits hfit), totalBits_coded]
  rfl

/-- The container SERIALIZE writes inside ENCODE is the container of the input (46_composite.md R240, R243). -/
theorem containerOf_packedInput : containerOf (packedInput s) = encodedContainer (inputBytes s) := by
  have hlt := bytesFor_lt_of_fits (totalBits_coded_fits hfit)
  have hpayload : payloadBytes (packedInput s) = packBits (codeBitsOf (coded s) (inputBytes s))
      (bytesFor (totalBits (coded s).codeLen (inputBytes s))) :=
    payloadBytes_packed _ _ hlt _ (packed_payMem _ _) (packed_payLen _ _)
  rw [containerOf, hpayload, packedInput, packed_pad, totalBits_coded, codeBitsOf_coded]
  rfl

theorem packedInput_pad : (packedInput s).pad = (encodedContainer (inputBytes s)).pad :=
  congrArg Container.pad (containerOf_packedInput hfit)

theorem serialized_packedInput_outMem :
    (serialized (packedInput s)).outMem = s.outMem.writeBytes 0 (containerBytes (encodedContainer (inputBytes s))) := by
  rw [serialized_outMem, ← containerOf_packedInput hfit, packedInput, packed_outMem, coded_outMem]

theorem containerSize_packedInput :
    containerSize (packedInput s) = (containerBytes (encodedContainer (inputBytes s))).length := by
  rw [← containerBytes_containerOf_length, containerOf_packedInput hfit]

/-- PACK's result passes SERIALIZE's checks of PAD and PAY_LEN (44_container_codec.md R192). -/
theorem packedInput_consistent :
    (packedInput s).pad.toNat ≤ 7
      ∧ (nsym (packedInput s).freq = 0 → (packedInput s).payLen = 0 ∧ (packedInput s).pad = 0)
      ∧ ((packedInput s).payLen = 0 → (packedInput s).pad = 0) := by
  have hlen := packed_payLen_toNat (totalBits_coded_fits hfit)
  have hpad := packed_pad_toNat (coded s) (inputBytes s)
  refine ⟨hpad.trans_le (eight_mul_bytesFor_sub_le _), fun hn => ?_, fun hz => BitVec.eq_of_toNat_eq ?_⟩
  · rw [packedInput, nsym_counted.1 hn, packed_nil]
    exact ⟨rfl, rfl⟩
  · have hzero : bytesFor (totalBits (coded s).codeLen (inputBytes s)) = 0 :=
      hlen.symm.trans (congrArg BitVec.toNat hz)
    rw [hzero, Nat.mul_zero, Nat.zero_sub] at hpad
    exact hpad

theorem encodedContainer_wf : (encodedContainer (inputBytes s)).wf := by
  obtain ⟨hpad, hempty, hnopay⟩ := packedInput_consistent hfit
  rw [← containerOf_packedInput hfit]
  exact containerOf_wf hpad hempty hnopay

/-- SERIALIZE inside ENCODE compares the container's size with OUT_CAP only (44_container_codec.md R192). -/
theorem cmdSerialize_packedInput :
    cmdSerialize (packedInput s) =
      if (containerBytes (encodedContainer (inputBytes s))).length > s.params.outCap.val then
        raise .capacity (containerBytes (encodedContainer (inputBytes s))).length (packedInput s)
      else .ok (serialized (packedInput s)) := by
  obtain ⟨hpad, hempty, hnopay⟩ := packedInput_consistent hfit
  have hpay : (packedInput s).payLen.toNat ≤ (packedInput s).params.payCap.val := by
    rwa [packedInput_payLen_toNat hfit]
  rw [cmdSerialize_checked hpad hpay hempty hnopay, containerSize_packedInput hfit]
  rfl

/-- OUT_LEN after ENCODE is the size of the input's container (44_container_codec.md R192). -/
theorem serialized_packedInput_outLen :
    (serialized (packedInput s)).outLen.toNat = (containerBytes (encodedContainer (inputBytes s))).length := by
  rw [serialized_outLen_toNat, containerSize_packedInput hfit]
  rwa [packedInput_payLen_toNat hfit]

end

/-! ## ENCODE -/

/-- ENCODE of too long an input (46_composite.md R240, 60_exceptions.md R255). -/
theorem cmdEncode_of_gt (h : s.params.inCap.val < s.inLen.toNat) : cmdEncode s = raise .capacity s.inLen.toNat s := by
  rw [cmdEncode, cmdCount_of_gt h]
  rfl

section
variable (hwritten : InputWritten s) (hle : s.inLen.toNat ≤ s.params.inCap.val)
include hwritten

/-- PACK inside ENCODE reads the input that COUNT read (46_composite.md R240, 20_memory.md R71). -/
theorem inputBytes_coded : inputBytes (coded s) = inputBytes s := by
  rw [inputBytes, coded_inMem, coded_inLen, coded_draws, afterInput_written hwritten, inputBytes]

include hle

/-- PACK inside ENCODE compares the payload's size with PAY_CAP only: there is a tree, and every byte has a code
(43_bit_packer.md R170, 46_composite.md R240). -/
theorem cmdPack_coded :
    cmdPack (coded s) =
      if encodedLength (inputBytes s) > s.params.payCap.val then
        raise .capacity (encodedLength (inputBytes s)) (coded s)
      else .ok (packedInput s) := by
  by_cases h : inputBytes s = []
  · have hfit : ¬encodedLength (inputBytes s) > s.params.payCap.val := by
      rw [h]
      exact Nat.not_lt_zero _
    have hempty : (coded s).inLen = 0 := by rwa [coded_inLen, ← inputBytes_eq_nil]
    rw [cmdPack_of_empty hempty, if_neg hfit, packedInput, h, packed_nil]
  · have hle' : (coded s).inLen.toNat ≤ (coded s).params.inCap.val := by rwa [coded_inLen, coded_params]
    have hne : (coded s).inLen ≠ 0 := by rwa [coded_inLen, Ne, ← inputBytes_eq_nil]
    have htree : (coded s).treeValid = true := by rw [coded_of_nonempty h, installTree_treeValid]
    have hcoded : ∀ b ∈ inputBytes (coded s), codeLenAt (coded s).codeLen b ≠ 0 := by
      rw [inputBytes_coded hwritten]
      exact fun b => codeLenAt_coded_ne_zero
    have hwritten' : InputWritten (coded s) := by rwa [InputWritten, coded_inMem, coded_inLen]
    rw [cmdPack_of_coded hle' hne htree hcoded, inputBytes_coded hwritten, totalBits_coded,
      afterInput_written hwritten', coded_params]
    rfl

/-- ENCODE of a written input that COUNT accepts: the payload's size, then the container's, decides whether it succeeds
(46_composite.md R240, R243). -/
theorem cmdEncode_of_written :
    cmdEncode s =
      if encodedLength (inputBytes s) > s.params.payCap.val then
        raise .capacity (encodedLength (inputBytes s)) (coded s)
      else if (containerBytes (encodedContainer (inputBytes s))).length > s.params.outCap.val then
        raise .capacity (containerBytes (encodedContainer (inputBytes s))).length (packedInput s)
      else .ok (serialized (packedInput s)) := by
  rw [cmdEncode, cmdCount_of_le hle, andThen_ok, buildIfAny_eq_treed, andThen_ok, ← coded, cmdPack_coded hwritten hle]
  split_ifs with hpay hout
  · rfl
  · rw [andThen_ok, cmdSerialize_packedInput (Nat.not_lt.1 hpay), if_pos hout]
  · rw [andThen_ok, cmdSerialize_packedInput (Nat.not_lt.1 hpay), if_neg hout]

end

end

/-- The size of an input's container (44_container_codec.md R195). -/
theorem containerBytes_encodedContainer_length (bytes : List Byte) :
    (containerBytes (encodedContainer bytes)).length = 5 + 5 * nsym (countTable bytes) + encodedLength bytes := by
  rw [containerBytes_length, encodedContainer, tableOfFreq_length, packBits_length]

theorem encodedContainer_pad_toNat (bytes : List Byte) :
    (encodedContainer bytes).pad.toNat = 8 * encodedLength bytes - (encodedBits bytes).length := by
  have hpad : 8 * encodedLength bytes - (encodedBits bytes).length ≤ 7 := eight_mul_bytesFor_sub_le _
  rw [encodedContainer, BitVec.toNat_ofNat, Nat.mod_eq_of_lt (by omega)]

/-- The payload of an input's container is its code bits, expanded and trimmed (43_bit_packer.md R175). -/
theorem unpaddedBits_encodedContainer (bytes : List Byte) :
    unpaddedBits (encodedContainer bytes).payload (encodedContainer bytes).pad.toNat = encodedBits bytes := by
  rw [encodedContainer_pad_toNat]
  exact unpaddedBits_packBits _ _ (le_eight_mul_bytesFor _)

/-! ## ENCODE's obligations -/

/-- What ENCODE leaves of an input that fits (46_composite.md R240). -/
structure Encoded (s t : State) : Prop where
  freq : t.freq = countTable (inputBytes s)
  tree : inputBytes s ≠ [] → t.treeValid = true ∧ treeTables t = buildTree (countTable (inputBytes s))
  noTree : inputBytes s = [] → t.treeValid = false
  codes : (inputBytes s).flatMap (codeOf t) = encodedBits (inputBytes s)
  pad : t.pad = (encodedContainer (inputBytes s)).pad
  payLen : t.payLen.toNat = encodedLength (inputBytes s)
  payHeld : Holds t.payMem (encodedContainer (inputBytes s)).payload
  paySame : SameFrom (encodedLength (inputBytes s)) s.payMem t.payMem
  outLen : t.outLen.toNat = (containerBytes (encodedContainer (inputBytes s))).length
  outHeld : Holds t.outMem (containerBytes (encodedContainer (inputBytes s)))
  outSame : SameFrom (containerBytes (encodedContainer (inputBytes s))).length s.outMem t.outMem

theorem encodedContainer_payload_length (bytes : List Byte) :
    (encodedContainer bytes).payload.length = encodedLength bytes := packBits_length ..

/-- The payload that stands written is the one the container holds (46_composite.md R240). -/
theorem Encoded.payload {s t : State} (h : Encoded s t) :
    payloadBytes t = (encodedContainer (inputBytes s)).payload :=
  (payloadBytes_of_holds h.payHeld (h.payLen.trans (encodedContainer_payload_length _).symm)).1

/-- PACK and SERIALIZE keep the tables. -/
theorem treeTables_serialized_packed (p : State) (bs : List Byte) :
    treeTables (complete (.ok (serialized (packed p bs)))) = treeTables p := rfl

/-- PACK and SERIALIZE keep the codes. -/
theorem codeOf_serialized_packed (p : State) (bs : List Byte) :
    codeOf (complete (.ok (serialized (packed p bs)))) = codeOf p := rfl

theorem encoded_complete {s : State} (hfit : encodedLength (inputBytes s) ≤ s.params.payCap.val) :
    Encoded s (complete (.ok (serialized (packedInput s)))) where
  freq := by
    rw [complete_ok_freq, serialized_freq, packedInput, packed_freq, coded_freq]
  tree h := by
    rw [complete_ok_treeValid, serialized_treeValid, packedInput, packed_treeValid, treeTables_serialized_packed,
      coded_of_nonempty h, treeTables_installTree]
    exact ⟨installTree_treeValid _ _, rfl⟩
  noTree h := by
    rw [complete_ok_treeValid, serialized_treeValid, packedInput, packed_treeValid, coded_of_empty h, counted]
  codes := by
    rw [packedInput, codeOf_serialized_packed, ← codeBitsOf_coded, codeBitsOf]
  pad := by
    rw [complete_ok_pad, serialized_pad, packedInput_pad hfit]
  payLen := by
    rw [complete_ok_payLen, serialized_payLen, packedInput_payLen_toNat hfit]
  payHeld := by
    rw [complete_ok_payMem, serialized_payMem, packedInput_payMem]
    exact (holds_writeBytes s.payMem _).1
  paySame := by
    rw [complete_ok_payMem, serialized_payMem, packedInput_payMem, ← encodedContainer_payload_length]
    exact (holds_writeBytes s.payMem _).2
  outLen := by
    rw [complete_ok_outLen, serialized_packedInput_outLen hfit]
  outHeld := by
    rw [complete_ok_outMem, serialized_packedInput_outMem hfit]
    exact (holds_writeBytes s.outMem _).1
  outSame := by
    rw [complete_ok_outMem, serialized_packedInput_outMem hfit]
    exact (holds_writeBytes s.outMem _).2

/-- ENCODE of a written input whose payload and container fit (46_composite.md R240). -/
theorem exec_encode_of_fits {s : State} (hwritten : InputWritten s) (hle : s.inLen.toNat ≤ s.params.inCap.val)
    (hpay : encodedLength (inputBytes s) ≤ s.params.payCap.val)
    (hout : (containerBytes (encodedContainer (inputBytes s))).length ≤ s.params.outCap.val) :
    ∃ t, exec .encode s = .next t ∧ Succeeded s t ∧ CommandFrame s t ∧ Encoded s t := by
  have hrule : ruleOf .encode s = .ok (serialized (packedInput s)) := by
    rw [ruleOf, cmdEncode_of_written hwritten hle, if_neg (Nat.not_lt.2 hpay), if_neg (Nat.not_lt.2 hout)]
  obtain ⟨hok, hframe⟩ := succeeded_of_rule hrule
  exact ⟨_, by rw [exec_eq_ruleOf, hrule], hok, hframe, encoded_complete hpay⟩

/-- ENCODE without an error had an input that fits, and encoded it (46_composite.md R240). -/
theorem exec_encode_ok {s t : State} (hwritten : InputWritten s) (h : exec .encode s = .next t)
    (hok : t.status.err = false) : Encoded s t ∧ encodedLength (inputBytes s) ≤ s.params.payCap.val := by
  rw [exec_eq_ruleOf, ruleOf] at h
  obtain rfl := next_inj h
  obtain ⟨u, hu⟩ := complete_err_false hok
  rw [hu]
  by_cases hle : s.inLen.toNat ≤ s.params.inCap.val
  · rw [cmdEncode_of_written hwritten hle] at hu
    split_ifs at hu with hpay hout
    · cases hu
    · cases hu
    · cases hu
      exact ⟨encoded_complete (Nat.not_lt.1 hpay), Nat.not_lt.1 hpay⟩
  · rw [cmdEncode_of_gt (Nat.not_le.1 hle)] at hu
    cases hu

/-- Settles O51: SERIALIZE finds the input's counts, tree and packed code bits, which its container holds. -/
theorem encodeWritesTheContainerOfTheInput : Obligations.EncodeWritesTheContainerOfTheInput := by
  unfold Obligations.EncodeWritesTheContainerOfTheInput
  rintro s f total hle hwritten rfl htotal hpay hout
  rw [← encodedBits_length] at htotal
  subst htotal
  change encodedLength (inputBytes s) ≤ _ at hpay
  change _ + encodedLength (inputBytes s) ≤ _ at hout
  rw [← containerBytes_encodedContainer_length] at hout
  obtain ⟨t, hexec, hok, hframe, henc⟩ := exec_encode_of_fits hwritten hle hpay hout
  refine ⟨t, hexec, hok, henc.freq, fun hne => henc.tree (mt inputBytes_eq_nil.1 hne), ?_, fun _ => ⟨henc.payLen, ?_⟩,
    fun hempty => ?_, ?_, ?_, ?_, ?_, hframe.eq_update⟩
  · rw [henc.payload, henc.pad, unpaddedBits_encodedContainer, henc.codes]
  · rw [henc.pad, encodedContainer_pad_toNat]
    rfl
  · rw [← inputBytes_eq_nil] at hempty
    have hpayLen := henc.payLen
    rw [hempty] at hpayLen
    refine ⟨henc.noTree hempty, BitVec.eq_of_toNat_eq hpayLen, ?_⟩
    rw [henc.pad, hempty]
    rfl
  · rw [henc.outLen, containerBytes_encodedContainer_length, henc.payLen]
  · rw [henc.payload, henc.pad]
    exact henc.outHeld
  · rw [henc.payLen]
    exact henc.paySame
  · rw [henc.outLen]
    exact henc.outSame

/-- The error a rule raises, if any, with its information value (00_scope.md R14). -/
def CmdResult.error : CmdResult → Option (Err × Word)
  | .ok _ => none
  | .raised e info _ => some (e, info)

/-- What completion reports is the error of the rule (40_command_dispatch.md R113). -/
theorem complete_reports (r : CmdResult) :
    (complete r).status.errcode = r.error.map Prod.fst ∧ (complete r).status.err = r.error.isSome
      ∧ (complete r).errInfo = (r.error.map Prod.snd).getD 0 := by
  cases r with
  | ok s => exact ⟨rfl, rfl, rfl⟩
  | raised e info s => exact ⟨rfl, rfl, rfl⟩

theorem error_raise (e : Err) (info : Nat) (s : State) : (raise e info s).error = some (e, BitVec.ofNat 32 info) := rfl
theorem error_ok (s : State) : (CmdResult.ok s).error = none := rfl

/-- The error of ENCODE as a function of the capacities and of the input bytes (46_composite.md R240, R243). -/
def encodeError (p : Params) (bytes : List Byte) : Option (Err × Word) :=
  if bytes.length > p.inCap.val then some (.capacity, BitVec.ofNat 32 bytes.length)
  else if encodedLength bytes > p.payCap.val then some (.capacity, BitVec.ofNat 32 (encodedLength bytes))
  else if (containerBytes (encodedContainer bytes)).length > p.outCap.val then
    some (.capacity, BitVec.ofNat 32 (containerBytes (encodedContainer bytes)).length)
  else none

theorem encodeError_cases (p : Params) (bytes : List Byte) :
    encodeError p bytes = none ∨ ∃ info, encodeError p bytes = some (.capacity, info) := by
  unfold encodeError
  split_ifs
  · exact .inr ⟨_, rfl⟩
  · exact .inr ⟨_, rfl⟩
  · exact .inr ⟨_, rfl⟩
  · exact .inl rfl

theorem cmdEncode_error {s : State} (hwritten : InputWritten s) :
    (cmdEncode s).error = encodeError s.params (inputBytes s) := by
  rw [encodeError, inputBytes_length]
  by_cases hle : s.inLen.toNat ≤ s.params.inCap.val
  · rw [cmdEncode_of_written hwritten hle, if_neg (Nat.not_lt.2 hle)]
    split_ifs
    · exact error_raise ..
    · exact error_raise ..
    · exact error_ok _
  · rw [cmdEncode_of_gt (Nat.not_le.1 hle), if_pos (Nat.not_le.1 hle), error_raise]

/-- What ENCODE of a written input reports is a function of the capacities and of the input (46_composite.md R243). -/
theorem exec_encode_reports {s t : State} (hwritten : InputWritten s) (h : exec .encode s = .next t) :
    t.status.errcode = (encodeError s.params (inputBytes s)).map Prod.fst
      ∧ t.status.err = (encodeError s.params (inputBytes s)).isSome
      ∧ t.errInfo = ((encodeError s.params (inputBytes s)).map Prod.snd).getD 0 := by
  rw [exec_eq_ruleOf, ruleOf] at h
  rw [← next_inj h, ← cmdEncode_error hwritten]
  exact complete_reports (cmdEncode s)

/-- Settles O52: the input alone decides each of ENCODE's comparisons with the capacities, and the container. -/
theorem encodeIsDeterministic : Obligations.EncodeIsDeterministic := by
  unfold Obligations.EncodeIsDeterministic
  refine ⟨fun s t hwritten hexec => ?_, fun s s' t t' hwritten hwritten' hbytes hparams hexec hexec' => ?_⟩
  · rw [(exec_encode_reports hwritten hexec).1]
    obtain h | ⟨info, h⟩ := encodeError_cases s.params (inputBytes s)
    · rw [h]
      exact .inl rfl
    · rw [h]
      exact .inr rfl
  · obtain ⟨hcode, herr, hinfo⟩ := exec_encode_reports hwritten hexec
    obtain ⟨hcode', herr', hinfo'⟩ := exec_encode_reports hwritten' hexec'
    rw [hbytes, hparams] at hcode herr hinfo
    refine ⟨hcode.trans hcode'.symm, hinfo.trans hinfo'.symm, fun hok => ?_⟩
    have henc := (exec_encode_ok hwritten hexec hok).1
    have henc' := (exec_encode_ok hwritten' hexec' (herr'.trans (herr.symm.trans hok))).1
    have hlen := henc.outLen
    have hheld := henc.outHeld
    rw [hbytes] at hlen hheld
    refine ⟨BitVec.eq_of_toNat_eq (hlen.trans henc'.outLen.symm), fun k hk => ?_⟩
    rw [hlen] at hk
    rw [hheld k hk, henc'.outHeld k hk]

/-! ## DECODE -/

/-- UNPACK of no payload bytes writes no bytes (45_decoder.md R220). -/
theorem cmdUnpack_of_nil {p : State} (hlen : p.payLen = 0) (hpad : p.pad = 0) :
    cmdUnpack p = .ok (unpacked (afterPayload p) []) := by
  have hwritten : PayloadWritten p := by simp [PayloadWritten, hlen, Memory.written]
  rw [cmdUnpack_of_empty hlen hpad, afterPayload_written hwritten]
  rfl

/-- UNPACK of a payload that is the codes of `out` under the current tree writes `out`, no payload bytes included
(45_decoder.md R226). -/
theorem cmdUnpack_of_codes {p : State} {out : List Byte} (hn : nsym p.freq ≠ 0) (hvalid : p.treeValid = true)
    (ht : treeTables p = buildTree p.freq) (hpad : p.pad.toNat ≤ 7) (hnopay : p.payLen = 0 → p.pad = 0)
    (hle : p.payLen.toNat ≤ p.params.payCap.val) (hout : ∀ b ∈ out, tableAt p.freq b ≠ 0)
    (hfit : out.length ≤ p.params.outCap.val)
    (hbits : unpaddedBits (payloadBytes p) p.pad.toNat = out.flatMap (codeOf p)) :
    cmdUnpack p = .ok (unpacked (afterPayload p) out) := by
  by_cases hz : p.payLen = 0
  · have hnil : out = [] := by
      refine flatMap_codeOf_injective hn ht (List.forall_mem_nil _) hout ?_
      rw [← hbits, payloadBytes_eq_nil.2 hz]
      exact List.take_nil
    rw [hnil, cmdUnpack_of_nil hz (hnopay hz)]
  · exact cmdUnpack_of_decoded hpad hz hle hvalid ((congrArg _ hbits).trans (decodeBits_codes hn ht hout hfit))

/-- The state UNPACK starts from inside DECODE (46_composite.md R241). -/
def parsedCoded (s : State) (c : Container) : State := treed (parsed (afterInput s) c)

/-- A container whose payload is the codes of bytes that fit: what DECODE recovers (46_composite.md R241). -/
structure DecodesTo (s : State) (c : Container) (out : List Byte) : Prop where
  wf : c.wf
  payFits : c.payload.length ≤ s.params.payCap.val
  outFits : out.length ≤ s.params.outCap.val
  named : ∀ b ∈ out, ∃ e ∈ c.table, e.sym = b
  bits : unpaddedBits c.payload c.pad.toNat = out.flatMap (codeOf (installTree s (buildTree (freqOfTable c.table))))

section
variable {s : State} {c : Container} {out : List Byte} (hle : s.inLen.toNat ≤ s.params.inCap.val)
  (hbytes : inputBytes s = containerBytes c) (henc : DecodesTo s c out)
include henc

theorem nsym_parsed : nsym (parsed (afterInput s) c).freq = 0 ↔ c.table = [] := by
  rw [← tableOfFreq_eq_nil, parsed_freq, tableOfFreq_freqOfTable henc.wf.1]

theorem parsedCoded_of_nonempty (h : c.table ≠ []) :
    parsedCoded s c = installTree (parsed (afterInput s) c) (buildTree (freqOfTable c.table)) :=
  treed_of_present (mt (nsym_parsed henc).1 h)

theorem parsedCoded_of_empty (h : c.table = []) : parsedCoded s c = parsed (afterInput s) c :=
  treed_of_empty ((nsym_parsed henc).2 h)

theorem parsedCoded_payload :
    payloadBytes (parsedCoded s c) = c.payload ∧ afterPayload (parsedCoded s c) = parsedCoded s c :=
  payloadBytes_of_holds (holds_writeBytes s.payMem c.payload).1 (parsed_payLen_toNat (s := afterInput s) henc.payFits)

theorem cmdUnpack_parsedCoded : cmdUnpack (parsedCoded s c) = .ok (unpacked (parsedCoded s c) out) := by
  obtain ⟨htable, hpad, hempty, hnopay⟩ := henc.wf
  obtain ⟨hpayload, hafter⟩ := parsedCoded_payload henc
  have hlength : (parsedCoded s c).payLen.toNat = c.payload.length := by rw [← payloadBytes_length, hpayload]
  have hlen : (parsedCoded s c).payLen = 0 ↔ c.payload = [] := by rw [← payloadBytes_eq_nil, hpayload]
  nth_rw 2 [← hafter]
  by_cases hnil : c.table = []
  · obtain ⟨hp, hz⟩ := hempty hnil
    have hout : out = [] := List.eq_nil_iff_forall_not_mem.2 fun b hb => by
      obtain ⟨e, he, -⟩ := henc.named b hb
      rw [hnil] at he
      cases he
    rw [hout]
    exact cmdUnpack_of_nil (hlen.2 hp) hz
  · have htree := parsedCoded_of_nonempty henc hnil
    have hcodes : unpaddedBits (payloadBytes (parsedCoded s c)) (parsedCoded s c).pad.toNat
        = out.flatMap (codeOf (parsedCoded s c)) := by
      rw [hpayload, htree]
      exact henc.bits
    have hpresent : ∀ b ∈ out, tableAt (parsedCoded s c).freq b ≠ 0 := fun b hb =>
      (freqOfTable_ne_zero htable b).2 (henc.named b hb)
    have hvalid : (parsedCoded s c).treeValid = true := congrArg State.treeValid htree
    have htables : treeTables (parsedCoded s c) = buildTree (parsedCoded s c).freq := by
      rw [htree]
      rfl
    exact cmdUnpack_of_codes (mt (nsym_parsed henc).1 hnil) hvalid htables hpad (fun h => hnopay (hlen.1 h))
      (hlength.trans_le henc.payFits) hpresent henc.outFits hcodes

include hle hbytes in
/-- DECODE of a container of codes (46_composite.md R241). -/
theorem cmdDecode_of_codes : cmdDecode s = .ok (unpacked (parsedCoded s c) out) := by
  have hparse : parseContainer s.params.payCap.val (inputBytes s) = .ok c :=
    (parseAcceptsExactlyContainers _ _ c).2 ⟨henc.wf, henc.payFits, hbytes⟩
  rw [cmdDecode, cmdParse_accepts hle hparse, andThen_ok, buildIfAny_eq_treed, andThen_ok]
  exact cmdUnpack_parsedCoded henc

end

/-- UNPACK keeps the tables. -/
theorem treeTables_unpacked (p : State) (out : List Byte) :
    treeTables (complete (.ok (unpacked p out))) = treeTables p := rfl

/-- Settles O53: PARSE commits the container, BUILD makes the tree of its table, and UNPACK decodes the codes. -/
theorem decodeRecoversTheBytes : Obligations.DecodeRecoversTheBytes := by
  unfold Obligations.DecodeRecoversTheBytes
  rintro s u c out hle hbytes hwf hpay rfl hnamed hfit hbits
  have henc : DecodesTo s c out := ⟨hwf, hpay, hfit, hnamed, hbits⟩
  have hrule : ruleOf .decode s = .ok (unpacked (parsedCoded s c) out) := cmdDecode_of_codes hle hbytes henc
  obtain ⟨hok, hframe⟩ := succeeded_of_rule hrule
  obtain ⟨hheld, hsame⟩ := holds_writeBytes s.outMem out
  obtain ⟨hpayHeld, hpaySame⟩ := holds_writeBytes s.payMem c.payload
  refine ⟨_, by rw [exec_eq_ruleOf, hrule], hok, unpacked_outLen_toNat (s := parsedCoded s c) hfit, hheld, hsame,
    tableOfFreq_freqOfTable hwf.1, rfl, parsed_payLen_toNat (s := afterInput s) hpay, hpayHeld, hpaySame,
    fun hne => ?_, fun hnil => ?_, hframe.eq_update⟩
  · have htree := parsedCoded_of_nonempty henc hne
    refine ⟨congrArg State.treeValid htree, ?_⟩
    rw [treeTables_unpacked, htree]
    rfl
  · exact congrArg State.treeValid (parsedCoded_of_empty henc hnil)

/-- The container of an input whose payload fits holds the input's codes under the tree DECODE builds from its table
(46_composite.md R240 to R242). -/
theorem encodedContainer_decodesTo {s u : State} (hpay : encodedLength (inputBytes s) ≤ s.params.payCap.val)
    (hparams : u.params = s.params) (hfit : (inputBytes s).length ≤ u.params.outCap.val) :
    DecodesTo u (encodedContainer (inputBytes s)) (inputBytes s) where
  wf := encodedContainer_wf hpay
  payFits := by rwa [encodedContainer_payload_length, hparams]
  outFits := hfit
  named b hb := by
    refine (freqOfTable_ne_zero (tableOfFreq_wf _) b).1 ?_
    rw [freqOfTable_tableOfFreq]
    exact (countTable_ne_zero (inputBytes_length_lt s) b).2 hb
  bits := by
    rw [unpaddedBits_encodedContainer, encodedContainer, freqOfTable_tableOfFreq, flatMap_codeOf_installTree]

/-- Settles O54: the copied input is the container ENCODE wrote, which DECODE decodes to the bytes it encodes. -/
theorem decodeInvertsEncode : Obligations.DecodeInvertsEncode := by
  unfold Obligations.DecodeInvertsEncode
  intro s t u hwritten hexec hok hparams hlen hle hcopy hfit
  obtain ⟨hencoded, hpay⟩ := exec_encode_ok hwritten hexec hok
  have houtLen := hencoded.outLen
  have hcontainer : inputBytes u = containerBytes (encodedContainer (inputBytes s)) :=
    inputBytes_of_holds hencoded.outHeld (by rw [hlen, houtLen]) (by rwa [← houtLen])
  obtain ⟨hwf, hpayFits, -, hnamed, hbits⟩ := encodedContainer_decodesTo hpay hparams hfit
  obtain ⟨v, hdecode, hsucceeded, hvLen, hheld, -⟩ :=
    decodeRecoversTheBytes u _ _ _ (by rwa [hlen]) hcontainer hwf hpayFits rfl hnamed hfit hbits
  exact ⟨v, hdecode, hsucceeded, hvLen, hheld⟩

end Sys2Proof.Machine
end

section
/-! PROOFS. Failed commands (60_exceptions.md R252, R255): what the error of a primitive leaves, and how a composite
ends when its sub-commands end as they do on their own. -/

namespace Sys2Proof.Machine

/-! ## What an error leaves -/

/-- Two states that differ in the count of free draws at most (20_memory.md R72). -/
abbrev SameButDraws (s u : State) : Prop := u = { s with draws := u.draws }

section
variable {s u : State} {e : Err} {info : Word}

theorem cmdCount_raised (h : cmdCount s = .raised e info u) : SameButDraws s u := by
  unfold cmdCount raise at h
  split_ifs at h
  cases h; rfl

theorem cmdBuild_raised (h : cmdBuild s = .raised e info u) : SameButDraws s u := by
  unfold cmdBuild raise at h
  split_ifs at h
  cases h; rfl

theorem packChecked_raised {bytes : List Byte} (h : packChecked s bytes = .raised e info u) : u = s := by
  unfold packChecked raise at h
  split at h
  · cases h; rfl
  · split_ifs at h
    cases h; rfl

theorem cmdPack_raised (h : cmdPack s = .raised e info u) : SameButDraws s u := by
  unfold cmdPack raise at h
  split_ifs at h
  · cases h; rfl
  · cases h; rfl
  · rw [packChecked_raised h]; rfl

theorem cmdSerialize_raised (h : cmdSerialize s = .raised e info u) : SameButDraws s u := by
  unfold cmdSerialize raise at h
  split_ifs at h <;> cases h <;> rfl

theorem cmdParse_raised (h : cmdParse s = .raised e info u) : SameButDraws s u := by
  unfold cmdParse raise at h
  split_ifs at h
  · cases h; rfl
  · split at h
    · cases h; rfl
    · cases h

/-- UNPACK's error comes from its checks, which change nothing, or from its walk (45_decoder.md R220, R224). -/
theorem cmdUnpack_raised (h : cmdUnpack s = .raised e info u) : u = s ∨ u = afterWalkError (afterPayload s) := by
  unfold cmdUnpack raise at h
  split_ifs at h
  · cases h; exact .inl rfl
  · cases h; exact .inl rfl
  · cases h; exact .inl rfl
  · cases h; exact .inl rfl
  · split at h
    · cases h; exact .inr rfl
    · cases h

/-- A primitive's error changes the count of free draws at most, unless it comes from UNPACK's walk
(60_exceptions.md R252). -/
theorem ruleOf_raised {i : Instr} (hencode : i ≠ .encode) (hdecode : i ≠ .decode)
    (h : ruleOf i s = .raised e info u) :
    SameButDraws s u ∨ i = .unpack ∧ u = afterWalkError (afterPayload s) := by
  cases i with
  | clear => cases h
  | count => exact .inl (cmdCount_raised h)
  | build => exact .inl (cmdBuild_raised h)
  | pack => exact .inl (cmdPack_raised h)
  | serialize => exact .inl (cmdSerialize_raised h)
  | parse => exact .inl (cmdParse_raised h)
  | unpack =>
    obtain rfl | rfl := cmdUnpack_raised h
    · exact .inl rfl
    · exact .inr ⟨rfl, rfl⟩
  | encode => exact absurd rfl hencode
  | decode => exact absurd rfl hdecode

end

/-- What a primitive that completes with ERR changes (60_exceptions.md R252). -/
theorem exec_err_frame {i : Instr} {s t : State} (hencode : i ≠ .encode) (hdecode : i ≠ .decode)
    (h : exec i s = .next t) (herr : t.status.err = true) :
    t = { s with
        engine := t.engine, status := t.status, errInfo := t.errInfo, draws := t.draws, outMem := t.outMem }
      ∧ (i ≠ .unpack → t.outMem = s.outMem)
      ∧ (i = .unpack → t.outMem = s.outMem ∨ ∀ a, t.outMem.read a = none) := by
  rw [exec_eq_ruleOf] at h
  obtain rfl := next_inj h
  obtain ⟨e, info, u, hu⟩ := complete_err_true herr
  rw [hu]
  obtain hsame | ⟨rfl, rfl⟩ := ruleOf_raised hencode hdecode hu
  · rw [hsame]
    exact ⟨rfl, fun _ => rfl, fun _ => .inl rfl⟩
  · exact ⟨rfl, fun hne => absurd rfl hne, fun _ => .inr Memory.read_nil⟩

/-! ## A composite and its sub-commands -/

/-- The sub-commands of a composite run from the left, however they are grouped (60_exceptions.md R255). -/
theorem andThen_assoc (r : CmdResult) (f g : State → CmdResult) :
    (r.andThen f).andThen g = r.andThen (fun s => (f s).andThen g) := by
  cases r <;> rfl

/-- A composite ends as the first of its sub-commands that raises (60_exceptions.md R255). -/
theorem complete_andThen_of_err {r : CmdResult} {next : State → CmdResult} (h : (complete r).status.err = true) :
    complete (r.andThen next) = complete r := by
  obtain ⟨e, info, u, rfl⟩ := complete_err_true h
  rw [andThen_raised]

/-- A command that completes without ERR leaves its rule's effects, completed (40_command_dispatch.md R113). -/
theorem exec_ok {i : Instr} {s t : State} (h : exec i s = .next t) (hok : t.status.err = false) :
    ∃ u, ruleOf i s = .ok u ∧ t = complete (.ok u) := by
  rw [exec_eq_ruleOf] at h
  obtain rfl := next_inj h
  obtain ⟨u, hu⟩ := complete_err_false hok
  exact ⟨u, hu, congrArg complete hu⟩

/-- BUILD run on its own where there is a present symbol ends as the sub-command does (46_composite.md R240, R241). -/
theorem eq_complete_treed {u t : State} (hskip : nsym (complete (.ok u)).freq = 0 → t = complete (.ok u))
    (hbuild : nsym (complete (.ok u)).freq ≠ 0 → exec .build (complete (.ok u)) = .next t) :
    t = complete (.ok (treed u)) := by
  rw [← buildIfAny_eq_treed, ← complete_buildIfAny]
  by_cases hn : nsym (complete (.ok u)).freq = 0
  · rw [hskip hn, buildIfAny, if_neg (not_not.2 hn)]; rfl
  · rw [buildIfAny, if_pos hn]
    exact (next_inj ((exec_eq_ruleOf .build _).symm.trans (hbuild hn))).symm

/-- A sub-command run on a completed state ends as it does inside a composite, when it reads no field that completion
writes (10_state.md R25, 60_exceptions.md R255). -/
theorem eq_complete_of_exec {i : Instr} {u t : State} (h : exec i (complete (.ok u)) = .next t)
    (hreads : complete (ruleOf i (complete (.ok u))) = complete (ruleOf i u)) : t = complete (ruleOf i u) := by
  rw [← hreads]
  exact (next_inj ((exec_eq_ruleOf i _).symm.trans h)).symm

/-- DECODE's sub-commands end as they do on their own (46_composite.md R241, 60_exceptions.md R255). -/
theorem exec_decode_of_parts {s t1 t2 t : State} (hparse : exec .parse s = .next t1) (hok : t1.status.err = false)
    (hskip : nsym t1.freq = 0 → t2 = t1) (hbuild : nsym t1.freq ≠ 0 → exec .build t1 = .next t2)
    (hunpack : exec .unpack t2 = .next t) : exec .decode s = .next t := by
  obtain ⟨u, hu, rfl⟩ := exec_ok hparse hok
  obtain rfl := eq_complete_treed hskip hbuild
  rw [ruleOf] at hu
  rw [exec_eq_ruleOf, ruleOf, cmdDecode, hu, andThen_ok, buildIfAny_eq_treed, andThen_ok,
    eq_complete_of_exec hunpack (complete_cmdUnpack _), ruleOf]

/-- ENCODE's sub-commands end as they do on their own, PACK's error included (46_composite.md R240,
60_exceptions.md R255). -/
theorem exec_encode_of_parts {s t1 t2 t3 : State} (hcount : exec .count s = .next t1) (hok : t1.status.err = false)
    (hskip : nsym t1.freq = 0 → t2 = t1) (hbuild : nsym t1.freq ≠ 0 → exec .build t1 = .next t2)
    (hpack : exec .pack t2 = .next t3) :
    (t3.status.err = true → exec .encode s = .next t3)
      ∧ (t3.status.err = false → ∀ t, exec .serialize t3 = .next t → exec .encode s = .next t) := by
  obtain ⟨u, hu, rfl⟩ := exec_ok hcount hok
  obtain rfl := eq_complete_treed hskip hbuild
  obtain rfl : t3 = complete (cmdPack (treed u)) := eq_complete_of_exec hpack (complete_cmdPack _)
  rw [ruleOf] at hu
  rw [exec_eq_ruleOf, ruleOf, cmdEncode, hu, andThen_ok, buildIfAny_eq_treed, andThen_ok]
  refine ⟨fun herr => ?_, fun hpacked t hserialize => ?_⟩
  · rw [complete_andThen_of_err herr]
  · obtain ⟨v, hv⟩ := complete_err_false hpacked
    rw [hv] at hserialize ⊢
    rw [andThen_ok, eq_complete_of_exec hserialize (complete_cmdSerialize v), ruleOf]

/-- Settles O24: a rule that raises does so on the state as it was but for the draws and UNPACK's output; a composite's
sub-commands run on completed states, and none of them reads what completion writes. -/
theorem failedCommandsChangeNothingElse : Obligations.FailedCommandsChangeNothingElse := by
  unfold Obligations.FailedCommandsChangeNothingElse
  refine ⟨fun i s t => exec_err_frame, fun s t herr => ⟨fun hparse => ?_, fun hcount => ?_⟩,
    fun s t1 t2 t => exec_decode_of_parts, fun s t1 t2 t3 => exec_encode_of_parts⟩
  · obtain rfl := next_inj hparse
    rw [exec_eq_ruleOf, ruleOf, cmdDecode, andThen_assoc, complete_andThen_of_err herr]
  · obtain rfl := next_inj hcount
    rw [exec_eq_ruleOf, ruleOf, cmdEncode, andThen_assoc, andThen_assoc, complete_andThen_of_err herr]

end Sys2Proof.Machine
end

section
/-! PROOFS. Progress and reset (70_reset_and_hazards.md): a pending command completes unless reset intervenes, asserted
reset holds the block, its release gives the reset values, and these meet the invariants. -/

namespace Sys2Proof.Machine

/-! ## A pending command completes -/

/-- Outside reset the step of a BUSY engine is a completion (40_command_dispatch.md R112, R114). -/
theorem engineStep_eq_complete {s : State} {w : Word} (hrst : s.rst = false) (hbusy : s.engine = .busy w) :
    ∃ r, engineStep s = .next (complete r) := by
  cases hdec : decodeWord w with
  | ok i => rw [engineStep_eq_exec hrst hbusy hdec]; exact exec_eq_complete i s
  | error e => exact ⟨raise .illegalCommand w.toNat s, by simp [engineStep, hrst, hbusy, hdec, illegalWord]⟩

/-- Outside reset an event either completes the pending command or leaves it pending, unless it asserts reset
(70_reset_and_hazards.md R292). -/
theorem eventStep_busy {e : Event} {s : State} {w : Word} (hrst : s.rst = false) (hbusy : s.engine = .busy w)
    (he : e ≠ .assertReset) :
    (∃ r, eventStep e s = .next (complete r))
      ∨ ∃ t, eventStep e s = .next t ∧ t.engine = .busy w ∧ t.script = s.script ∧ t.rst = s.rst := by
  cases e with
  | bus x => exact .inr ⟨_, rfl, transact_busy x hbusy⟩
  | hostTurn => exact .inr ⟨_, rfl, hostStep_busy hbusy⟩
  | engineTurn => exact .inl (engineStep_eq_complete hrst hbusy)
  | assertReset => exact absurd rfl he
  | releaseReset =>
    have hkept : releaseReset s = s := if_neg (by simp [hrst])
    exact .inr ⟨s, congrArg _ hkept, hbusy, rfl, rfl⟩

/-- A step that is a completion ends a run of one step IDLE with DONE set (40_command_dispatch.md R113). -/
theorem run_one_of_complete {s : State} {r : CmdResult} (h : step s = .next (complete r)) :
    ∃ t, core.run 1 s = .next t ∧ t.engine = .idle ∧ t.status.done = true :=
  ⟨complete r, core_run_succ h 0, complete_engine r, complete_done r⟩

/-- Settles O8, by induction on the script: each event completes the command or leaves it pending with a shorter script,
and on the empty script the engine has the turn. -/
theorem acceptedCommandCompletes : Obligations.AcceptedCommandCompletes := by
  unfold Obligations.AcceptedCommandCompletes
  intro s w hrst hbusy hscript
  generalize hl : s.script = l at hscript
  induction l generalizing s with
  | nil =>
    obtain ⟨r, hr⟩ := engineStep_eq_complete hrst hbusy
    obtain ⟨t, ht⟩ := run_one_of_complete ((step_busy_of_nil hl hbusy).trans hr)
    exact ⟨1, t, by simp, ht⟩
  | cons e rest ih =>
    obtain ⟨he, hrest⟩ := List.ne_and_not_mem_of_not_mem_cons hscript
    obtain ⟨r, hr⟩ | ⟨u, hu, hubusy, huscript, hurst⟩ :=
      eventStep_busy (s := { s with script := rest }) hrst hbusy (Ne.symm he)
    · obtain ⟨t, ht⟩ := run_one_of_complete ((step_cons hl).trans hr)
      exact ⟨1, t, by simp, ht⟩
    · obtain ⟨k, t, hk, hrun, hdone⟩ := ih u (hurst.trans hrst) hubusy huscript hrest
      exact ⟨k + 1, t, Nat.succ_le_succ hk, (core_run_succ ((step_cons hl).trans hu) k).trans hrun, hdone⟩

/-! ## Asserted reset -/

section
variable {s : State} (hrst : s.rst = true)
include hrst

theorem transact_of_rst (x : Txn) : transact x s = { s with resp := none } := if_pos hrst

theorem hostStep_of_rst : hostStep s = s := if_pos hrst

theorem engineStep_of_rst : engineStep s = .next s := if_pos hrst

theorem assertReset_of_rst : assertReset s = s := by rw [assertReset, ← hrst]

theorem defaultStep_of_rst : defaultStep s = .next s := by
  rw [defaultStep, engineStep_of_rst hrst, hostStep_of_rst hrst, ite_self]

end

/-- Settles O10: each event but the release finds reset asserted and does nothing, a transaction getting no response. -/
theorem assertedResetHoldsTheBlock : Obligations.AssertedResetHoldsTheBlock := by
  unfold Obligations.AssertedResetHoldsTheBlock
  refine ⟨fun s e rest hrst he hscript => ?_, fun s hrst hscript => ?_⟩
  · have hpopped : { s with script := rest }.rst = true := hrst
    rw [step_cons hscript]
    cases e with
    | bus x => exact ⟨fun _ => congrArg _ (transact_of_rst hpopped x), fun hx => absurd ⟨x, rfl⟩ hx⟩
    | hostTurn => exact ⟨nofun, fun _ => congrArg _ (hostStep_of_rst hpopped)⟩
    | engineTurn => exact ⟨nofun, fun _ => engineStep_of_rst hpopped⟩
    | assertReset => exact ⟨nofun, fun _ => congrArg _ (assertReset_of_rst hpopped)⟩
    | releaseReset => exact absurd rfl he
  · rw [step_nil hscript]
    exact defaultStep_of_rst hrst

/-! ## The release of reset, and the reset values -/

/-- The release of an asserted reset leaves the reset state of the instance, beside the host, the rest of the script and
the count of draws (70_reset_and_hazards.md R280 to R282). -/
theorem step_releaseReset {s : State} {rest : List Event} (hrst : s.rst = true)
    (hscript : s.script = .releaseReset :: rest) :
    step s = .next { State.resetOf s.params with host := s.host, script := rest, draws := s.draws } :=
  (step_cons hscript).trans (congrArg Host.Outcome.next (if_pos hrst))

/-- STATUS reads 0 when no field of it is set and the engine is IDLE (10_state.md R25). -/
theorem statusWord_of_zero {s : State} (hstatus : s.status = .zero) (hidle : s.engine = .idle) :
    statusWord s = 0 := by
  rw [statusWord, busy, hstatus, hidle]
  rfl

/-- Settles O9: the release leaves the reset state, whose tables hold one value throughout and whose memories list no
byte. -/
theorem releaseOfResetGivesResetValues : Obligations.ReleaseOfResetGivesResetValues := by
  unfold Obligations.ReleaseOfResetGivesResetValues
  intro s rest hrst hscript
  have hfreq : ∀ b, tableAt (State.resetOf s.params).freq b = 0 := tableAt_replicate 0
  have hcodeBits : ∀ b (w : Fin 8), (tableAt (State.resetOf s.params).codeBits b)[w.val] = 0 := fun b w => by
    simp [State.resetOf]
  have hnode : ∀ n : Fin 511, (State.resetOf s.params).node[n.val] = .zero := fun n => Vector.getElem_replicate n.isLt
  exact ⟨_, step_releaseReset hrst hscript, rfl, rfl, statusWord_of_zero rfl rfl,
    rfl, rfl, rfl, rfl, rfl, rfl, rfl, rfl, rfl, hfreq, nsym_eq_zero.2 hfreq, tableAt_replicate 0, hcodeBits, hnode,
    rfl, fun _ => ⟨rfl, rfl, rfl⟩, rfl, rfl, rfl⟩

/-- Settles O58: at reset the memories list nothing, OUT_LEN and STATUS are 0, and there is no valid tree. -/
theorem resetMeetsTheInvariants : Obligations.ResetMeetsTheInvariants := by
  unfold Obligations.ResetMeetsTheInvariants
  intro p
  refine { mem := ?_, len := Nat.zero_le _, status := ?_, tree := nofun }
  · simp [MemInv, State.resetOf]
  · simp [StatusInv, State.resetOf, Status.zero]

end Sys2Proof.Machine
end
